-- ==== Sys2Proof/Word.lean ====
section
/-! DEFINITION. The widths of the block's words (spec/00_scope.md R8, R11; spec/10_state.md R20). -/

namespace Sys2Proof

/-- A byte of input or of an output stream. -/
abbrev Byte := BitVec 8

/-- `SYM_W` = 9: a stored symbol or node tag (R8, R23). -/
abbrev Sym := BitVec 9

/-- `CW` = 32: an unsigned count (R8, R24). -/
abbrev Count := BitVec 32

/-- `IDX_W` = 10: a node index, or `NULL`; also the width of the operand field `a` (R8, R86). -/
abbrev Idx := BitVec 10

/-- `LEN_W` = 9: a code length, 0 to 256 (R8, R31). -/
abbrev Len := BitVec 9

/-- The left-aligned bits of a code (R31, R32). -/
abbrev CodeBits := BitVec 256

/-- `CMD_W` = 64: a command word, and the data of a response (R8, R86, R93). -/
abbrev Word := BitVec 64

end Sys2Proof
end

