-- ==== Sys2Proof/Config.lean ====
section
/-! DEFINITION. The parameters of the block, fixed for this hardware (spec/00_scope.md R8). The spec leaves no
implementation parameter open (spec/93_implementation_defined.md, opening), so there is no free value here. -/

namespace Sys2Proof.Config

/-- `EOF_SYM`: the end-of-stream symbol. -/
def eofSym : Sym := 256

/-- `INTERNAL_SYM`: the tag of an internal node; never a key. -/
def internalSym : Sym := 257

/-- `NSYM`: the entries of `FREQ` and of `CODE`, symbols 0 to 256. -/
def nsym : Nat := 257

/-- `NNODE_MAX`: the entries of the node arena. -/
def nnodeMax : Nat := 513

/-- `NULL`: the absent-child and absent-root index. -/
def nullIdx : Idx := 0x3FF

/-- `MAXLEN`: the largest possible code length. -/
def maxLen : Nat := 256

/-- A bound on the pops of the code walker's stack: the root, and two children for each entry of the arena
(R155, R265; notes/assumptions/9.md). -/
def walkFuel : Nat := 2 * nnodeMax + 1

end Sys2Proof.Config
end

