-- ==== Sys2Proof/Syntax.lean ====
section
/-! DEFINITION. The commands of the block (spec/30_encoding.md R89), one constructor per row of the opcode table, and
the fields of a command word (R86). Operands have exactly the bits the command uses (R87), so every `Instr` is well
formed; a range such as `a <= 256` is no part of the encoding (R87) and is checked when the command runs. -/

namespace Sys2Proof

/-- The field selector `d[1:0]` of NODE_GET (spec/41_tree_builder.md R141). -/
inductive NodeField where
  | sym
  | count
  | zero
  | one
deriving DecidableEq, Repr

/-- A command (R89). -/
inductive Instr where
  /-- CLEAR, spec/45_system.md R206. -/
  | clear
  /-- GET_STATUS, spec/45_system.md R207. -/
  | getStatus
  /-- FREQ_PUT symbol, count, spec/40_freq_table.md R121. -/
  | freqPut (a : Idx) (d : Count)
  /-- FREQ_GET symbol, spec/40_freq_table.md R122. -/
  | freqGet (a : Idx)
  /-- BUILD, spec/41_tree_builder.md R130. -/
  | build
  /-- NODE_GET node index, field, spec/41_tree_builder.md R141. -/
  | nodeGet (a : Idx) (f : NodeField)
  /-- RELEASE, spec/41_tree_builder.md R142. -/
  | release
  /-- GENCODES, spec/42_code_table_gen.md R150. -/
  | gencodes
  /-- CODE_LEN symbol, spec/42_code_table_gen.md R158. -/
  | codeLen (a : Idx)
  /-- CODE_BITS symbol, chunk, spec/42_code_table_gen.md R159. -/
  | codeBits (a : Idx) (k : BitVec 3)
  /-- ENC_START dry-run flag, spec/43_encoder.md R166. -/
  | encStart (dry : Bool)
  /-- ENC_SYM byte, spec/43_encoder.md R169. -/
  | encSym (b : Byte)
  /-- ENC_END, spec/43_encoder.md R172. -/
  | encEnd
  /-- GET_BITCNT, spec/43_encoder.md R174. -/
  | getBitcnt
  /-- DEC_START, spec/44_decoder.md R188. -/
  | decStart
  /-- DEC_BIT bit, spec/44_decoder.md R189. -/
  | decBit (b : Bool)
  /-- DEC_BYTE byte, spec/44_decoder.md R192. -/
  | decByte (v : Byte)
  /-- DEC_EOD, spec/44_decoder.md R194. -/
  | decEod
deriving DecidableEq, Repr

/-- The four fields of a command word (R86): any 64 bits are some `CmdFields`, well formed or not. -/
structure CmdFields where
  op  : BitVec 8
  rsv : BitVec 14
  a   : Idx
  d   : BitVec 32
deriving DecidableEq, Repr

end Sys2Proof
end

