-- ==== Sys2Proof/WellFormed.lean ====
section
/-! DEFINITION. When the fields of a command word form a command: the requirements of spec/30_encoding.md R87, one
check each. They are written from R87's words, independently of the masks of R88 that the decoder applies. -/

namespace Sys2Proof

/-- For a listed opcode: whether the command uses `a`, and how many low bits of `d` it uses (R87, R89). -/
def operandUse (op : BitVec 8) : Option (Bool × Nat) :=
  match op.toNat with
  | 0x01 => some (false, 0)
  | 0x02 => some (false, 0)
  | 0x10 => some (true, 32)
  | 0x11 => some (true, 0)
  | 0x20 => some (false, 0)
  | 0x21 => some (true, 2)
  | 0x22 => some (false, 0)
  | 0x30 => some (false, 0)
  | 0x31 => some (true, 0)
  | 0x32 => some (true, 3)
  | 0x40 => some (false, 1)
  | 0x41 => some (false, 8)
  | 0x42 => some (false, 0)
  | 0x43 => some (false, 0)
  | 0x50 => some (false, 0)
  | 0x51 => some (false, 1)
  | 0x52 => some (false, 8)
  | 0x53 => some (false, 0)
  | _ => none

namespace CmdFields

/-- The opcode is one of the 18 (R89). -/
def opListed (c : CmdFields) : Bool := (operandUse c.op).isSome

/-- "`rsv` is always required to be 0" (R87). -/
def rsvZero (c : CmdFields) : Bool := c.rsv == 0

/-- "A command that does not use `a` requires `a = 0`" (R87). -/
def aZeroUnlessUsed (c : CmdFields) : Bool :=
  match operandUse c.op with
  | some (true, _) => true
  | _ => c.a == 0

/-- A command that uses only the low n bits of `d` requires `d[31:n]` to be 0 (R87). -/
def dZeroAboveUsed (c : CmdFields) : Bool :=
  match operandUse c.op with
  | some (_, n) => decide (c.d.toNat < 2 ^ n)
  | none => c.d == 0

/-- The fields form a command (R87, R90). -/
def wellFormed (c : CmdFields) : Bool :=
  c.opListed && c.rsvZero && c.aZeroUnlessUsed && c.dZeroAboveUsed

end CmdFields
end Sys2Proof
end

