-- ==== Sys2Proof/Decode.lean ====
section
/-! DEFINITION. The decoder (spec/30_encoding.md R88), total on every 64-bit word, and after it the encoder, written
from the field layout of R86 and the operand columns of R89. -/

namespace Sys2Proof

/-- `op` = bits 63:56 (R86). -/
def opField (w : Word) : BitVec 8 := w.extractLsb' 56 8

/-- `rsv` = bits 55:42 (R86). -/
def rsvField (w : Word) : BitVec 14 := w.extractLsb' 42 14

/-- `a` = bits 41:32 (R86). -/
def aField (w : Word) : Idx := w.extractLsb' 32 10

/-- `d` = bits 31:0 (R86). -/
def dField (w : Word) : BitVec 32 := w.extractLsb' 0 32

/-- The four fields of a word (R86). -/
def fieldsOf (w : Word) : CmdFields := ⟨opField w, rsvField w, aField w, dField w⟩

/-- The selector values of NODE_GET (R93, spec/41_tree_builder.md R141). -/
def nodeFieldOf (f : BitVec 2) : NodeField :=
  match f.toNat with
  | 0 => .sym
  | 1 => .count
  | 2 => .zero
  | _ => .one

/-- One row of the opcode map: opcode, `mask`, `match`, and the command its used operand bits give (R88, R89). -/
structure OpRow where
  op : BitVec 8
  fixedMask : Word
  fixedBits : Word
  make : Idx → BitVec 32 → Instr

/-- The rows of units 0 to 2: system, frequency table, tree builder (R89). -/
def opRowsLow : List OpRow :=
  [ ⟨0x01, 0xFFFFFFFFFFFFFFFF, 0x0100000000000000, fun _ _ => .clear⟩
  , ⟨0x02, 0xFFFFFFFFFFFFFFFF, 0x0200000000000000, fun _ _ => .getStatus⟩
  , ⟨0x10, 0xFFFFFC0000000000, 0x1000000000000000, fun a d => .freqPut a d⟩
  , ⟨0x11, 0xFFFFFC00FFFFFFFF, 0x1100000000000000, fun a _ => .freqGet a⟩
  , ⟨0x20, 0xFFFFFFFFFFFFFFFF, 0x2000000000000000, fun _ _ => .build⟩
  , ⟨0x21, 0xFFFFFC00FFFFFFFC, 0x2100000000000000, fun a d => .nodeGet a (nodeFieldOf (d.extractLsb' 0 2))⟩
  , ⟨0x22, 0xFFFFFFFFFFFFFFFF, 0x2200000000000000, fun _ _ => .release⟩ ]

/-- The rows of units 3 to 5: code table generator, encoder, decoder (R89). -/
def opRowsHigh : List OpRow :=
  [ ⟨0x30, 0xFFFFFFFFFFFFFFFF, 0x3000000000000000, fun _ _ => .gencodes⟩
  , ⟨0x31, 0xFFFFFC00FFFFFFFF, 0x3100000000000000, fun a _ => .codeLen a⟩
  , ⟨0x32, 0xFFFFFC00FFFFFFF8, 0x3200000000000000, fun a d => .codeBits a (d.extractLsb' 0 3)⟩
  , ⟨0x40, 0xFFFFFFFFFFFFFFFE, 0x4000000000000000, fun _ d => .encStart (d.getLsbD 0)⟩
  , ⟨0x41, 0xFFFFFFFFFFFFFF00, 0x4100000000000000, fun _ d => .encSym (d.extractLsb' 0 8)⟩
  , ⟨0x42, 0xFFFFFFFFFFFFFFFF, 0x4200000000000000, fun _ _ => .encEnd⟩
  , ⟨0x43, 0xFFFFFFFFFFFFFFFF, 0x4300000000000000, fun _ _ => .getBitcnt⟩
  , ⟨0x50, 0xFFFFFFFFFFFFFFFF, 0x5000000000000000, fun _ _ => .decStart⟩
  , ⟨0x51, 0xFFFFFFFFFFFFFFFE, 0x5100000000000000, fun _ d => .decBit (d.getLsbD 0)⟩
  , ⟨0x52, 0xFFFFFFFFFFFFFF00, 0x5200000000000000, fun _ d => .decByte (d.extractLsb' 0 8)⟩
  , ⟨0x53, 0xFFFFFFFFFFFFFFFF, 0x5300000000000000, fun _ _ => .decEod⟩ ]

/-- The opcode map, 18 rows (R89). -/
def opRows : List OpRow := opRowsLow ++ opRowsHigh

/-- Why a word is no command (R90). -/
inductive IllegalReason where
  /-- `op` is none of the 18 opcodes. -/
  | unknownOpcode
  /-- `op` is listed and a must-be-zero bit is set. -/
  | mustBeZero
deriving DecidableEq, Repr

/-- What a word decodes to (R88). -/
inductive Decoded where
  | cmd (i : Instr)
  | illegal (why : IllegalReason)
deriving DecidableEq, Repr

/-- `decode(w)` (R88): the opcode's row, then the test `(w AND mask) = match`, then the used operand bits. -/
def decode (w : Word) : Decoded :=
  match opRows.find? (fun r => r.op == opField w) with
  | none => .illegal .unknownOpcode
  | some r => if w &&& r.fixedMask = r.fixedBits then .cmd (r.make (aField w) (dField w)) else .illegal .mustBeZero

/-- The command of a row of the opcode table whose bits are `w`, bit 0 the least significant bit of the one 64-bit
word (notes/assumptions/11.md). -/
def decodeTableWord (nbits w : Nat) : Option Instr :=
  match decode (BitVec.ofNat 64 (w % 2 ^ nbits)) with
  | .cmd i => some i
  | .illegal _ => none

/-- The selector bits of a NODE_GET field (R93). -/
def nodeFieldBits : NodeField → BitVec 2
  | .sym => 0
  | .count => 1
  | .zero => 2
  | .one => 3

/-- The opcode of a command (R89). -/
def Instr.opcode : Instr → BitVec 8
  | .clear => 0x01
  | .getStatus => 0x02
  | .freqPut _ _ => 0x10
  | .freqGet _ => 0x11
  | .build => 0x20
  | .nodeGet _ _ => 0x21
  | .release => 0x22
  | .gencodes => 0x30
  | .codeLen _ => 0x31
  | .codeBits _ _ => 0x32
  | .encStart _ => 0x40
  | .encSym _ => 0x41
  | .encEnd => 0x42
  | .getBitcnt => 0x43
  | .decStart => 0x50
  | .decBit _ => 0x51
  | .decByte _ => 0x52
  | .decEod => 0x53

/-- The field `a` of a command: 0 where it is not used (R87, R89). -/
def Instr.aOperand : Instr → Idx
  | .freqPut a _ => a
  | .freqGet a => a
  | .nodeGet a _ => a
  | .codeLen a => a
  | .codeBits a _ => a
  | .clear | .getStatus | .build | .release | .gencodes | .encStart _ | .encSym _ | .encEnd | .getBitcnt | .decStart
  | .decBit _ | .decByte _ | .decEod => 0

/-- The field `d` of a command: 0 in every bit it does not use (R87, R89). -/
def Instr.dOperand : Instr → BitVec 32
  | .freqPut _ d => d
  | .nodeGet _ f => (nodeFieldBits f).zeroExtend 32
  | .codeBits _ k => k.zeroExtend 32
  | .encStart dry => (BitVec.ofBool dry).zeroExtend 32
  | .encSym b => b.zeroExtend 32
  | .decBit b => (BitVec.ofBool b).zeroExtend 32
  | .decByte v => v.zeroExtend 32
  | .clear | .getStatus | .freqGet _ | .build | .release | .gencodes | .codeLen _ | .encEnd | .getBitcnt | .decStart
  | .decEod => 0

/-- The four fields of a command's word (R86, R87). -/
def Instr.fields (i : Instr) : CmdFields := ⟨i.opcode, 0, i.aOperand, i.dOperand⟩

/-- The word with given fields: `op ++ rsv ++ a ++ d` (R86). -/
def packFields (c : CmdFields) : Word := c.op ++ c.rsv ++ c.a ++ c.d

/-- The word of a command (R86, R89). -/
def encode (i : Instr) : Word := packFields i.fields

end Sys2Proof
end

