-- ==== Sys2Proof/Machine/State.lean ====
section
/-! DEFINITION. The state of the block: the tuple of spec/10_state.md R20, and the four sequences at its ports
(spec/30_encoding.md R85, spec/20_memory.md R70). Plain data throughout. -/

namespace Sys2Proof.Machine

/-- A table memory (spec/20_memory.md R60): (entry index, entry) pairs, indices strictly rising, no entry equal to
what an unlisted index reads as (`Table.wf`). -/
abbrev Table (α : Type) := List (Nat × α)

/-- An entry of the node arena (spec/10_state.md R26). -/
structure NodeEntry where
  sym   : Sym
  count : Count
  zero  : Idx
  one   : Idx
deriving DecidableEq, Repr

/-- An entry of the code table (spec/10_state.md R31, R32). -/
structure CodeEntry where
  len  : Len
  bits : CodeBits
deriving DecidableEq, Repr

/-- The values of `ENC_STATE` and `DEC_STATE`; "Value 3 never occurs" (spec/10_state.md R35, R42). -/
inductive UnitState where
  | idle
  | run
  | done
deriving DecidableEq, Repr

/-- The values of `ERR` (spec/60_exceptions.md R216); codes 9 to 15 are never written. -/
inductive ErrCode where
  | noFault
  | illegalCmd
  | seq
  | badKey
  | freqEmpty
  | countOvf
  | noCode
  | trunc
  | badPath
deriving DecidableEq, Repr

/-- A response (spec/30_encoding.md R93). -/
structure Response where
  fault : Bool
  data  : Word
deriving DecidableEq, Repr

/-- What the host can do to the block: present a command word, or pulse `rst` (spec/30_encoding.md R85). -/
inductive HostEvent where
  | cmd (w : Word)
  | rst
deriving DecidableEq, Repr

/-- The state. The names of spec/10_state.md R20 in the order of that table; the last four fields are the ports. -/
structure State where
  /-- `FREQ` (R24). -/
  freq : Table Count
  /-- `NODE` (R26). -/
  node : Table NodeEntry
  /-- `NNODES` (R28). -/
  nnodes : Idx
  /-- `ROOT` (R28). -/
  root : Idx
  /-- `TREE_VALID` (R29). -/
  treeValid : Bool
  /-- `PQ` (R30): the member indices, ascending. -/
  pq : List Nat
  /-- `CODE` (R31). -/
  code : Table CodeEntry
  /-- `CODES_VALID` (R33). -/
  codesValid : Bool
  /-- The code walker's traversal stack (R34), top first. -/
  walkStack : List (Idx × List Bool)
  /-- The code walker's path register (R34). -/
  walkPath : List Bool
  /-- `ENC_STATE` (R35). -/
  encState : UnitState
  /-- `ENC_DRY` (R36). -/
  encDry : Bool
  /-- `ENC_ACC` (R37). -/
  encAcc : Byte
  /-- `ENC_NBITS` (R37). -/
  encNbits : BitVec 3
  /-- `ENC_BITCNT` (R38). -/
  encBitcnt : BitVec 64
  /-- `ENC_OUT` (R39). -/
  encOut : List Byte
  /-- `ENC_TRACE` (R41), ghost. -/
  encTrace : List Bool
  /-- `DEC_STATE` (R42). -/
  decState : UnitState
  /-- `DEC_PTR` (R43). -/
  decPtr : Idx
  /-- `DEC_OUT` (R47). -/
  decOut : List Byte
  /-- `ERR` (R48). -/
  err : ErrCode
  /-- `ERR_INFO` (R48). -/
  errInfo : BitVec 32
  /-- The host's events not yet taken, oldest first; the model's own (notes/assumptions/1.md). -/
  inputs : List HostEvent
  /-- The responses on `rsp`, in order (spec/20_memory.md R70). -/
  rsp : List Response
  /-- The bytes sent on `enc_out`, in order, never recalled (spec/45_system.md R206). -/
  encPort : List Byte
  /-- The bytes sent on `dec_out`, in order, never recalled (spec/45_system.md R206). -/
  decPort : List Byte
deriving DecidableEq, Repr

/-- Why the machine could stop with a fault: never. A fault of the block is a next state in which `ERR` is set
(spec/60_exceptions.md R215, R220), and "the block has no state from which no command is accepted"
(spec/93_implementation_defined.md), so this type has no constructor: safe. -/
inductive Fault where
deriving DecidableEq, Repr

/-- Why a step has no meaning. -/
inductive Refusal where
  /-- Raised by an arm of `exec` whose instruction has no meaning yet: safe. No arm does. -/
  | notModelled (mnemonic : String)
deriving DecidableEq, Repr

/-- The state right after reset (spec/10_state.md R51), with nothing at the ports. `NODE` and `CODE`, unspecified
there, list nothing (notes/assumptions/5.md, notes/assumptions/6.md). -/
def State.reset : State where
  freq := []
  node := []
  nnodes := 0
  root := Config.nullIdx
  treeValid := false
  pq := []
  code := []
  codesValid := false
  walkStack := []
  walkPath := []
  encState := .idle
  encDry := false
  encAcc := 0
  encNbits := 0
  encBitcnt := 0
  encOut := []
  encTrace := []
  decState := .idle
  decPtr := Config.nullIdx
  decOut := []
  err := .noFault
  errInfo := 0
  inputs := []
  rsp := []
  encPort := []
  decPort := []

end Sys2Proof.Machine
end

