-- ==== Sys2Proof/Machine/Flags.lean ====
section
/-! DEFINITION. The status word and the encodings of its fields (spec/10_state.md R49, spec/60_exceptions.md R216).
There are no arithmetic condition codes (spec/10_state.md R50). -/

namespace Sys2Proof.Machine

/-- `ENC_STATE` and `DEC_STATE` as two bits (spec/10_state.md R35, R42). -/
def UnitState.code : UnitState → BitVec 2
  | .idle => 0
  | .run => 1
  | .done => 2

/-- `ERR` as four bits (spec/60_exceptions.md R216). -/
def ErrCode.code : ErrCode → BitVec 4
  | .noFault => 0
  | .illegalCmd => 1
  | .seq => 2
  | .badKey => 3
  | .freqEmpty => 4
  | .countOvf => 5
  | .noCode => 6
  | .trunc => 7
  | .badPath => 8

/-- `STATUS`, bits 31 down to 0 (spec/10_state.md R49). -/
def State.status (s : State) : BitVec 32 :=
  (0 : BitVec 6) ++ s.nnodes ++ (0 : BitVec 2) ++ s.encNbits ++ BitVec.ofBool s.encDry ++ s.decState.code
    ++ s.encState.code ++ BitVec.ofBool s.codesValid ++ BitVec.ofBool s.treeValid ++ s.err.code

end Sys2Proof.Machine
end

