-- ==== Sys2Proof/Machine/Operands.lean ====
section
/-! DEFINITION. The operand forms of the commands (spec/30_encoding.md R87, R93) and the readings of a byte and of a
stored code as bits in time order (spec/20_memory.md R62, spec/10_state.md R32). -/

namespace Sys2Proof.Machine

/-- A symbol operand is in range: `a <= 256` (spec/20_memory.md R63). -/
def symInRange (a : Idx) : Bool := decide (a.toNat < Config.nsym)

/-- A node operand is in range: `a < NNODES` (spec/20_memory.md R63). -/
def nodeInRange (a nnodes : Idx) : Bool := decide (a.toNat < nnodes.toNat)

/-- The field of a node that NODE_GET selects, zero-extended (spec/41_tree_builder.md R141, spec/30_encoding.md R93). -/
def selectField (e : NodeEntry) : NodeField → Word
  | .sym => e.sym.zeroExtend 64
  | .count => e.count.zeroExtend 64
  | .zero => e.zero.zeroExtend 64
  | .one => e.one.zeroExtend 64

/-- Chunk `k` of a stored code: `bits[255 - 32*k : 224 - 32*k]` (spec/42_code_table_gen.md R159). -/
def selectChunk (b : CodeBits) (k : BitVec 3) : BitVec 32 := b.extractLsb' (224 - 32 * k.toNat) 32

/-- The bits of a byte in time order: bit 7 first (spec/20_memory.md R62). -/
def byteBits (v : Byte) : List Bool := (List.range 8).map (fun i => v.getLsbD (7 - i))

/-- `path(s)` of a code entry: path bit `i` is `bits[255 - i]`, for `i < len` (spec/10_state.md R32). -/
def codePath (c : CodeEntry) : List Bool := (List.range c.len.toNat).map (fun i => c.bits.getMsbD i)

/-- The 256-bit value with `bits[255 - i] = p[i]` for `i < len(p)`, 0 elsewhere (spec/42_code_table_gen.md R150). -/
def storeBits (p : List Bool) : CodeBits :=
  p.foldr (fun b acc => (acc >>> 1) ||| (if b then BitVec.twoPow 256 255 else 0)) 0

/-- `store(p)` (spec/42_code_table_gen.md R150). -/
def storePath (p : List Bool) : CodeEntry := ⟨BitVec.ofNat 9 p.length, storeBits p⟩

end Sys2Proof.Machine
end

