-- ==== Sys2Proof/Machine/Ops.lean ====
section
/-! DEFINITION. The shared operations: table access (spec/20_memory.md R60, R63), the ends of a command
(spec/00_scope.md R14), the common prologue (spec/60_exceptions.md R222), taking a fault (R220) and the way out of one
(R224), and taking the host's next event (spec/30_encoding.md R85). -/

namespace Sys2Proof.Machine

/-- The answer of one command. -/
abbrev Result := Host.Outcome State Fault Refusal

/-! ### Table memories -/

/-- Entry `k`: the listed one, else `dflt`. -/
def Table.read {α : Type} (dflt : α) : Table α → Nat → α
  | [], _ => dflt
  | (j, v) :: t, k => if k = j then v else Table.read dflt t k

/-- The table without an entry for `k`. -/
def Table.erase {α : Type} (t : Table α) (k : Nat) : Table α := t.filter (fun e => e.1 != k)

/-- The table with `(k, v)` listed in its place. -/
def Table.insert {α : Type} : Table α → Nat → α → Table α
  | [], k, v => [(k, v)]
  | (j, w) :: t, k, v =>
    if k < j then (k, v) :: (j, w) :: t
    else if k = j then (k, v) :: t
    else (j, w) :: Table.insert t k v

/-- `T[k] <- v` in a table of `size` entries; an index outside the table writes nothing (spec/20_memory.md R63). -/
def Table.write {α : Type} [DecidableEq α] (dflt : α) (size : Nat) (t : Table α) (k : Nat) (v : α) : Table α :=
  if k < size then (if v = dflt then t.erase k else t.insert k v) else t

/-- The canonical form: indices strictly rising and inside the table, no entry that reads as an unlisted one. -/
def Table.wf {α : Type} [DecidableEq α] (dflt : α) (size : Nat) (t : Table α) : Bool :=
  decide (t.Pairwise (fun x y => x.1 < y.1)) && t.all (fun e => decide (e.1 < size) && !decide (e.2 = dflt))

/-- What an unlisted `FREQ` entry reads as: 0, "absent" (spec/10_state.md R24, R51). -/
def freqUnlisted : Count := 0

/-- What an unlisted `NODE` entry reads as: DESIGN CHOICE, the spec leaves it unspecified (spec/10_state.md R28;
notes/assumptions/5.md). -/
def nodeUnlisted : NodeEntry := ⟨0, 0, 0, 0⟩

/-- What an unlisted `CODE` entry reads as: no code (spec/10_state.md R31); before the first GENCODES a DESIGN CHOICE
(notes/assumptions/6.md). -/
def codeUnlisted : CodeEntry := ⟨0, 0⟩

/-- `NODE[i]` of a given arena. -/
def readNode (t : Table NodeEntry) (i : Nat) : NodeEntry := Table.read nodeUnlisted t i

/-- `NODE[i] <- e` in a given arena. -/
def writeNode (t : Table NodeEntry) (i : Nat) (e : NodeEntry) : Table NodeEntry :=
  Table.write nodeUnlisted Config.nnodeMax t i e

/-- `FREQ[k]`. -/
def State.freqAt (s : State) (k : Nat) : Count := Table.read freqUnlisted s.freq k

/-- `FREQ[k] <- c`. -/
def State.setFreq (s : State) (k : Nat) (c : Count) : State :=
  { s with freq := Table.write freqUnlisted Config.nsym s.freq k c }

/-- `NODE[i]`. -/
def State.nodeAt (s : State) (i : Idx) : NodeEntry := readNode s.node i.toNat

/-- `CODE[k]`. -/
def State.codeAt (s : State) (k : Nat) : CodeEntry := Table.read codeUnlisted s.code k

/-- `CODE[k] <- e`. -/
def State.setCode (s : State) (k : Nat) (e : CodeEntry) : State :=
  { s with code := Table.write codeUnlisted Config.nsym s.code k e }

/-! ### How a command ends (spec/00_scope.md R14) -/

/-- One more response on `rsp`. -/
def sendResponse (r : Response) (s : State) : State := { s with rsp := s.rsp ++ [r] }

/-- `respond(v)`: the command succeeded. -/
def respond (v : Word) (s : State) : Result := .next (sendResponse ⟨false, v⟩ s)

/-- `raise E(info)`, the entry of every fault (spec/60_exceptions.md R220): `ERR` and `ERR_INFO` are recorded, nothing
else is saved, control goes nowhere, the response carries the code. -/
def raise (e : ErrCode) (info : BitVec 32) (s : State) : Result :=
  .next (sendResponse ⟨true, e.code.zeroExtend 64⟩ { s with err := e, errInfo := info })

/-- `refuse` (spec/60_exceptions.md R221): no state change, the response carries the recorded code. -/
def refuse (s : State) : Result := .next (sendResponse ⟨true, s.err.code.zeroExtend 64⟩ s)

/-- The return to the reset values, the only way out of a fault (spec/60_exceptions.md R224, spec/45_system.md R206,
spec/70_reset_and_hazards.md R245). What the host has still to send and what has left the ports is not the block's
state and stays. -/
def clearBlock (s : State) : State :=
  { State.reset with inputs := s.inputs, rsp := s.rsp, encPort := s.encPort, decPort := s.decPort }

/-! ### The common prologue (spec/60_exceptions.md R222) -/

/-- Step 1: a command other than CLEAR and GET_STATUS is refused while `ERR != 0`. -/
def unlessFaulted (body : State → Result) (s : State) : Result :=
  if s.err = .noFault then body s else refuse s

/-- Step 3: the command's Requires condition, whose failure is ERR_SEQ with the opcode. -/
def requires (ok : Bool) (op : BitVec 8) (body : State → Result) (s : State) : Result :=
  if ok then body s else raise .seq (op.zeroExtend 32) s

/-- Step 4: the index operand's range, whose failure is ERR_BAD_KEY with the operand. -/
def keyInRange (ok : Bool) (a : Idx) (body : State → Result) (s : State) : Result :=
  if ok then body s else raise .badKey (a.zeroExtend 32) s

/-! ### Output bytes (spec/10_state.md R39, R47) -/

/-- A byte output by the encoder: recorded in `ENC_OUT` and sent on `enc_out`. -/
def outputEnc (v : Byte) (s : State) : State := { s with encOut := s.encOut ++ [v], encPort := s.encPort ++ [v] }

/-- A byte output by the decoder: recorded in `DEC_OUT` and sent on `dec_out`. -/
def outputDec (v : Byte) (s : State) : State := { s with decOut := s.decOut ++ [v], decPort := s.decPort ++ [v] }

/-! ### The host's next event (spec/30_encoding.md R85) -/

/-- The host's next event and the state without it, if one waits. -/
def takeInput (s : State) : Option (HostEvent × State) :=
  match s.inputs with
  | [] => none
  | e :: rest => some (e, { s with inputs := rest })

/-- A command word presented so that it is taken next. -/
def presentWord (w : Word) (s : State) : State := { s with inputs := .cmd w :: s.inputs }

end Sys2Proof.Machine
end

