-- ==== Sys2Proof/Machine/CodeTableGen.lean ====
section
/-! DEFINITION. GENCODES, CODE_LEN and CODE_BITS (spec/42_code_table_gen.md), the unit canonical_code_table_gen.
GENCODES runs the walk with the explicit stack of R155, whose stack and path register are State's (spec/10_state.md
R34); `walk` is the recursive form of R150, the normative one, for statements that the two write the same table. -/

namespace Sys2Proof.Machine

/-- One turn of the loop of R155: pop, then skip an absent node, record a leaf, or push the two children. -/
def walkStep (s : State) : State :=
  match s.walkStack with
  | [] => s
  | (n, p) :: rest =>
    let e := s.nodeAt n
    if n = Config.nullIdx then { s with walkStack := rest, walkPath := p }
    else if e.sym ≠ Config.internalSym then
      State.setCode { s with walkStack := rest, walkPath := p } e.sym.toNat (storePath p)
    else { s with walkStack := (e.zero, p ++ [false]) :: (e.one, p ++ [true]) :: rest, walkPath := p }

/-- The loop of R155, at most `fuel` turns (notes/assumptions/9.md). -/
def walkLoop : Nat → State → State
  | 0, s => s
  | fuel + 1, s =>
    match s.walkStack with
    | [] => s
    | _ :: _ => walkLoop fuel (walkStep s)

/-- `for s in 0..256: CODE[s] <- {len = 0, bits = 0}` (R150). -/
def clearCodes (s : State) : State := { s with code := [] }

/-- The body of GENCODES (R150, R155). -/
def generateCodes (s : State) : State :=
  let s1 := clearCodes { s with encState := .idle }
  let s2 := walkLoop Config.walkFuel { s1 with walkStack := [(s.root, [])], walkPath := [] }
  { s2 with walkStack := [], walkPath := [], codesValid := true }

/-- GENCODES (R150). -/
def execGencodes (s : State) : Result :=
  unlessFaulted (requires s.treeValid 0x30 (fun s => respond 0 (generateCodes s))) s

/-- `walk(n, p)` of R150 into a code table, to at most `fuel` levels. -/
def walk (t : Table NodeEntry) : Nat → Idx → List Bool → Table CodeEntry → Table CodeEntry
  | 0, _, _, code => code
  | fuel + 1, n, p, code =>
    let e := readNode t n.toNat
    if n = Config.nullIdx then code
    else if e.sym ≠ Config.internalSym then Table.write codeUnlisted Config.nsym code e.sym.toNat (storePath p)
    else walk t fuel e.one (p ++ [true]) (walk t fuel e.zero (p ++ [false]) code)

/-- CODE_LEN (R158). -/
def execCodeLen (a : Idx) (s : State) : Result :=
  unlessFaulted (requires s.codesValid 0x31 (keyInRange (symInRange a) a
    (fun s => respond ((s.codeAt a.toNat).len.zeroExtend 64) s))) s

/-- CODE_BITS (R159). -/
def execCodeBits (a : Idx) (k : BitVec 3) (s : State) : Result :=
  unlessFaulted (requires s.codesValid 0x32 (keyInRange (symInRange a) a
    (fun s => respond ((selectChunk (s.codeAt a.toNat).bits k).zeroExtend 64) s))) s

end Sys2Proof.Machine
end

