-- ==== Sys2Proof/Machine/Decoder.lean ====
section
/-! DEFINITION. DEC_START, DEC_BIT, DEC_BYTE and DEC_EOD (spec/44_decoder.md), the unit bitstream_decoder. -/

namespace Sys2Proof.Machine

/-- The child that bit `b` moves to (R190). -/
def childOf (e : NodeEntry) (b : Bool) : Idx := if b then e.one else e.zero

/-- The arrival at node `nxt`: an internal node keeps the pointer there, the end-of-stream leaf ends the run, a literal
is output and the pointer returns to the root (R190). -/
def arriveAt (nxt : Idx) (s : State) : State :=
  let e := s.nodeAt nxt
  if e.sym = Config.internalSym then { s with decPtr := nxt }
  else if e.sym = Config.eofSym then { s with decPtr := nxt, decState := .done }
  else { outputDec (e.sym.truncate 8) s with decPtr := s.root }

/-- `dec_step(b)` (R190); `none` where the child is absent, which raises ERR_BAD_PATH with nothing changed. -/
def decStep (b : Bool) (s : State) : Option State :=
  let nxt := childOf (s.nodeAt s.decPtr) b
  if nxt = Config.nullIdx then none else some (arriveAt nxt s)

/-- One bit delivered: interpreted in state RUN, discarded in state DONE (R189, R191, R192). -/
def deliver (b : Bool) (s : State) : Option State :=
  if s.decState = .run then decStep b s else some s

/-- How a sequence of delivered bits ends. -/
inductive FeedEnd where
  /-- Every bit was delivered. -/
  | fed (s : State)
  /-- Bit `b` had no child to move to; the bits before it took effect (R192). -/
  | absent (b : Bool) (s : State)
deriving DecidableEq, Repr

/-- Bits delivered in order; an absent child ends it at once (R192). -/
def feedBits : List Bool → State → FeedEnd
  | [], s => .fed s
  | b :: bs, s =>
    match deliver b s with
    | none => .absent b s
    | some s' => feedBits bs s'

/-- The fault of an absent child: the detail is the bit (spec/60_exceptions.md R216). -/
def raiseBadPath (b : Bool) (s : State) : Result := raise .badPath ((BitVec.ofBool b).zeroExtend 32) s

/-- DEC_START (R188). -/
def execDecStart (s : State) : Result :=
  unlessFaulted (requires s.treeValid 0x50 (fun s => respond 0
    { s with decState := .run, decPtr := s.root, decOut := [] })) s

/-- DEC_BIT (R189). -/
def execDecBit (b : Bool) (s : State) : Result :=
  unlessFaulted (requires (s.decState != .idle) 0x51 (fun s =>
    match deliver b s with
    | none => raiseBadPath b s
    | some s' => respond 0 s')) s

/-- DEC_BYTE: eight bits, most significant first (R192). -/
def execDecByte (v : Byte) (s : State) : Result :=
  unlessFaulted (requires (s.decState != .idle) 0x52 (fun s =>
    match feedBits (byteBits v) s with
    | .absent b s' => raiseBadPath b s'
    | .fed s' => respond 0 s')) s

/-- DEC_EOD: in RUN the data ended too early, ERR_TRUNC with `DEC_PTR` (R194). -/
def execDecEod (s : State) : Result :=
  unlessFaulted (requires (s.decState != .idle) 0x53 (fun s =>
    if s.decState = .run then raise .trunc (s.decPtr.zeroExtend 32) s else respond 0 s)) s

end Sys2Proof.Machine
end

