-- ==== Sys2Proof/Machine/Encoder.lean ====
section
/-! DEFINITION. ENC_START, ENC_SYM, ENC_END and GET_BITCNT (spec/43_encoder.md), the unit bitstream_encoder. -/

namespace Sys2Proof.Machine

/-- The bit is recorded and counted, dry run or not (R168). -/
def countBit (b : Bool) (s : State) : State :=
  { s with encTrace := s.encTrace ++ [b], encBitcnt := s.encBitcnt + 1 }

/-- `((ENC_ACC << 1) OR b)[7:0]` (R168). -/
def shiftIn (acc : Byte) (b : Bool) : Byte := (acc <<< 1) ||| (BitVec.ofBool b).zeroExtend 8

/-- The bit enters the packer; the eighth outputs a byte (R168). -/
def packBit (b : Bool) (s : State) : State :=
  if s.encNbits = 7 then
    { outputEnc (shiftIn s.encAcc b) s with encAcc := 0, encNbits := 0 }
  else { s with encAcc := shiftIn s.encAcc b, encNbits := s.encNbits + 1 }

/-- `put_bit(b)` (R168). -/
def putBit (s : State) (b : Bool) : State :=
  if s.encDry then countBit b s else packBit b (countBit b s)

/-- `emit_code(s)`: each path bit, the first one first (R167). -/
def emitCode (k : Nat) (s : State) : State := (codePath (s.codeAt k)).foldl putBit s

/-- `flush()`: the last byte is completed with pad bits of value 0 (R171). -/
def flush (s : State) : State :=
  let s1 := if s.encDry = false ∧ s.encNbits ≠ 0 then outputEnc (s.encAcc <<< (8 - s.encNbits.toNat)) s else s
  { s1 with encAcc := 0, encNbits := 0 }

/-- ENC_SYM and ENC_END fault with ERR_NO_CODE, before any bit is emitted, on a symbol that has no code (R170). -/
def needsCode (k : Nat) (body : State → Result) (s : State) : Result :=
  if (s.codeAt k).len = 0 then raise .noCode (BitVec.ofNat 32 k) s else body s

/-- ENC_START (R166). -/
def execEncStart (dry : Bool) (s : State) : Result :=
  unlessFaulted (requires s.codesValid 0x40 (fun s => respond 0
    { s with encState := .run, encDry := dry, encAcc := 0, encNbits := 0, encBitcnt := 0, encOut := []
             encTrace := [] })) s

/-- ENC_SYM (R169). -/
def execEncSym (b : Byte) (s : State) : Result :=
  unlessFaulted (requires (s.encState == .run) 0x41
    (needsCode b.toNat (fun s => respond 0 (emitCode b.toNat s)))) s

/-- ENC_END (R172). -/
def execEncEnd (s : State) : Result :=
  unlessFaulted (requires (s.encState == .run) 0x42
    (needsCode Config.eofSym.toNat (fun s => respond 0
      { flush (emitCode Config.eofSym.toNat s) with encState := .done }))) s

/-- GET_BITCNT (R174). -/
def execGetBitcnt (s : State) : Result := unlessFaulted (fun s => respond s.encBitcnt s) s

end Sys2Proof.Machine
end

