-- ==== Sys2Proof/Machine/FreqTable.lean ====
section
/-! DEFINITION. FREQ_PUT and FREQ_GET (spec/40_freq_table.md). -/

namespace Sys2Proof.Machine

/-- FREQ_PUT (spec/40_freq_table.md R121). -/
def execFreqPut (a : Idx) (d : Count) (s : State) : Result :=
  unlessFaulted (keyInRange (symInRange a) a (fun s => respond 0 (s.setFreq a.toNat d))) s

/-- FREQ_GET (spec/40_freq_table.md R122). -/
def execFreqGet (a : Idx) (s : State) : Result :=
  unlessFaulted (keyInRange (symInRange a) a (fun s => respond ((s.freqAt a.toNat).zeroExtend 64) s)) s

end Sys2Proof.Machine
end

