-- ==== Sys2Proof/Machine/System.lean ====
section
/-! DEFINITION. CLEAR, GET_STATUS (spec/45_system.md), the illegal word (spec/30_encoding.md R90) and the `rst` input
(spec/70_reset_and_hazards.md R245). -/

namespace Sys2Proof.Machine

/-- CLEAR (spec/45_system.md R206); it runs also while `ERR != 0`. -/
def execClear (s : State) : Result := respond 0 (clearBlock s)

/-- GET_STATUS: `respond(ERR_INFO ++ STATUS)` (spec/45_system.md R207); it runs also while `ERR != 0`. -/
def execGetStatus (s : State) : Result := respond (s.errInfo ++ s.status) s

/-- A word that is no command: ERR_ILLEGAL_CMD with `w[63:32]`, refused while `ERR != 0` (spec/30_encoding.md R90,
spec/60_exceptions.md R222). -/
def execIllegal (w : Word) (s : State) : Result :=
  unlessFaulted (raise .illegalCmd (w.extractLsb' 32 32)) s

/-- A pulse of `rst`: the reset values, and no response (spec/70_reset_and_hazards.md R245). -/
def hardwareReset (s : State) : Result := .next (clearBlock s)

end Sys2Proof.Machine
end

