-- ==== Sys2Proof/Machine/TreeBuilder.lean ====
section
/-! DEFINITION. BUILD, NODE_GET and RELEASE (spec/41_tree_builder.md), the unit huffman_tree_builder. -/

namespace Sys2Proof.Machine

/-- What BUILD works on: the arena, the priority collection, and `n`, the next free index (R130). -/
structure BuildWork where
  node : Table NodeEntry
  pq   : List Nat
  n    : Nat
deriving DecidableEq, Repr

/-- How the merge loop of BUILD ends (R130 step 4). -/
inductive MergeEnd where
  /-- One node is left. -/
  | tree (w : BuildWork)
  /-- A sum reached 2^32; `w.n` is the index the new node would have had (R137). -/
  | overflow (w : BuildWork)
deriving DecidableEq, Repr

/-- The leaf of a symbol (R131). -/
def leafNode (sym : Nat) (c : Count) : NodeEntry := ⟨BitVec.ofNat 9 sym, c, Config.nullIdx, Config.nullIdx⟩

/-- An internal node (R135). -/
def innerNode (c : Nat) (zero one : Idx) : NodeEntry := ⟨Config.internalSym, BitVec.ofNat 32 c, zero, one⟩

/-- The node takes the next free index and enters `PQ` (R131, R135). -/
def BuildWork.add (w : BuildWork) (e : NodeEntry) : BuildWork :=
  ⟨writeNode w.node w.n e, w.pq ++ [w.n], w.n + 1⟩

/-- Step 1 of R130 for one symbol. -/
def addLeaf (freq : Table Count) (w : BuildWork) (sym : Nat) : BuildWork :=
  let c := Table.read freqUnlisted freq sym
  if c = 0 then w else w.add (leafNode sym c)

/-- Step 1 of R130: one leaf per map entry, ascending symbol order (R131). -/
def makeLeaves (freq : Table Count) (w : BuildWork) : BuildWork :=
  (List.range Config.nsym).foldl (addLeaf freq) w

/-- The count of node `i`, as a number. -/
def countOf (t : Table NodeEntry) (i : Nat) : Nat := (readNode t i).count.toNat

/-- The key `(NODE[i].count, i)` is below that of `j` (R133). -/
def keyBelow (t : Table NodeEntry) (i j : Nat) : Bool :=
  decide (countOf t i < countOf t j) || (decide (countOf t i = countOf t j) && decide (i < j))

/-- `argmin_{i in PQ} (NODE[i].count, i)` (R133, spec/00_scope.md R15). -/
def argMin (t : Table NodeEntry) : List Nat → Option Nat
  | [] => none
  | i :: is =>
    match argMin t is with
    | none => some i
    | some j => if keyBelow t j i then some j else some i

/-- Step 3 of R130: a synthesised root over the only leaf (R134). -/
def synthesiseRoot (w : BuildWork) : BuildWork :=
  ⟨writeNode w.node 1 ⟨Config.internalSym, (readNode w.node 0).count, 0, Config.nullIdx⟩, [1], 2⟩

/-- Step 4 of R130, at most `fuel` merges; each takes two members of `PQ` and adds one, so `|PQ|` bounds them. -/
def mergeLoop : Nat → BuildWork → MergeEnd
  | 0, w => .tree w
  | fuel + 1, w =>
    match argMin w.node w.pq with
    | none => .tree w
    | some x =>
      let rest := w.pq.erase x
      match argMin w.node rest with
      | none => .tree w
      | some y =>
        let c := countOf w.node x + countOf w.node y
        if 2 ^ 32 ≤ c then .overflow { w with pq := [] }
        else mergeLoop fuel
          (BuildWork.add { w with pq := rest.erase y } (innerNode c (BitVec.ofNat 10 x) (BitVec.ofNat 10 y)))

/-- Steps 3 and 4 of R130. -/
def mergeAll (w : BuildWork) : MergeEnd :=
  let w := if w.n = 1 then synthesiseRoot w else w
  mergeLoop w.pq.length w

/-- Step 0 of R130: everything derived from an older tree is dropped. -/
def dropDerived (s : State) : State :=
  { s with codesValid := false, encState := .idle, decState := .idle, decPtr := Config.nullIdx
           treeValid := false, nnodes := 0, root := Config.nullIdx, pq := [] }

/-- Step 5 of R130: the one node left is the root. -/
def installTree (w : BuildWork) (s : State) : State :=
  { s with node := w.node, pq := [], root := BitVec.ofNat 10 (w.pq.headD 0), nnodes := BitVec.ofNat 10 w.n
           treeValid := true }

/-- Steps 1 to 5 of R130. -/
def buildTree (s : State) : Result :=
  let w := makeLeaves s.freq ⟨s.node, s.pq, 0⟩
  if w.n = 0 then raise .freqEmpty 0 s
  else match mergeAll w with
    | .overflow w' => raise .countOvf (BitVec.ofNat 32 w'.n) { s with node := w'.node, pq := w'.pq }
    | .tree w' => respond 0 (installTree w' s)

/-- BUILD (R130). -/
def execBuild (s : State) : Result := unlessFaulted (fun s => buildTree (dropDerived s)) s

/-- NODE_GET (R141). -/
def execNodeGet (a : Idx) (f : NodeField) (s : State) : Result :=
  unlessFaulted (requires s.treeValid 0x21 (keyInRange (nodeInRange a s.nnodes) a
    (fun s => respond (selectField (s.nodeAt a) f) s))) s

/-- RELEASE (R142). -/
def execRelease (s : State) : Result :=
  unlessFaulted (fun s => respond 0
    { s with treeValid := false, nnodes := 0, root := Config.nullIdx, decState := .idle, decPtr := Config.nullIdx }) s

end Sys2Proof.Machine
end

