-- ==== Sys2Proof/Machine/Dispatch.lean ====
section
/-! DEFINITION. One arm per command: its meaning (spec/30_encoding.md R89). -/

namespace Sys2Proof.Machine

def exec (i : Instr) (s : State) : Host.Outcome State Fault Refusal :=
  match i with
  | .clear => Sys2Proof.Machine.execClear s
  | .getStatus => Sys2Proof.Machine.execGetStatus s
  | .freqPut a d => Sys2Proof.Machine.execFreqPut a d s
  | .freqGet a => Sys2Proof.Machine.execFreqGet a s
  | .build => Sys2Proof.Machine.execBuild s
  | .nodeGet a f => Sys2Proof.Machine.execNodeGet a f s
  | .release => Sys2Proof.Machine.execRelease s
  | .gencodes => Sys2Proof.Machine.execGencodes s
  | .codeLen a => Sys2Proof.Machine.execCodeLen a s
  | .codeBits a k => Sys2Proof.Machine.execCodeBits a k s
  | .encStart dry => Sys2Proof.Machine.execEncStart dry s
  | .encSym b => Sys2Proof.Machine.execEncSym b s
  | .encEnd => Sys2Proof.Machine.execEncEnd s
  | .getBitcnt => Sys2Proof.Machine.execGetBitcnt s
  | .decStart => Sys2Proof.Machine.execDecStart s
  | .decBit b => Sys2Proof.Machine.execDecBit b s
  | .decByte v => Sys2Proof.Machine.execDecByte v s
  | .decEod => Sys2Proof.Machine.execDecEod s

end Sys2Proof.Machine
end

