-- ==== Sys2Proof/Machine/Step.lean ====
section
/-! DEFINITION. One step: the host's next event (spec/00_scope.md R9, spec/30_encoding.md R85). There is no program
counter and nothing is fetched (spec/10_state.md R22): the host presents command words one at a time. -/

namespace Sys2Proof.Machine

/-- One command word, the whole of `exec(w)` in spec/60_exceptions.md R222. -/
def runWord (w : Word) (s : State) : Host.Outcome State Fault Refusal :=
  match decode w with
  | .cmd i => exec i s
  | .illegal _ => execIllegal w s

/-- One step: the next command word runs; a pulse of `rst` resets; with no event waiting nothing is executed
(spec/70_reset_and_hazards.md R245; notes/assumptions/2.md). -/
def step (s : State) : Host.Outcome State Fault Refusal :=
  match takeInput s with
  | none => .next s
  | some (.rst, s') => hardwareReset s'
  | some (.cmd w, s') => runWord w s'

/-- `s` with the command word `w` presented to be taken next (notes/assumptions/1.md). -/
def State.withFetchWord (s : State) (nbits w : Nat) : State := presentWord (BitVec.ofNat 64 (w % 2 ^ nbits)) s

end Sys2Proof.Machine
end

