-- ==== Sys2Proof/Safety.lean ====
section
/-! DEFINITION. The terms claims use: the reset values of spec/10_state.md R51, the tree of R27, the laws of a code
table (spec/42_code_table_gen.md R154), the readings of the packer, and the invariant `Inv` that every step keeps.
Nothing here is used by the machine. -/

namespace Sys2Proof.Machine

/-! ### Runs -/

/-- The state after a list of commands, none of which stops the machine. -/
def runCommands : List Instr → State → Option State
  | [], s => some s
  | i :: is, s =>
    match exec i s with
    | .next t => runCommands is t
    | .fault _ => none
    | .refused _ => none

/-! ### Reset values -/

/-- The table of spec/10_state.md R51; `NODE` and `CODE` are unspecified there and are not named here. -/
structure HasResetValues (s : State) : Prop where
  freq : ∀ k < Config.nsym, s.freqAt k = 0
  nnodes : s.nnodes = 0
  root : s.root = 0x3FF
  treeValid : s.treeValid = false
  pq : s.pq = []
  codesValid : s.codesValid = false
  walkStack : s.walkStack = []
  walkPath : s.walkPath = []
  encState : s.encState = .idle
  encDry : s.encDry = false
  encAcc : s.encAcc = 0
  encNbits : s.encNbits = 0
  encBitcnt : s.encBitcnt = 0
  encOut : s.encOut = []
  encTrace : s.encTrace = []
  decState : s.decState = .idle
  decPtr : s.decPtr = 0x3FF
  decOut : s.decOut = []
  err : s.err = .noFault
  errInfo : s.errInfo = 0

/-! ### Tables of the spec, by command -/

/-- `data` of a successful response (spec/30_encoding.md R93). -/
def resultData (i : Instr) (s : State) : Word :=
  match i with
  | .freqGet a => (s.freqAt a.toNat).zeroExtend 64
  | .nodeGet a .sym => (s.nodeAt a).sym.zeroExtend 64
  | .nodeGet a .count => (s.nodeAt a).count.zeroExtend 64
  | .nodeGet a .zero => (s.nodeAt a).zero.zeroExtend 64
  | .nodeGet a .one => (s.nodeAt a).one.zeroExtend 64
  | .codeLen a => (s.codeAt a.toNat).len.zeroExtend 64
  | .codeBits a k => ((s.codeAt a.toNat).bits.extractLsb' (224 - 32 * k.toNat) 32).zeroExtend 64
  | .getBitcnt => s.encBitcnt
  | .getStatus => s.errInfo ++ s.status
  | .clear | .freqPut _ _ | .build | .release | .gencodes | .encStart _ | .encSym _ | .encEnd | .decStart | .decBit _
  | .decByte _ | .decEod => 0

/-- The Requires condition of a command: the column "ERR_SEQ when" of spec/60_exceptions.md R236, negated. -/
def requiresHolds (i : Instr) (s : State) : Bool :=
  match i with
  | .nodeGet _ _ | .gencodes | .decStart => s.treeValid
  | .codeLen _ | .codeBits _ _ | .encStart _ => s.codesValid
  | .encSym _ | .encEnd => s.encState == .run
  | .decBit _ | .decByte _ | .decEod => s.decState != .idle
  | .clear | .getStatus | .freqPut _ _ | .freqGet _ | .build | .release | .getBitcnt => true

/-- The index operand of a command that has one is in range: the column "ERR_BAD_KEY when" of
spec/60_exceptions.md R236, negated. -/
def indexInRange (i : Instr) (s : State) : Bool :=
  match i with
  | .freqPut a _ | .freqGet a | .codeLen a | .codeBits a _ => decide (a.toNat ≤ 256)
  | .nodeGet a _ => decide (a.toNat < s.nnodes.toNat)
  | .clear | .getStatus | .build | .release | .gencodes | .encStart _ | .encSym _ | .encEnd | .getBitcnt | .decStart
  | .decBit _ | .decByte _ | .decEod => true

/-- The faults a command can raise (spec/60_exceptions.md R236). -/
def faultsOf : Instr → List ErrCode
  | .clear | .getStatus | .getBitcnt | .release => []
  | .freqPut _ _ | .freqGet _ => [.badKey]
  | .build => [.freqEmpty, .countOvf]
  | .nodeGet _ _ => [.seq, .badKey]
  | .gencodes => [.seq]
  | .codeLen _ | .codeBits _ _ => [.seq, .badKey]
  | .encStart _ => [.seq]
  | .encSym _ | .encEnd => [.seq, .noCode]
  | .decStart => [.seq]
  | .decBit _ | .decByte _ => [.seq, .badPath]
  | .decEod => [.seq, .trunc]

/-- A command that only reads (spec/20_memory.md R65). -/
def isRead : Instr → Bool
  | .freqGet _ | .nodeGet _ _ | .codeLen _ | .codeBits _ _ | .getBitcnt | .getStatus => true
  | .clear | .freqPut _ _ | .build | .release | .gencodes | .encStart _ | .encSym _ | .encEnd | .decStart | .decBit _
  | .decByte _ | .decEod => false

/-- A command of the encoder (spec/43_encoder.md). -/
def isEncoder : Instr → Bool
  | .encStart _ | .encSym _ | .encEnd | .getBitcnt => true
  | .clear | .getStatus | .freqPut _ _ | .freqGet _ | .build | .nodeGet _ _ | .release | .gencodes | .codeLen _
  | .codeBits _ _ | .decStart | .decBit _ | .decByte _ | .decEod => false

/-- A command of the decoder (spec/44_decoder.md). -/
def isDecoder : Instr → Bool
  | .decStart | .decBit _ | .decByte _ | .decEod => true
  | .clear | .getStatus | .freqPut _ _ | .freqGet _ | .build | .nodeGet _ _ | .release | .gencodes | .codeLen _
  | .codeBits _ _ | .encStart _ | .encSym _ | .encEnd | .getBitcnt => false

/-! ### The frequency map -/

/-- `keys()`: the symbols present, ascending (spec/10_state.md R24). -/
def presentKeys (s : State) : List Nat := (List.range Config.nsym).filter (fun k => s.freqAt k ≠ 0)

/-- The sum of all counts. -/
def totalCount (s : State) : Nat := ((List.range Config.nsym).map (fun k => (s.freqAt k).toNat)).sum

/-! ### The tree (spec/10_state.md R27) -/

/-- The number `L` of leaves among the first `n` entries. -/
def leafCount (t : Table NodeEntry) (n : Nat) : Nat :=
  ((List.range n).filter (fun i => (readNode t i).sym ≠ Config.internalSym)).length

/-- The children of the internal nodes `L` to `n - 1`, absent ones left out. -/
def childSlots (t : Table NodeEntry) (l n : Nat) : List Nat :=
  ((List.range n).drop l).flatMap (fun i =>
    (readNode t i).zero.toNat :: (if (readNode t i).one = Config.nullIdx then [] else [(readNode t i).one.toNat]))

/-- The six items of spec/10_state.md R27, for an arena of `n` entries. -/
structure TreeShape (t : Table NodeEntry) (n : Nat) (root : Idx) : Prop where
  /-- There is a leaf, so `L >= 1`. -/
  some_leaf : 1 ≤ leafCount t n
  /-- Item 1: entries 0 to L-1 are the leaves. -/
  leaves_first : ∀ i < n, ((readNode t i).sym ≠ Config.internalSym ↔ i < leafCount t n)
  /-- A leaf holds a symbol 0 to 256, a positive count, and no child (R26). -/
  leaf_form : ∀ i < leafCount t n, (readNode t i).sym.toNat < Config.nsym ∧ (readNode t i).count ≠ 0 ∧
    (readNode t i).zero = Config.nullIdx ∧ (readNode t i).one = Config.nullIdx
  /-- Item 1: in strictly ascending symbol order. -/
  leaves_ascending : ∀ i < leafCount t n - 1, (readNode t i).sym < (readNode t (i + 1)).sym
  /-- Item 2: children come before their parent. -/
  children_below : ∀ i < n, leafCount t n ≤ i → (readNode t i).zero.toNat < i ∧
    ((readNode t i).one = Config.nullIdx ∨ (readNode t i).one.toNat < i)
  /-- Item 3. -/
  many_leaves : 2 ≤ leafCount t n → n = 2 * leafCount t n - 1 ∧ ∀ i < n, leafCount t n ≤ i →
    (readNode t i).one ≠ Config.nullIdx ∧
    countOf t i = countOf t (readNode t i).zero.toNat + countOf t (readNode t i).one.toNat
  /-- Item 4. -/
  one_leaf : leafCount t n = 1 → n = 2 ∧ readNode t 1 = ⟨Config.internalSym, (readNode t 0).count, 0, Config.nullIdx⟩
  /-- Item 5: every index below the root's is a child exactly once. -/
  owned_once : (childSlots t (leafCount t n) n).Perm (List.range (n - 1))
  /-- Item 5: the root is the last entry. -/
  root_last : root.toNat + 1 = n
  /-- Item 6. -/
  root_internal : (readNode t root.toNat).sym = Config.internalSym

/-- The members of `PQ` when internal node `i` is made: the indices below `i` that no earlier internal node owns. -/
def freeBefore (t : Table NodeEntry) (l i : Nat) : List Nat :=
  (List.range i).filter (fun j => decide (j ∉ childSlots t l i))

/-- Where a path leads from node `n`: `none` where it runs through an absent child or past a leaf. -/
def follow (t : Table NodeEntry) : Idx → List Bool → Option Idx
  | n, [] => if n = Config.nullIdx then none else some n
  | n, b :: p =>
    if n = Config.nullIdx then none
    else if (readNode t n.toNat).sym ≠ Config.internalSym then none
    else follow t (childOf (readNode t n.toNat) b) p

/-! ### The code table (spec/10_state.md R31, R32; spec/42_code_table_gen.md R154) -/

/-- The code of symbol `k` as a path. -/
def State.pathOf (s : State) (k : Nat) : List Bool := codePath (s.codeAt k)

/-- Symbol `k` has a code. -/
abbrev State.hasCode (s : State) (k : Nat) : Prop := (s.codeAt k).len ≠ 0

/-- Every entry is the left-aligned store of a path of at most 256 bits (R31, R32). -/
abbrev CodesLeftAligned (s : State) : Prop :=
  ∀ k < Config.nsym, (s.codeAt k).len.toNat ≤ Config.maxLen ∧ storePath (s.pathOf k) = s.codeAt k

/-- The symbols that have a code, ascending. -/
def codedSymbols (s : State) : List Nat := (List.range Config.nsym).filter (fun k => s.hasCode k)

/-- "for all pairs of distinct symbols in a built CodeTable, neither code is a prefix of the other"
(spec/42_code_table_gen.md R154 item 1). -/
abbrev CodesPrefixFree (s : State) : Prop :=
  ∀ j ∈ codedSymbols s, ∀ k ∈ codedSymbols s, j ≠ k → ¬ (s.pathOf j <+: s.pathOf k)

/-- Each leaf's code is its path from the root, and only leaves have codes (spec/42_code_table_gen.md R154 item 2,
spec/10_state.md R31). -/
abbrev CodesMatchTree (s : State) : Prop :=
  (∀ i < leafCount s.node s.nnodes.toNat, s.hasCode (readNode s.node i).sym.toNat ∧
    follow s.node s.root (s.pathOf (readNode s.node i).sym.toNat) = some (BitVec.ofNat 10 i)) ∧
  (∀ k < Config.nsym, s.hasCode k →
    ∃ i, i < leafCount s.node s.nnodes.toNat ∧ (readNode s.node i).sym.toNat = k)

/-! ### The packer (spec/10_state.md R37, spec/20_memory.md R62) -/

/-- The bits of a byte sequence in time order (spec/20_memory.md R62, R64). -/
def bitsOf (out : List Byte) : List Bool := out.flatMap byteBits

/-- The bits collected since the last byte was output, oldest first: `ENC_ACC[ENC_NBITS-1:0]` (R37). -/
def pendingBits (s : State) : List Bool :=
  (List.range s.encNbits.toNat).map (fun i => s.encAcc.getLsbD (s.encNbits.toNat - 1 - i))

/-- The bytes output so far and the pending bits are the trace, then fewer than 8 pad bits of value 0, and none while
the run is open (spec/43_encoder.md R173). -/
abbrev PackedTrace (s : State) : Prop :=
  ∃ k, k < 8 ∧ bitsOf s.encOut ++ pendingBits s = s.encTrace ++ List.replicate k false ∧ (s.encState = .run → k = 0)

/-! ### The invariant -/

/-- What every step keeps. -/
structure Inv (s : State) : Prop where
  /-- The three table memories are in canonical form. -/
  freq_wf : Table.wf freqUnlisted Config.nsym s.freq = true
  node_wf : Table.wf nodeUnlisted Config.nnodeMax s.node = true
  code_wf : Table.wf codeUnlisted Config.nsym s.code = true
  /-- The hidden working state is empty between commands (spec/10_state.md R30, R34). -/
  hidden_empty : s.pq = [] ∧ s.walkStack = [] ∧ s.walkPath = []
  /-- spec/10_state.md R28. -/
  no_tree : s.treeValid = false → s.nnodes = 0 ∧ s.root = Config.nullIdx
  /-- spec/10_state.md R27. -/
  tree : s.treeValid = true → TreeShape s.node s.nnodes.toNat s.root
  /-- spec/10_state.md R31, R32. -/
  codes_aligned : s.codesValid = true → CodesLeftAligned s
  /-- spec/42_code_table_gen.md R154. -/
  codes_prefix_free : s.codesValid = true → CodesPrefixFree s
  /-- spec/20_memory.md R72 item 2. -/
  codes_match : s.codesValid = true → s.treeValid = true → CodesMatchTree s
  /-- spec/20_memory.md R72 item 3. -/
  enc_has_codes : s.encState ≠ .idle → s.codesValid = true
  /-- spec/10_state.md R37. -/
  enc_acc : s.encAcc.toNat < 2 ^ s.encNbits.toNat
  enc_dry : s.encDry = true → s.encAcc = 0 ∧ s.encNbits = 0 ∧ s.encOut = []
  enc_done : s.encState = .done → s.encAcc = 0 ∧ s.encNbits = 0
  /-- spec/10_state.md R41. -/
  enc_count : s.encBitcnt = BitVec.ofNat 64 s.encTrace.length
  /-- spec/43_encoder.md R173 item 3. -/
  enc_packed : s.encDry = false → PackedTrace s
  /-- spec/10_state.md R43. -/
  dec_idle : s.decState = .idle → s.decPtr = Config.nullIdx
  dec_run : s.decState = .run → s.treeValid = true ∧ s.decPtr.toNat < s.nnodes.toNat ∧
    (s.nodeAt s.decPtr).sym = Config.internalSym
  dec_done : s.decState = .done → s.treeValid = true ∧ s.decPtr.toNat < s.nnodes.toNat ∧
    (s.nodeAt s.decPtr).sym = Config.eofSym
  /-- spec/60_exceptions.md R216: with no fault the detail is 0. -/
  no_detail : s.err = .noFault → s.errInfo = 0
  /-- The records are the tail of what left the ports (spec/45_system.md R206). -/
  enc_port : s.encOut <:+ s.encPort
  dec_port : s.decOut <:+ s.decPort

end Sys2Proof.Machine
end

