-- ==== Sys2Proof/Certificates/Slice0/Obligations.lean ====
section
/-! DEFINITION. The statements for the provers, in the order of spec/: encoding, step, faults, system, frequency table,
tree builder, code table generator, encoder, decoder, and the rules about the whole block. -/

open Sys2Proof Sys2Proof.Machine

/-! ### Encoding (spec/30_encoding.md) -/

/-- spec/30_encoding.md R100's words with their encodings, and one word more of each unit, read by the decoder. -/
def Obligations.DecodesWrittenOutWords : Prop :=
  decode 0x1000006100000003 = .cmd (.freqPut 97 3) ∧
  decode 0x1000010000000001 = .cmd (.freqPut 256 1) ∧
  decode 0x2100000600000002 = .cmd (.nodeGet 6 .zero) ∧
  decode 0x3200006300000000 = .cmd (.codeBits 99 0) ∧
  decode 0x4000000000000000 = .cmd (.encStart false) ∧
  decode 0x4100000000000062 = .cmd (.encSym 98) ∧
  decode 0x52000000000000B8 = .cmd (.decByte 0xB8) ∧
  decode 0x0100000000000000 = .cmd .clear ∧
  decode 0x0000000000000000 = .illegal .unknownOpcode ∧
  decode 0x0100000000000001 = .illegal .mustBeZero

/-- Decoding the word of any command gives the command back, with every operand at every value (R86 to R89). -/
def Obligations.DecodeInvertsEncode : Prop :=
  ∀ i : Instr, decode (encode i) = .cmd i

/-- Each command has one word: a word that decodes to a command is that command's encoding (R87, R88). -/
def Obligations.EncodeInvertsDecode : Prop :=
  ∀ (w : Word) (i : Instr), decode w = .cmd i → encode i = w

/-- spec/30_encoding.md R87: a word is a command exactly if it meets R87's requirements (`CmdFields.wellFormed`, written
without the masks of R88), and its operands are the fields `a` and `d` as they stand, unsigned and unscaled; no range
of `a` is part of the encoding. -/
def Obligations.WellFormedFieldsDecodeToTheirOperands : Prop :=
  ∀ w : Word,
    ((∃ i, decode w = .cmd i) ↔ (fieldsOf w).wellFormed = true) ∧
    ∀ i, decode w = .cmd i → i.opcode = opField w ∧ i.aOperand = aField w ∧ i.dOperand = dField w

/-- spec/30_encoding.md R90: which words are illegal, that 238 values of `op` are, and what executing one does. -/
def Obligations.IllegalWordsFault : Prop :=
  (∀ w : Word, (∃ why, decode w = .illegal why) ↔ (fieldsOf w).wellFormed = false) ∧
  ((List.range 256).filter (fun op => (operandUse (BitVec.ofNat 8 op)).isNone)).length = 238 ∧
  ∀ (w : Word) (why : IllegalReason) (s : State), decode w = .illegal why →
    (s.err = .noFault → runWord w s = .next { s with
      err := .illegalCmd, errInfo := w.extractLsb' 32 32, rsp := s.rsp ++ [⟨true, 1⟩] }) ∧
    (s.err ≠ .noFault → runWord w s = .next { s with rsp := s.rsp ++ [⟨true, s.err.code.zeroExtend 64⟩] })

/-! ### One step (spec/00_scope.md R9, spec/30_encoding.md R85, R93) -/

/-- When the host's next event is a command word that decodes to `i`, a step is `exec i` on the state with that event
taken; a word that is no command runs as `runWord` has it (`Obligations.IllegalWordsFault`). The queue of host events is
the model's own (notes/assumptions/1.md). -/
def Obligations.StepRunsTheDecodedCommand : Prop :=
  ∀ (s : State) (w : Word) (rest : List HostEvent), s.inputs = .cmd w :: rest →
    (∀ i : Instr, decode w = .cmd i → step s = exec i { s with inputs := rest }) ∧
    step s = runWord w { s with inputs := rest }

/-- With no event waiting a step changes nothing ("it executes nothing until the first command arrives",
spec/70_reset_and_hazards.md R245; that a step may be taken then is the model's choice, notes/assumptions/2.md); a pulse
of `rst` gives every element its reset value, sends no response, and leaves what has left the ports and what the host
has still to send (notes/assumptions/3.md, notes/assumptions/4.md). -/
def Obligations.ResetPulseAndIdleStep : Prop :=
  (∀ s : State, s.inputs = [] → step s = .next s) ∧
  ∀ (s : State) (rest : List HostEvent), s.inputs = .rst :: rest →
    ∃ t, step s = .next t ∧ HasResetValues t ∧ t.inputs = rest ∧ t.rsp = s.rsp ∧ t.encPort = s.encPort ∧
      t.decPort = s.decPort

/-- spec/30_encoding.md R93: "Every command, legal or not, produces exactly one response": the fault bit is set exactly
if the command faulted or was refused, `data` is then `ERR` after the command, and otherwise the command's result. -/
def Obligations.EveryCommandSendsOneResponse : Prop :=
  ∀ (s : State) (w : Word), ∃ t r, runWord w s = .next t ∧ t.rsp = s.rsp ++ [r] ∧
    (r.fault = true ↔ t.err ≠ .noFault ∧ decode w ≠ .cmd .getStatus) ∧
    (r.fault = true → r.data = t.err.code.zeroExtend 64) ∧
    (r.fault = false → ∃ i, decode w = .cmd i ∧ r.data = resultData i s)

/-! ### Faults (spec/60_exceptions.md) -/

/-- spec/60_exceptions.md R221: while `ERR != 0` every command other than CLEAR and GET_STATUS, and every illegal word,
is refused: no state changes, and the response carries the recorded code. -/
def Obligations.FaultedBlockRefuses : Prop :=
  ∀ s : State, s.err ≠ .noFault →
    (∀ i : Instr, i ≠ .clear → i ≠ .getStatus →
      exec i s = .next { s with rsp := s.rsp ++ [⟨true, s.err.code.zeroExtend 64⟩] }) ∧
    (∀ (w : Word) (why : IllegalReason), decode w = .illegal why →
      runWord w s = .next { s with rsp := s.rsp ++ [⟨true, s.err.code.zeroExtend 64⟩] })

/-- spec/60_exceptions.md R224: only CLEAR or `rst` leaves the faulted condition, to the reset values with an empty
frequency table; every other step keeps the first fault recorded. -/
def Obligations.OnlyClearOrResetLeavesTheFault : Prop :=
  ∀ s t : State, s.err ≠ .noFault → step s = .next t →
    ((∃ rest, s.inputs = .rst :: rest) ∨ (∃ w rest, s.inputs = .cmd w :: rest ∧ decode w = .cmd .clear) →
      HasResetValues t) ∧
    ((¬ ∃ rest, s.inputs = .rst :: rest) → (¬ ∃ w rest, s.inputs = .cmd w :: rest ∧ decode w = .cmd .clear) →
      t.err = s.err ∧ t.errInfo = s.errInfo)

/-- spec/60_exceptions.md R220: a command that faults records the code and the detail, answers with the code, and
otherwise changes nothing, but for BUILD's step 0 (with the arena, unobservable without a tree) and for the bits of a
DEC_BYTE before the faulting one, which have the full effect of delivering them. -/
def Obligations.FaultChangesOnlyTheFaultRegisters : Prop :=
  ∀ (i : Instr) (s t : State), s.err = .noFault → exec i s = .next t → t.err ≠ .noFault →
    (i ≠ .build → (t.err = .badPath → ∀ v, i ≠ .decByte v) → t = { s with
      err := t.err, errInfo := t.errInfo, rsp := s.rsp ++ [⟨true, t.err.code.zeroExtend 64⟩] }) ∧
    (i = .build → t = { s with
      codesValid := false, encState := .idle, decState := .idle, decPtr := 0x3FF, treeValid := false, nnodes := 0
      root := 0x3FF, pq := [], node := t.node
      err := t.err, errInfo := t.errInfo, rsp := s.rsp ++ [⟨true, t.err.code.zeroExtend 64⟩] }) ∧
    (∀ v, i = .decByte v → t.err = .badPath → ∃ n u, n < 8 ∧
      runCommands (((byteBits v).take n).map .decBit) s = some u ∧ u.err = .noFault ∧
      t = { u with
        err := .badPath, errInfo := (BitVec.ofBool (v.getLsbD (7 - n))).zeroExtend 32
        rsp := s.rsp ++ [⟨true, 8⟩] })

/-- A command raises no fault that spec/60_exceptions.md R236 does not list for it (R236 is marked derived there). -/
def Obligations.CommandsRaiseOnlyTheirFaults : Prop :=
  ∀ (i : Instr) (s t : State), s.err = .noFault → exec i s = .next t → t.err ≠ .noFault → t.err ∈ faultsOf i

/-- spec/60_exceptions.md R222: the order of checks. A refusal comes first, then an illegal word, then the Requires
condition, then the index range; a fault raised after them is none of these three. A word that decodes to a command
is that command. -/
def Obligations.ChecksComeInOrder : Prop :=
  (∀ (w : Word) (s : State), s.err ≠ .noFault → decode w ≠ .cmd .clear → decode w ≠ .cmd .getStatus →
    runWord w s = .next { s with rsp := s.rsp ++ [⟨true, s.err.code.zeroExtend 64⟩] }) ∧
  (∀ (w : Word) (why : IllegalReason) (s : State), s.err = .noFault → decode w = .illegal why →
    runWord w s = .next { s with
      err := .illegalCmd, errInfo := w.extractLsb' 32 32, rsp := s.rsp ++ [⟨true, 1⟩] }) ∧
  (∀ (w : Word) (i : Instr) (s : State), s.err = .noFault → decode w = .cmd i → requiresHolds i s = false →
    runWord w s = .next { s with
      err := .seq, errInfo := (opField w).zeroExtend 32, rsp := s.rsp ++ [⟨true, 2⟩] }) ∧
  (∀ (w : Word) (i : Instr) (s : State), s.err = .noFault → decode w = .cmd i → requiresHolds i s = true →
    indexInRange i s = false →
    runWord w s = .next { s with
      err := .badKey, errInfo := (aField w).zeroExtend 32, rsp := s.rsp ++ [⟨true, 3⟩] }) ∧
  (∀ (w : Word) (i : Instr) (s t : State), s.err = .noFault → decode w = .cmd i → requiresHolds i s = true →
    indexInRange i s = true → runWord w s = .next t →
    t.err ≠ .illegalCmd ∧ t.err ≠ .seq ∧ t.err ≠ .badKey) ∧
  (∀ (w : Word) (i : Instr) (s : State), decode w = .cmd i → runWord w s = exec i s)

/-! ### System commands (spec/45_system.md, spec/10_state.md R49, R51) -/

/-- spec/10_state.md R51: the values after reset, and that `rst` and CLEAR produce them in every state. -/
def Obligations.ResetStateHasResetValues : Prop :=
  HasResetValues State.reset ∧
  (∀ s : State, ∃ t, hardwareReset s = .next t ∧ HasResetValues t) ∧
  ∀ s : State, ∃ t, exec .clear s = .next t ∧ HasResetValues t

/-- spec/45_system.md R206: CLEAR, in every state, faulted or not, gives every element its reset value and succeeds;
bytes already sent are not recalled. A word with its opcode and any other bit set is illegal, no CLEAR. -/
def Obligations.ClearRestoresTheResetValues : Prop :=
  (∀ s : State, ∃ t, exec .clear s = .next t ∧ HasResetValues t ∧ t.rsp = s.rsp ++ [⟨false, 0⟩] ∧
    t.encPort = s.encPort ∧ t.decPort = s.decPort ∧ t.inputs = s.inputs) ∧
  decode 0x0100000000000000 = .cmd .clear ∧
  ∀ w : Word, opField w = 0x01 → w ≠ 0x0100000000000000 → decode w = .illegal .mustBeZero

/-- spec/45_system.md R207: GET_STATUS, in every state, answers `ERR_INFO ++ STATUS` with each field in its place, and
changes nothing. -/
def Obligations.GetStatusReadsTheStatusWord : Prop :=
  ∀ s : State, ∃ v : Word, exec .getStatus s = .next { s with rsp := s.rsp ++ [⟨false, v⟩] } ∧
    v.extractLsb' 0 4 = s.err.code ∧ v.getLsbD 4 = s.treeValid ∧ v.getLsbD 5 = s.codesValid ∧
    v.extractLsb' 6 2 = s.encState.code ∧ v.extractLsb' 8 2 = s.decState.code ∧ v.getLsbD 10 = s.encDry ∧
    v.extractLsb' 11 3 = s.encNbits ∧ v.extractLsb' 14 2 = 0 ∧ v.extractLsb' 16 10 = s.nnodes ∧
    v.extractLsb' 26 6 = 0 ∧ v.extractLsb' 32 32 = s.errInfo

/-! ### Frequency table (spec/40_freq_table.md) -/

/-- spec/40_freq_table.md R121: FREQ_PUT writes one count (0 removes the symbol), leaves every other count and all
else; a symbol above 256 is ERR_BAD_KEY and nothing is written. -/
def Obligations.FreqPutWritesOneCount : Prop :=
  ∀ (s : State) (a : Idx) (d : Count), s.err = .noFault →
    (a.toNat ≤ 256 → ∃ t, exec (.freqPut a d) s = .next t ∧ t.freqAt a.toNat = d ∧
      (∀ k, k ≠ a.toNat → t.freqAt k = s.freqAt k) ∧ t = { s with freq := t.freq, rsp := s.rsp ++ [⟨false, 0⟩] }) ∧
    (256 < a.toNat → exec (.freqPut a d) s = .next { s with
      err := .badKey, errInfo := a.zeroExtend 32, rsp := s.rsp ++ [⟨true, 3⟩] })

/-- spec/40_freq_table.md R122: FREQ_GET answers the count, 0 for an absent symbol; a symbol above 256 is
ERR_BAD_KEY. -/
def Obligations.FreqGetReadsOneCount : Prop :=
  ∀ (s : State) (a : Idx), s.err = .noFault →
    (a.toNat ≤ 256 → exec (.freqGet a) s = .next { s with
      rsp := s.rsp ++ [⟨false, (s.freqAt a.toNat).zeroExtend 64⟩] }) ∧
    (256 < a.toNat → exec (.freqGet a) s = .next { s with
      err := .badKey, errInfo := a.zeroExtend 32, rsp := s.rsp ++ [⟨true, 3⟩] })

/-! ### Tree builder (spec/41_tree_builder.md) -/

/-- When BUILD succeeds and which fault it raises otherwise: empty table, ERR_FREQ_EMPTY (R132); a total below 2^32,
success; a total of 2^32 or more, ERR_COUNT_OVF with the index the new node would have had (R137, whose converse is
marked derived there). -/
def Obligations.BuildSucceedsExactlyBelowTwoPow32 : Prop :=
  ∀ s : State, s.err = .noFault → ∃ t, exec .build s = .next t ∧ (∀ k, t.freqAt k = s.freqAt k) ∧
    (totalCount s = 0 → t.err = .freqEmpty ∧ t.errInfo = 0 ∧ t.rsp = s.rsp ++ [⟨true, 4⟩]) ∧
    (1 ≤ totalCount s → totalCount s < 2 ^ 32 →
      t.err = .noFault ∧ t.treeValid = true ∧ t.rsp = s.rsp ++ [⟨false, 0⟩]) ∧
    (2 ^ 32 ≤ totalCount s → t.err = .countOvf ∧ t.rsp = s.rsp ++ [⟨true, 5⟩] ∧
      (presentKeys s).length ≤ t.errInfo.toNat ∧ t.errInfo.toNat + 1 < 2 * (presentKeys s).length)

/-- The tree of every successful BUILD has the six structural properties of spec/10_state.md R27 (marked derived
there), whatever the state before. -/
def Obligations.BuildMakesAnArenaTree : Prop :=
  ∀ s t : State, s.err = .noFault → exec .build s = .next t → t.err = .noFault →
    t.treeValid = true ∧ TreeShape t.node t.nnodes.toNat t.root

/-- spec/41_tree_builder.md R131: the leaves are the map's entries in ascending symbol order, at indices 0, 1, ...,
each with its symbol, its count and two absent children, and every leaf index is put into `PQ`. -/
def Obligations.BuildLeavesAreTheFrequencyMap : Prop :=
  ∀ s t : State, s.err = .noFault → exec .build s = .next t → t.err = .noFault →
    leafCount t.node t.nnodes.toNat = (presentKeys s).length ∧
    (∀ (i : Nat) (h : i < (presentKeys s).length),
      readNode t.node i = ⟨BitVec.ofNat 9 (presentKeys s)[i], s.freqAt (presentKeys s)[i], 0x3FF, 0x3FF⟩) ∧
    (∀ i < (presentKeys s).length, ∀ j < (presentKeys s).length,
      ((readNode t.node i).sym < (readNode t.node j).sym ↔ i < j)) ∧
    (makeLeaves s.freq ⟨s.node, [], 0⟩).pq = List.range (presentKeys s).length

/-- spec/41_tree_builder.md R136: each present symbol is the symbol of one leaf and each leaf's symbol is present,
there are 2L - 1 nodes for L >= 2 leaves (2 for one), and the counts are conserved. -/
def Obligations.BuildConservesTheCounts : Prop :=
  ∀ s t : State, s.err = .noFault → exec .build s = .next t → t.err = .noFault →
    let l := leafCount t.node t.nnodes.toNat
    (∀ k < 257, s.freqAt k ≠ 0 ↔ ∃! i, i < l ∧ (readNode t.node i).sym.toNat = k) ∧
    (2 ≤ l → t.nnodes.toNat = 2 * l - 1) ∧ (l = 1 → t.nnodes.toNat = 2) ∧
    ((List.range l).map (countOf t.node)).sum = totalCount s ∧ countOf t.node t.root.toNat = totalCount s

/-- spec/41_tree_builder.md R133: each internal node merges the two members of `PQ` with the least keys
`(count, index)`, the first-removed as `zero`, the second as `one`; `PQ` then is what no earlier internal node owns. -/
def Obligations.BuildMergesTheTwoLeastKeys : Prop :=
  ∀ s t : State, s.err = .noFault → exec .build s = .next t → t.err = .noFault →
    let l := leafCount t.node t.nnodes.toNat
    2 ≤ l → ∀ i, l ≤ i → i < t.nnodes.toNat →
      let x := (readNode t.node i).zero.toNat
      let y := (readNode t.node i).one.toNat
      let key := fun j : Nat => toLex (countOf t.node j, j)
      x ∈ freeBefore t.node l i ∧ y ∈ freeBefore t.node l i ∧ key x < key y ∧
      ∀ z ∈ freeBefore t.node l i, z ≠ x → z ≠ y → key y < key z

/-- spec/41_tree_builder.md R134: a map with one entry gets a synthesised root; its sole symbol's code is the one bit
0, and a decoder that reads a 1 at the root faults with ERR_BAD_PATH. -/
def Obligations.SingleEntryMapGetsASynthesisedRoot : Prop :=
  ∀ (s : State) (k : Nat), s.err = .noFault → presentKeys s = [k] →
    ∃ t u v w, exec .build s = .next t ∧ t.err = .noFault ∧ t.nnodes = 2 ∧ t.root = 1 ∧
      readNode t.node 0 = ⟨BitVec.ofNat 9 k, s.freqAt k, 0x3FF, 0x3FF⟩ ∧
      readNode t.node 1 = ⟨257, s.freqAt k, 0, 0x3FF⟩ ∧
      exec .gencodes t = .next u ∧ u.err = .noFault ∧ u.codeAt k = ⟨1, 0⟩ ∧
      exec .decStart t = .next v ∧ v.err = .noFault ∧
      exec (.decBit true) v = .next w ∧ w.err = .badPath ∧ w.errInfo = 1

/-- BUILD is a function of `FREQ` alone: from tables that read alike, two blocks in any states get the same outcome
and the same tree (R138, marked derived there). -/
def Obligations.BuildDependsOnFreqAlone : Prop :=
  ∀ s₁ s₂ t₁ t₂ : State, s₁.err = .noFault → s₂.err = .noFault → (∀ k < 257, s₁.freqAt k = s₂.freqAt k) →
    exec .build s₁ = .next t₁ → exec .build s₂ = .next t₂ →
    t₁.err = t₂.err ∧ (t₁.err ≠ .noFault → t₁.errInfo = t₂.errInfo) ∧
    t₁.treeValid = t₂.treeValid ∧ t₁.nnodes = t₂.nnodes ∧ t₁.root = t₂.root ∧
    ∀ i < t₁.nnodes.toNat, readNode t₁.node i = readNode t₂.node i

/-- BUILD's frame: it writes the tree, drops what was derived from an older one, and changes nothing else; if it
faults there is no tree (R130 step 0). -/
def Obligations.BuildChangesOnlyTheTreeAndItsDependants : Prop :=
  ∀ s t : State, s.err = .noFault → exec .build s = .next t →
    t = { s with
      node := t.node, nnodes := t.nnodes, root := t.root, treeValid := t.treeValid, pq := [], codesValid := false
      encState := .idle, decState := .idle, decPtr := 0x3FF, err := t.err, errInfo := t.errInfo, rsp := t.rsp } ∧
    (t.err ≠ .noFault → t.treeValid = false ∧ t.nnodes = 0 ∧ t.root = 0x3FF)

/-- spec/41_tree_builder.md R141: NODE_GET answers the selected field of a node in use; with no tree ERR_SEQ comes
first, then an index at or above `NNODES` is ERR_BAD_KEY. -/
def Obligations.NodeGetReadsOneField : Prop :=
  ∀ (s : State) (a : Idx), s.err = .noFault →
    (s.treeValid = true → a.toNat < s.nnodes.toNat →
      exec (.nodeGet a .sym) s = .next { s with rsp := s.rsp ++ [⟨false, (s.nodeAt a).sym.zeroExtend 64⟩] } ∧
      exec (.nodeGet a .count) s = .next { s with rsp := s.rsp ++ [⟨false, (s.nodeAt a).count.zeroExtend 64⟩] } ∧
      exec (.nodeGet a .zero) s = .next { s with rsp := s.rsp ++ [⟨false, (s.nodeAt a).zero.zeroExtend 64⟩] } ∧
      exec (.nodeGet a .one) s = .next { s with rsp := s.rsp ++ [⟨false, (s.nodeAt a).one.zeroExtend 64⟩] }) ∧
    (s.treeValid = false → ∀ f, exec (.nodeGet a f) s = .next { s with
      err := .seq, errInfo := 0x21, rsp := s.rsp ++ [⟨true, 2⟩] }) ∧
    (s.treeValid = true → s.nnodes.toNat ≤ a.toNat → ∀ f, exec (.nodeGet a f) s = .next { s with
      err := .badKey, errInfo := a.zeroExtend 32, rsp := s.rsp ++ [⟨true, 3⟩] })

/-- spec/41_tree_builder.md R142: RELEASE drops the tree and the decode run, and keeps the code table, the encoder,
`FREQ` and `DEC_OUT`; with no tree it succeeds and (in a state that meets the invariant) does nothing. -/
def Obligations.ReleaseDropsTreeAndDecoder : Prop :=
  ∀ s : State, s.err = .noFault →
    exec .release s = .next { s with
      treeValid := false, nnodes := 0, root := 0x3FF, decState := .idle, decPtr := 0x3FF
      rsp := s.rsp ++ [⟨false, 0⟩] } ∧
    (Inv s → s.treeValid = false → exec .release s = .next { s with rsp := s.rsp ++ [⟨false, 0⟩] })

/-! ### Code table generator (spec/42_code_table_gen.md) -/

/-- spec/42_code_table_gen.md R150: with a tree, GENCODES writes the table of the recursive walk from the root (the
machine runs the explicit stack of R155), forces the encoder to IDLE and leaves all else; with no tree it is ERR_SEQ. -/
def Obligations.GencodesWritesTheRecursiveWalk : Prop :=
  ∀ s : State, s.err = .noFault →
    (s.treeValid = true → TreeShape s.node s.nnodes.toNat s.root →
      exec .gencodes s = .next { s with
        encState := .idle, code := walk s.node Config.nnodeMax s.root [] [], codesValid := true
        walkStack := [], walkPath := [], rsp := s.rsp ++ [⟨false, 0⟩] }) ∧
    (s.treeValid = false → exec .gencodes s = .next { s with
      err := .seq, errInfo := 0x30, rsp := s.rsp ++ [⟨true, 2⟩] })

/-- Code length is leaf depth and the code is the path (R154 item 2, R151): after GENCODES each leaf's symbol has a
code, that leads from the root to the leaf; no other symbol has one; every entry is stored left-aligned. -/
def Obligations.GencodesRecordsEachLeafPath : Prop :=
  ∀ s t : State, s.err = .noFault → s.treeValid = true → TreeShape s.node s.nnodes.toNat s.root →
    exec .gencodes s = .next t → CodesMatchTree t ∧ CodesLeftAligned t

/-- The prefix-code property (R154 item 1) of every table GENCODES makes from a tree. -/
def Obligations.GencodesMakesAPrefixCode : Prop :=
  ∀ s t : State, s.err = .noFault → s.treeValid = true → TreeShape s.node s.nnodes.toNat s.root →
    exec .gencodes s = .next t → CodesPrefixFree t

/-- Code length monotonicity (R154 item 3): after BUILD and GENCODES a symbol with a strictly higher count never has a
strictly longer code than one with a lower count. -/
def Obligations.HigherCountNeverLongerCode : Prop :=
  ∀ (s t u : State) (j k : Nat), s.err = .noFault → exec .build s = .next t → t.err = .noFault →
    exec .gencodes t = .next u → j < 257 → k < 257 → s.freqAt k ≠ 0 →
    (s.freqAt k).toNat < (s.freqAt j).toNat → (u.codeAt j).len.toNat ≤ (u.codeAt k).len.toNat

/-- spec/42_code_table_gen.md R158: CODE_LEN answers the length, 0 for a symbol without a code; ERR_SEQ without a code
table, then ERR_BAD_KEY above 256. -/
def Obligations.CodeLenReadsTheLength : Prop :=
  ∀ (s : State) (a : Idx), s.err = .noFault →
    (s.codesValid = true → a.toNat ≤ 256 → exec (.codeLen a) s = .next { s with
      rsp := s.rsp ++ [⟨false, (s.codeAt a.toNat).len.zeroExtend 64⟩] }) ∧
    (s.codesValid = false → exec (.codeLen a) s = .next { s with
      err := .seq, errInfo := 0x31, rsp := s.rsp ++ [⟨true, 2⟩] }) ∧
    (s.codesValid = true → 256 < a.toNat → exec (.codeLen a) s = .next { s with
      err := .badKey, errInfo := a.zeroExtend 32, rsp := s.rsp ++ [⟨true, 3⟩] })

/-- spec/42_code_table_gen.md R159: chunk `k` holds path bits `32k` to `32k + 31`, the earliest in response bit 31, and
a position at or beyond the code's length reads 0 (where the table is left-aligned, as every step keeps it). -/
def Obligations.CodeBitsReadsOneChunk : Prop :=
  ∀ (s : State) (a : Idx) (k : BitVec 3), s.err = .noFault →
    (s.codesValid = true → a.toNat ≤ 256 → ∃ v : Word,
      exec (.codeBits a k) s = .next { s with rsp := s.rsp ++ [⟨false, v⟩] } ∧
      v.extractLsb' 32 32 = 0 ∧
      (∀ i < 32, v.getLsbD (31 - i) = (s.codeAt a.toNat).bits.getLsbD (255 - 32 * k.toNat - i)) ∧
      (CodesLeftAligned s → ∀ i < 32, v.getLsbD (31 - i) = (s.pathOf a.toNat).getD (32 * k.toNat + i) false)) ∧
    (s.codesValid = false → exec (.codeBits a k) s = .next { s with
      err := .seq, errInfo := 0x32, rsp := s.rsp ++ [⟨true, 2⟩] }) ∧
    (s.codesValid = true → 256 < a.toNat → exec (.codeBits a k) s = .next { s with
      err := .badKey, errInfo := a.zeroExtend 32, rsp := s.rsp ++ [⟨true, 3⟩] })

/-! ### Encoder (spec/43_encoder.md) -/

/-- spec/43_encoder.md R166: ENC_START opens a run in every encoder state and discards what an abandoned run had
pending; without a code table it is ERR_SEQ. -/
def Obligations.EncStartOpensARun : Prop :=
  ∀ (s : State) (dry : Bool), s.err = .noFault →
    (s.codesValid = true → exec (.encStart dry) s = .next { s with
      encState := .run, encDry := dry, encAcc := 0, encNbits := 0, encBitcnt := 0, encOut := [], encTrace := []
      rsp := s.rsp ++ [⟨false, 0⟩] }) ∧
    (s.codesValid = false → exec (.encStart dry) s = .next { s with
      err := .seq, errInfo := 0x40, rsp := s.rsp ++ [⟨true, 2⟩] })

/-- spec/43_encoder.md R169: ENC_SYM records and counts the bits of the byte's code in order; unless the run is dry
they join the pending bits and leave as whole bytes (at most 32), most significant bit first, on `enc_out`. It is
ERR_SEQ outside a run and ERR_NO_CODE, with no bit emitted, for a byte without a code. -/
def Obligations.EncSymEmitsTheCode : Prop :=
  ∀ (s : State) (b : Byte), s.err = .noFault →
    (s.encState = .run → s.hasCode b.toNat → ∃ t new, exec (.encSym b) s = .next t ∧
      t.encTrace = s.encTrace ++ s.pathOf b.toNat ∧
      t.encBitcnt = s.encBitcnt + (s.codeAt b.toNat).len.zeroExtend 64 ∧
      t.encOut = s.encOut ++ new ∧ t.encPort = s.encPort ++ new ∧
      (s.encDry = false → bitsOf new ++ pendingBits t = pendingBits s ++ s.pathOf b.toNat) ∧
      (s.encDry = true → new = [] ∧ t.encAcc = s.encAcc ∧ t.encNbits = s.encNbits) ∧
      ((s.codeAt b.toNat).len.toNat ≤ 256 → new.length ≤ 32) ∧
      t = { s with
        encTrace := t.encTrace, encBitcnt := t.encBitcnt, encOut := t.encOut, encPort := t.encPort
        encAcc := t.encAcc, encNbits := t.encNbits, rsp := s.rsp ++ [⟨false, 0⟩] }) ∧
    (s.encState ≠ .run → exec (.encSym b) s = .next { s with
      err := .seq, errInfo := 0x41, rsp := s.rsp ++ [⟨true, 2⟩] }) ∧
    (s.encState = .run → ¬ s.hasCode b.toNat → exec (.encSym b) s = .next { s with
      err := .noCode, errInfo := b.zeroExtend 32, rsp := s.rsp ++ [⟨true, 6⟩] })

/-- spec/43_encoder.md R172 and R171: ENC_END emits the end-of-stream code once, completes the last byte with fewer
than eight pad bits of value 0 that are neither counted nor traced, and closes the run; a second ENC_END is ERR_SEQ;
without that code it is ERR_NO_CODE with 256 and nothing is flushed. -/
def Obligations.EncEndEmitsTheEndCodeAndFlushes : Prop :=
  ∀ s : State, s.err = .noFault →
    (s.encState = .run → s.hasCode 256 → ∃ t new, exec .encEnd s = .next t ∧
      t.encTrace = s.encTrace ++ s.pathOf 256 ∧
      t.encBitcnt = s.encBitcnt + (s.codeAt 256).len.zeroExtend 64 ∧
      t.encOut = s.encOut ++ new ∧ t.encPort = s.encPort ++ new ∧
      (s.encDry = false → ∃ pad, pad < 8 ∧ bitsOf new = pendingBits s ++ s.pathOf 256 ++ List.replicate pad false) ∧
      (s.encDry = true → new = []) ∧ t.encAcc = 0 ∧ t.encNbits = 0 ∧
      t = { s with
        encState := .done, encTrace := t.encTrace, encBitcnt := t.encBitcnt, encOut := t.encOut
        encPort := t.encPort, encAcc := 0, encNbits := 0, rsp := s.rsp ++ [⟨false, 0⟩] }) ∧
    (s.encState ≠ .run → exec .encEnd s = .next { s with
      err := .seq, errInfo := 0x42, rsp := s.rsp ++ [⟨true, 2⟩] }) ∧
    (s.encState = .run → ¬ s.hasCode 256 → exec .encEnd s = .next { s with
      err := .noCode, errInfo := 256, rsp := s.rsp ++ [⟨true, 6⟩] })

/-- spec/43_encoder.md R174: GET_BITCNT answers the count in every encoder state. -/
def Obligations.GetBitcntReadsTheCount : Prop :=
  ∀ s : State, s.err = .noFault →
    exec .getBitcnt s = .next { s with rsp := s.rsp ++ [⟨false, s.encBitcnt⟩] }

/-- The five laws of a finished run (R173, marked derived there), for every byte sequence whose bytes have codes, dry
or not: the trace is the paths and the end code, the count its length, and the output the trace packed most
significant bit first and padded with 0 to whole bytes, or nothing in a dry run. -/
def Obligations.FinishedEncodeRunLaws : Prop :=
  ∀ (s : State) (dry : Bool) (bytes : List Byte), s.err = .noFault → s.codesValid = true →
    (∀ b ∈ bytes, s.hasCode b.toNat) → s.hasCode 256 →
    ∃ t, runCommands (.encStart dry :: bytes.map .encSym ++ [.encEnd]) s = some t ∧
      t.err = .noFault ∧ t.encState = .done ∧
      t.encTrace = bytes.flatMap (fun b => s.pathOf b.toNat) ++ s.pathOf 256 ∧
      t.encBitcnt = BitVec.ofNat 64 t.encTrace.length ∧
      (dry = false → t.encOut.length = (t.encTrace.length + 7) / 8 ∧
        bitsOf t.encOut = t.encTrace ++ List.replicate (8 * t.encOut.length - t.encTrace.length) false) ∧
      (dry = true → t.encOut = [])

/-! ### Decoder (spec/44_decoder.md) -/

/-- spec/44_decoder.md R188: DEC_START points at the root and opens a run in every decoder state; without a tree it is
ERR_SEQ. -/
def Obligations.DecStartPointsAtTheRoot : Prop :=
  ∀ s : State, s.err = .noFault →
    (s.treeValid = true → exec .decStart s = .next { s with
      decState := .run, decPtr := s.root, decOut := [], rsp := s.rsp ++ [⟨false, 0⟩] }) ∧
    (s.treeValid = false → exec .decStart s = .next { s with
      err := .seq, errInfo := 0x50, rsp := s.rsp ++ [⟨true, 2⟩] })

/-- spec/44_decoder.md R189, with the transition of R190 written out: ERR_SEQ in IDLE; in RUN the pointer moves to the
child on the bit, and at an internal node stays, at the end-of-stream leaf ends the run, at a literal leaf outputs the
byte and returns to the root; an absent child is ERR_BAD_PATH with nothing changed; in DONE the bit is discarded. -/
def Obligations.DecBitTakesOneTransition : Prop :=
  ∀ (s : State) (b : Bool), s.err = .noFault →
    let nxt := if b then (s.nodeAt s.decPtr).one else (s.nodeAt s.decPtr).zero
    (s.decState = .idle → exec (.decBit b) s = .next { s with
      err := .seq, errInfo := 0x51, rsp := s.rsp ++ [⟨true, 2⟩] }) ∧
    (s.decState = .run → nxt = 0x3FF → exec (.decBit b) s = .next { s with
      err := .badPath, errInfo := (if b then 1 else 0), rsp := s.rsp ++ [⟨true, 8⟩] }) ∧
    (s.decState = .run → nxt ≠ 0x3FF → (s.nodeAt nxt).sym = 257 → exec (.decBit b) s = .next { s with
      decPtr := nxt, rsp := s.rsp ++ [⟨false, 0⟩] }) ∧
    (s.decState = .run → nxt ≠ 0x3FF → (s.nodeAt nxt).sym = 256 → exec (.decBit b) s = .next { s with
      decPtr := nxt, decState := .done, rsp := s.rsp ++ [⟨false, 0⟩] }) ∧
    (s.decState = .run → nxt ≠ 0x3FF → (s.nodeAt nxt).sym ≠ 257 → (s.nodeAt nxt).sym ≠ 256 →
      exec (.decBit b) s = .next { s with
      decPtr := s.root, decOut := s.decOut ++ [(s.nodeAt nxt).sym.truncate 8]
      decPort := s.decPort ++ [(s.nodeAt nxt).sym.truncate 8], rsp := s.rsp ++ [⟨false, 0⟩] }) ∧
    (s.decState = .done → exec (.decBit b) s = .next { s with rsp := s.rsp ++ [⟨false, 0⟩] })

/-- spec/44_decoder.md R191: in state DONE bits delivered by DEC_BIT or DEC_BYTE are discarded without any state
change; and where the first `n` bits of a byte reach DONE, the rest of the byte makes no difference. -/
def Obligations.BitsAfterTheEndAreDiscarded : Prop :=
  (∀ s : State, s.err = .noFault → s.decState = .done →
    (∀ b, exec (.decBit b) s = .next { s with rsp := s.rsp ++ [⟨false, 0⟩] }) ∧
    (∀ v, exec (.decByte v) s = .next { s with rsp := s.rsp ++ [⟨false, 0⟩] })) ∧
  ∀ (s u : State) (v v' : Byte) (n : Nat), s.err = .noFault → n ≤ 8 →
    (∀ i < n, v.getLsbD (7 - i) = v'.getLsbD (7 - i)) →
    runCommands (((byteBits v).take n).map .decBit) s = some u → u.err = .noFault → u.decState = .done →
    exec (.decByte v) s = exec (.decByte v') s ∧
    exec (.decByte v) s = .next { u with rsp := s.rsp ++ [⟨false, 0⟩] }

/-- DEC_BYTE is the sequence of its eight DEC_BITs, bit 7 first, stopped at the first fault, with one response instead
of eight (R192, that sentence marked derived there); in IDLE it is ERR_SEQ. -/
def Obligations.DecByteIsEightDecBits : Prop :=
  ∀ (s : State) (v : Byte), s.err = .noFault →
    (s.decState ≠ .idle → ∃ t n u, exec (.decByte v) s = .next t ∧ n ≤ 8 ∧
      runCommands (((List.range n).map (fun i => v.getLsbD (7 - i))).map .decBit) s = some u ∧
      (n < 8 → u.err = .badPath) ∧ (u.err = .noFault ∨ u.err = .badPath) ∧
      t = { u with rsp := s.rsp ++ [if u.err = .noFault then ⟨false, 0⟩ else ⟨true, 8⟩] }) ∧
    (s.decState = .idle → exec (.decByte v) s = .next { s with
      err := .seq, errInfo := 0x52, rsp := s.rsp ++ [⟨true, 2⟩] })

/-- On a tree with two or more leaves every bit has a child to move to (R190's remark on ERR_BAD_PATH, from
spec/10_state.md R27 item 3), so DEC_BIT and DEC_BYTE in RUN or DONE succeed; on a
one-leaf tree ERR_BAD_PATH is possible, and only with the bit 1. -/
def Obligations.BadPathOnlyInASingleLeafTree : Prop :=
  ∀ (s : State) (i : Instr), Inv s → s.err = .noFault → s.decState ≠ .idle →
    ((∃ b, i = .decBit b) ∨ (∃ v, i = .decByte v)) →
    ∃ t, exec i s = .next t ∧
      (leafCount s.node s.nnodes.toNat ≠ 1 → t.err = .noFault ∧ t.rsp = s.rsp ++ [⟨false, 0⟩]) ∧
      (t.err ≠ .noFault → t.err = .badPath ∧ t.errInfo = 1)

/-- spec/44_decoder.md R194: DEC_EOD is the normal end in DONE, ERR_TRUNC with `DEC_PTR` in RUN, ERR_SEQ in IDLE. -/
def Obligations.DecEodEndsOrTruncates : Prop :=
  ∀ s : State, s.err = .noFault →
    (s.decState = .done → exec .decEod s = .next { s with rsp := s.rsp ++ [⟨false, 0⟩] }) ∧
    (s.decState = .run → exec .decEod s = .next { s with
      err := .trunc, errInfo := s.decPtr.zeroExtend 32, rsp := s.rsp ++ [⟨true, 7⟩] }) ∧
    (s.decState = .idle → exec .decEod s = .next { s with
      err := .seq, errInfo := 0x53, rsp := s.rsp ++ [⟨true, 2⟩] })

/-- Round trip (R197, marked derived there): from any state that meets the invariant, with a tree and its code table,
encode any byte sequence whose bytes have codes, then decode the payload on the same tree: the output is the sequence,
the end is reached, and DEC_EOD succeeds. -/
def Obligations.DecodeOfEncodeIsTheInput : Prop :=
  ∀ (s : State) (bytes : List Byte), Inv s → s.err = .noFault → s.treeValid = true → s.codesValid = true →
    (∀ b ∈ bytes, s.hasCode b.toNat) → s.hasCode 256 →
    ∃ t u, runCommands (.encStart false :: bytes.map .encSym ++ [.encEnd]) s = some t ∧ t.err = .noFault ∧
      runCommands (.decStart :: t.encOut.map .decByte ++ [.decEod]) t = some u ∧
      u.err = .noFault ∧ u.decState = .done ∧ u.decOut = bytes

/-- Truncation (R195, marked derived there): the payload without its last byte ends in ERR_TRUNC. -/
def Obligations.TruncatedPayloadIsReported : Prop :=
  ∀ (s : State) (bytes : List Byte), Inv s → s.err = .noFault → s.treeValid = true → s.codesValid = true →
    (∀ b ∈ bytes, s.hasCode b.toNat) → s.hasCode 256 →
    ∃ t u, runCommands (.encStart false :: bytes.map .encSym ++ [.encEnd]) s = some t ∧ t.encOut ≠ [] ∧
      runCommands (.decStart :: t.encOut.dropLast.map .decByte ++ [.decEod]) t = some u ∧
      u.err = .trunc ∧ u.decState = .run ∧ u.decOut <+: bytes

/-- On a tree without an end-of-stream leaf no command reaches DONE (R196, marked derived there). -/
def Obligations.NoEndLeafNeverDone : Prop :=
  ∀ (s t : State) (i : Instr), Inv s → s.decState ≠ .done →
    (∀ j < s.nnodes.toNat, (readNode s.node j).sym ≠ 256) → exec i s = .next t → t.decState ≠ .done

/-! ### The whole block -/

/-- A read command that succeeds changes nothing but `rsp`, and repeating it gives the same response (R65). -/
def Obligations.ReadsAreIdempotent : Prop :=
  ∀ (i : Instr) (s t : State), isRead i = true → exec i s = .next t → t.err = s.err →
    (i = .getStatus ∨ s.err = .noFault) →
    ∃ r, t = { s with rsp := s.rsp ++ [r] } ∧ r.fault = false ∧
      exec i t = .next { s with rsp := s.rsp ++ [r, r] }

/-- Which command may write which element of the state (spec/10_state.md R24, R26, R28, R29, R31, R33, R35 to R39,
R41 to R43, R47): everything not named for a command it leaves alone, in every state and for every operand. -/
def Obligations.OnlyTheNamedCommandsWrite : Prop :=
  ∀ (i : Instr) (s t : State), exec i s = .next t → i ≠ .clear →
    (t.freq ≠ s.freq → ∃ a d, i = .freqPut a d) ∧
    (t.node ≠ s.node → i = .build) ∧
    (t.nnodes ≠ s.nnodes ∨ t.root ≠ s.root ∨ t.treeValid ≠ s.treeValid → i = .build ∨ i = .release) ∧
    (t.code ≠ s.code → i = .gencodes) ∧
    (t.codesValid ≠ s.codesValid → i = .build ∨ i = .gencodes) ∧
    (t.encState ≠ s.encState → i = .build ∨ i = .gencodes ∨ i = .encEnd ∨ ∃ d, i = .encStart d) ∧
    (t.encDry ≠ s.encDry → ∃ d, i = .encStart d) ∧
    (t.encAcc ≠ s.encAcc ∨ t.encNbits ≠ s.encNbits ∨ t.encBitcnt ≠ s.encBitcnt ∨ t.encOut ≠ s.encOut ∨
      t.encTrace ≠ s.encTrace → i = .encEnd ∨ (∃ d, i = .encStart d) ∨ ∃ b, i = .encSym b) ∧
    (t.decState ≠ s.decState ∨ t.decPtr ≠ s.decPtr → i = .build ∨ i = .release ∨ i = .decStart ∨
      (∃ b, i = .decBit b) ∨ ∃ v, i = .decByte v) ∧
    (t.decOut ≠ s.decOut → i = .decStart ∨ (∃ b, i = .decBit b) ∨ ∃ v, i = .decByte v) ∧
    s.encPort <+: t.encPort ∧ s.decPort <+: t.decPort ∧ t.inputs = s.inputs

/-- An encoder command and a decoder command that both succeed may be interleaved in either order: the block ends in
the same state, and the two responses are the same two, in the other order (R261, marked derived there). -/
def Obligations.EncoderAndDecoderInterleave : Prop :=
  ∀ (i j : Instr) (s t u : State), isEncoder i = true → isDecoder j = true → s.err = .noFault →
    exec i s = .next t → t.err = .noFault → exec j t = .next u → u.err = .noFault →
    ∃ t' u' r q, exec j s = .next t' ∧ exec i t' = .next u' ∧ u.rsp = s.rsp ++ [r, q] ∧ u'.rsp = s.rsp ++ [q, r] ∧
      u' = { u with rsp := u'.rsp }

/-- The state after reset meets the invariant. Its `NODE` and `CODE` are the model's choice (notes/assumptions/5.md,
notes/assumptions/6.md). -/
def Obligations.ResetMeetsTheInvariant : Prop :=
  Inv State.reset

/-- Every step keeps the invariant: the tables' canonical form, the tree of R27, the prefix-free code table and its
agreement with the tree, the packed trace, a meaningful decoder pointer, and empty hidden state. The canonical form is
the model's (notes/assumptions/7.md). -/
def Obligations.StepKeepsTheInvariant : Prop :=
  ∀ s t : State, Inv s → step s = .next t → Inv t
end

