-- ==== Sys2Proof/Laws/State.lean ====
section
/-! SUPPORT. One lemma per field per named update of State, each true by `rfl`. -/

namespace Sys2Proof.Machine

/-! ### sendResponse -/

@[simp] theorem sendResponse_freq (r : Response) (s : State) : (sendResponse r s).freq = s.freq := rfl
@[simp] theorem sendResponse_node (r : Response) (s : State) : (sendResponse r s).node = s.node := rfl
@[simp] theorem sendResponse_nnodes (r : Response) (s : State) : (sendResponse r s).nnodes = s.nnodes := rfl
@[simp] theorem sendResponse_root (r : Response) (s : State) : (sendResponse r s).root = s.root := rfl
@[simp] theorem sendResponse_treeValid (r : Response) (s : State) : (sendResponse r s).treeValid = s.treeValid := rfl
@[simp] theorem sendResponse_pq (r : Response) (s : State) : (sendResponse r s).pq = s.pq := rfl
@[simp] theorem sendResponse_code (r : Response) (s : State) : (sendResponse r s).code = s.code := rfl
@[simp] theorem sendResponse_codesValid (r : Response) (s : State) : (sendResponse r s).codesValid = s.codesValid := rfl
@[simp] theorem sendResponse_walkStack (r : Response) (s : State) : (sendResponse r s).walkStack = s.walkStack := rfl
@[simp] theorem sendResponse_walkPath (r : Response) (s : State) : (sendResponse r s).walkPath = s.walkPath := rfl
@[simp] theorem sendResponse_encState (r : Response) (s : State) : (sendResponse r s).encState = s.encState := rfl
@[simp] theorem sendResponse_encDry (r : Response) (s : State) : (sendResponse r s).encDry = s.encDry := rfl
@[simp] theorem sendResponse_encAcc (r : Response) (s : State) : (sendResponse r s).encAcc = s.encAcc := rfl
@[simp] theorem sendResponse_encNbits (r : Response) (s : State) : (sendResponse r s).encNbits = s.encNbits := rfl
@[simp] theorem sendResponse_encBitcnt (r : Response) (s : State) : (sendResponse r s).encBitcnt = s.encBitcnt := rfl
@[simp] theorem sendResponse_encOut (r : Response) (s : State) : (sendResponse r s).encOut = s.encOut := rfl
@[simp] theorem sendResponse_encTrace (r : Response) (s : State) : (sendResponse r s).encTrace = s.encTrace := rfl
@[simp] theorem sendResponse_decState (r : Response) (s : State) : (sendResponse r s).decState = s.decState := rfl
@[simp] theorem sendResponse_decPtr (r : Response) (s : State) : (sendResponse r s).decPtr = s.decPtr := rfl
@[simp] theorem sendResponse_decOut (r : Response) (s : State) : (sendResponse r s).decOut = s.decOut := rfl
@[simp] theorem sendResponse_err (r : Response) (s : State) : (sendResponse r s).err = s.err := rfl
@[simp] theorem sendResponse_errInfo (r : Response) (s : State) : (sendResponse r s).errInfo = s.errInfo := rfl
@[simp] theorem sendResponse_inputs (r : Response) (s : State) : (sendResponse r s).inputs = s.inputs := rfl
@[simp] theorem sendResponse_rsp (r : Response) (s : State) : (sendResponse r s).rsp = s.rsp ++ [r] := rfl
@[simp] theorem sendResponse_encPort (r : Response) (s : State) : (sendResponse r s).encPort = s.encPort := rfl
@[simp] theorem sendResponse_decPort (r : Response) (s : State) : (sendResponse r s).decPort = s.decPort := rfl

/-! ### setFreq -/

@[simp] theorem setFreq_freq (s : State) (k : Nat) (c : Count) : (s.setFreq k c).freq = Table.write freqUnlisted Config.nsym s.freq k c := rfl
@[simp] theorem setFreq_node (s : State) (k : Nat) (c : Count) : (s.setFreq k c).node = s.node := rfl
@[simp] theorem setFreq_nnodes (s : State) (k : Nat) (c : Count) : (s.setFreq k c).nnodes = s.nnodes := rfl
@[simp] theorem setFreq_root (s : State) (k : Nat) (c : Count) : (s.setFreq k c).root = s.root := rfl
@[simp] theorem setFreq_treeValid (s : State) (k : Nat) (c : Count) : (s.setFreq k c).treeValid = s.treeValid := rfl
@[simp] theorem setFreq_pq (s : State) (k : Nat) (c : Count) : (s.setFreq k c).pq = s.pq := rfl
@[simp] theorem setFreq_code (s : State) (k : Nat) (c : Count) : (s.setFreq k c).code = s.code := rfl
@[simp] theorem setFreq_codesValid (s : State) (k : Nat) (c : Count) : (s.setFreq k c).codesValid = s.codesValid := rfl
@[simp] theorem setFreq_walkStack (s : State) (k : Nat) (c : Count) : (s.setFreq k c).walkStack = s.walkStack := rfl
@[simp] theorem setFreq_walkPath (s : State) (k : Nat) (c : Count) : (s.setFreq k c).walkPath = s.walkPath := rfl
@[simp] theorem setFreq_encState (s : State) (k : Nat) (c : Count) : (s.setFreq k c).encState = s.encState := rfl
@[simp] theorem setFreq_encDry (s : State) (k : Nat) (c : Count) : (s.setFreq k c).encDry = s.encDry := rfl
@[simp] theorem setFreq_encAcc (s : State) (k : Nat) (c : Count) : (s.setFreq k c).encAcc = s.encAcc := rfl
@[simp] theorem setFreq_encNbits (s : State) (k : Nat) (c : Count) : (s.setFreq k c).encNbits = s.encNbits := rfl
@[simp] theorem setFreq_encBitcnt (s : State) (k : Nat) (c : Count) : (s.setFreq k c).encBitcnt = s.encBitcnt := rfl
@[simp] theorem setFreq_encOut (s : State) (k : Nat) (c : Count) : (s.setFreq k c).encOut = s.encOut := rfl
@[simp] theorem setFreq_encTrace (s : State) (k : Nat) (c : Count) : (s.setFreq k c).encTrace = s.encTrace := rfl
@[simp] theorem setFreq_decState (s : State) (k : Nat) (c : Count) : (s.setFreq k c).decState = s.decState := rfl
@[simp] theorem setFreq_decPtr (s : State) (k : Nat) (c : Count) : (s.setFreq k c).decPtr = s.decPtr := rfl
@[simp] theorem setFreq_decOut (s : State) (k : Nat) (c : Count) : (s.setFreq k c).decOut = s.decOut := rfl
@[simp] theorem setFreq_err (s : State) (k : Nat) (c : Count) : (s.setFreq k c).err = s.err := rfl
@[simp] theorem setFreq_errInfo (s : State) (k : Nat) (c : Count) : (s.setFreq k c).errInfo = s.errInfo := rfl
@[simp] theorem setFreq_inputs (s : State) (k : Nat) (c : Count) : (s.setFreq k c).inputs = s.inputs := rfl
@[simp] theorem setFreq_rsp (s : State) (k : Nat) (c : Count) : (s.setFreq k c).rsp = s.rsp := rfl
@[simp] theorem setFreq_encPort (s : State) (k : Nat) (c : Count) : (s.setFreq k c).encPort = s.encPort := rfl
@[simp] theorem setFreq_decPort (s : State) (k : Nat) (c : Count) : (s.setFreq k c).decPort = s.decPort := rfl

/-! ### setCode -/

@[simp] theorem setCode_freq (s : State) (k : Nat) (e : CodeEntry) : (s.setCode k e).freq = s.freq := rfl
@[simp] theorem setCode_node (s : State) (k : Nat) (e : CodeEntry) : (s.setCode k e).node = s.node := rfl
@[simp] theorem setCode_nnodes (s : State) (k : Nat) (e : CodeEntry) : (s.setCode k e).nnodes = s.nnodes := rfl
@[simp] theorem setCode_root (s : State) (k : Nat) (e : CodeEntry) : (s.setCode k e).root = s.root := rfl
@[simp] theorem setCode_treeValid (s : State) (k : Nat) (e : CodeEntry) : (s.setCode k e).treeValid = s.treeValid := rfl
@[simp] theorem setCode_pq (s : State) (k : Nat) (e : CodeEntry) : (s.setCode k e).pq = s.pq := rfl
@[simp] theorem setCode_code (s : State) (k : Nat) (e : CodeEntry) : (s.setCode k e).code = Table.write codeUnlisted Config.nsym s.code k e := rfl
@[simp] theorem setCode_codesValid (s : State) (k : Nat) (e : CodeEntry) : (s.setCode k e).codesValid = s.codesValid := rfl
@[simp] theorem setCode_walkStack (s : State) (k : Nat) (e : CodeEntry) : (s.setCode k e).walkStack = s.walkStack := rfl
@[simp] theorem setCode_walkPath (s : State) (k : Nat) (e : CodeEntry) : (s.setCode k e).walkPath = s.walkPath := rfl
@[simp] theorem setCode_encState (s : State) (k : Nat) (e : CodeEntry) : (s.setCode k e).encState = s.encState := rfl
@[simp] theorem setCode_encDry (s : State) (k : Nat) (e : CodeEntry) : (s.setCode k e).encDry = s.encDry := rfl
@[simp] theorem setCode_encAcc (s : State) (k : Nat) (e : CodeEntry) : (s.setCode k e).encAcc = s.encAcc := rfl
@[simp] theorem setCode_encNbits (s : State) (k : Nat) (e : CodeEntry) : (s.setCode k e).encNbits = s.encNbits := rfl
@[simp] theorem setCode_encBitcnt (s : State) (k : Nat) (e : CodeEntry) : (s.setCode k e).encBitcnt = s.encBitcnt := rfl
@[simp] theorem setCode_encOut (s : State) (k : Nat) (e : CodeEntry) : (s.setCode k e).encOut = s.encOut := rfl
@[simp] theorem setCode_encTrace (s : State) (k : Nat) (e : CodeEntry) : (s.setCode k e).encTrace = s.encTrace := rfl
@[simp] theorem setCode_decState (s : State) (k : Nat) (e : CodeEntry) : (s.setCode k e).decState = s.decState := rfl
@[simp] theorem setCode_decPtr (s : State) (k : Nat) (e : CodeEntry) : (s.setCode k e).decPtr = s.decPtr := rfl
@[simp] theorem setCode_decOut (s : State) (k : Nat) (e : CodeEntry) : (s.setCode k e).decOut = s.decOut := rfl
@[simp] theorem setCode_err (s : State) (k : Nat) (e : CodeEntry) : (s.setCode k e).err = s.err := rfl
@[simp] theorem setCode_errInfo (s : State) (k : Nat) (e : CodeEntry) : (s.setCode k e).errInfo = s.errInfo := rfl
@[simp] theorem setCode_inputs (s : State) (k : Nat) (e : CodeEntry) : (s.setCode k e).inputs = s.inputs := rfl
@[simp] theorem setCode_rsp (s : State) (k : Nat) (e : CodeEntry) : (s.setCode k e).rsp = s.rsp := rfl
@[simp] theorem setCode_encPort (s : State) (k : Nat) (e : CodeEntry) : (s.setCode k e).encPort = s.encPort := rfl
@[simp] theorem setCode_decPort (s : State) (k : Nat) (e : CodeEntry) : (s.setCode k e).decPort = s.decPort := rfl

/-! ### outputEnc -/

@[simp] theorem outputEnc_freq (v : Byte) (s : State) : (outputEnc v s).freq = s.freq := rfl
@[simp] theorem outputEnc_node (v : Byte) (s : State) : (outputEnc v s).node = s.node := rfl
@[simp] theorem outputEnc_nnodes (v : Byte) (s : State) : (outputEnc v s).nnodes = s.nnodes := rfl
@[simp] theorem outputEnc_root (v : Byte) (s : State) : (outputEnc v s).root = s.root := rfl
@[simp] theorem outputEnc_treeValid (v : Byte) (s : State) : (outputEnc v s).treeValid = s.treeValid := rfl
@[simp] theorem outputEnc_pq (v : Byte) (s : State) : (outputEnc v s).pq = s.pq := rfl
@[simp] theorem outputEnc_code (v : Byte) (s : State) : (outputEnc v s).code = s.code := rfl
@[simp] theorem outputEnc_codesValid (v : Byte) (s : State) : (outputEnc v s).codesValid = s.codesValid := rfl
@[simp] theorem outputEnc_walkStack (v : Byte) (s : State) : (outputEnc v s).walkStack = s.walkStack := rfl
@[simp] theorem outputEnc_walkPath (v : Byte) (s : State) : (outputEnc v s).walkPath = s.walkPath := rfl
@[simp] theorem outputEnc_encState (v : Byte) (s : State) : (outputEnc v s).encState = s.encState := rfl
@[simp] theorem outputEnc_encDry (v : Byte) (s : State) : (outputEnc v s).encDry = s.encDry := rfl
@[simp] theorem outputEnc_encAcc (v : Byte) (s : State) : (outputEnc v s).encAcc = s.encAcc := rfl
@[simp] theorem outputEnc_encNbits (v : Byte) (s : State) : (outputEnc v s).encNbits = s.encNbits := rfl
@[simp] theorem outputEnc_encBitcnt (v : Byte) (s : State) : (outputEnc v s).encBitcnt = s.encBitcnt := rfl
@[simp] theorem outputEnc_encOut (v : Byte) (s : State) : (outputEnc v s).encOut = s.encOut ++ [v] := rfl
@[simp] theorem outputEnc_encTrace (v : Byte) (s : State) : (outputEnc v s).encTrace = s.encTrace := rfl
@[simp] theorem outputEnc_decState (v : Byte) (s : State) : (outputEnc v s).decState = s.decState := rfl
@[simp] theorem outputEnc_decPtr (v : Byte) (s : State) : (outputEnc v s).decPtr = s.decPtr := rfl
@[simp] theorem outputEnc_decOut (v : Byte) (s : State) : (outputEnc v s).decOut = s.decOut := rfl
@[simp] theorem outputEnc_err (v : Byte) (s : State) : (outputEnc v s).err = s.err := rfl
@[simp] theorem outputEnc_errInfo (v : Byte) (s : State) : (outputEnc v s).errInfo = s.errInfo := rfl
@[simp] theorem outputEnc_inputs (v : Byte) (s : State) : (outputEnc v s).inputs = s.inputs := rfl
@[simp] theorem outputEnc_rsp (v : Byte) (s : State) : (outputEnc v s).rsp = s.rsp := rfl
@[simp] theorem outputEnc_encPort (v : Byte) (s : State) : (outputEnc v s).encPort = s.encPort ++ [v] := rfl
@[simp] theorem outputEnc_decPort (v : Byte) (s : State) : (outputEnc v s).decPort = s.decPort := rfl

/-! ### outputDec -/

@[simp] theorem outputDec_freq (v : Byte) (s : State) : (outputDec v s).freq = s.freq := rfl
@[simp] theorem outputDec_node (v : Byte) (s : State) : (outputDec v s).node = s.node := rfl
@[simp] theorem outputDec_nnodes (v : Byte) (s : State) : (outputDec v s).nnodes = s.nnodes := rfl
@[simp] theorem outputDec_root (v : Byte) (s : State) : (outputDec v s).root = s.root := rfl
@[simp] theorem outputDec_treeValid (v : Byte) (s : State) : (outputDec v s).treeValid = s.treeValid := rfl
@[simp] theorem outputDec_pq (v : Byte) (s : State) : (outputDec v s).pq = s.pq := rfl
@[simp] theorem outputDec_code (v : Byte) (s : State) : (outputDec v s).code = s.code := rfl
@[simp] theorem outputDec_codesValid (v : Byte) (s : State) : (outputDec v s).codesValid = s.codesValid := rfl
@[simp] theorem outputDec_walkStack (v : Byte) (s : State) : (outputDec v s).walkStack = s.walkStack := rfl
@[simp] theorem outputDec_walkPath (v : Byte) (s : State) : (outputDec v s).walkPath = s.walkPath := rfl
@[simp] theorem outputDec_encState (v : Byte) (s : State) : (outputDec v s).encState = s.encState := rfl
@[simp] theorem outputDec_encDry (v : Byte) (s : State) : (outputDec v s).encDry = s.encDry := rfl
@[simp] theorem outputDec_encAcc (v : Byte) (s : State) : (outputDec v s).encAcc = s.encAcc := rfl
@[simp] theorem outputDec_encNbits (v : Byte) (s : State) : (outputDec v s).encNbits = s.encNbits := rfl
@[simp] theorem outputDec_encBitcnt (v : Byte) (s : State) : (outputDec v s).encBitcnt = s.encBitcnt := rfl
@[simp] theorem outputDec_encOut (v : Byte) (s : State) : (outputDec v s).encOut = s.encOut := rfl
@[simp] theorem outputDec_encTrace (v : Byte) (s : State) : (outputDec v s).encTrace = s.encTrace := rfl
@[simp] theorem outputDec_decState (v : Byte) (s : State) : (outputDec v s).decState = s.decState := rfl
@[simp] theorem outputDec_decPtr (v : Byte) (s : State) : (outputDec v s).decPtr = s.decPtr := rfl
@[simp] theorem outputDec_decOut (v : Byte) (s : State) : (outputDec v s).decOut = s.decOut ++ [v] := rfl
@[simp] theorem outputDec_err (v : Byte) (s : State) : (outputDec v s).err = s.err := rfl
@[simp] theorem outputDec_errInfo (v : Byte) (s : State) : (outputDec v s).errInfo = s.errInfo := rfl
@[simp] theorem outputDec_inputs (v : Byte) (s : State) : (outputDec v s).inputs = s.inputs := rfl
@[simp] theorem outputDec_rsp (v : Byte) (s : State) : (outputDec v s).rsp = s.rsp := rfl
@[simp] theorem outputDec_encPort (v : Byte) (s : State) : (outputDec v s).encPort = s.encPort := rfl
@[simp] theorem outputDec_decPort (v : Byte) (s : State) : (outputDec v s).decPort = s.decPort ++ [v] := rfl

/-! ### countBit -/

@[simp] theorem countBit_freq (b : Bool) (s : State) : (countBit b s).freq = s.freq := rfl
@[simp] theorem countBit_node (b : Bool) (s : State) : (countBit b s).node = s.node := rfl
@[simp] theorem countBit_nnodes (b : Bool) (s : State) : (countBit b s).nnodes = s.nnodes := rfl
@[simp] theorem countBit_root (b : Bool) (s : State) : (countBit b s).root = s.root := rfl
@[simp] theorem countBit_treeValid (b : Bool) (s : State) : (countBit b s).treeValid = s.treeValid := rfl
@[simp] theorem countBit_pq (b : Bool) (s : State) : (countBit b s).pq = s.pq := rfl
@[simp] theorem countBit_code (b : Bool) (s : State) : (countBit b s).code = s.code := rfl
@[simp] theorem countBit_codesValid (b : Bool) (s : State) : (countBit b s).codesValid = s.codesValid := rfl
@[simp] theorem countBit_walkStack (b : Bool) (s : State) : (countBit b s).walkStack = s.walkStack := rfl
@[simp] theorem countBit_walkPath (b : Bool) (s : State) : (countBit b s).walkPath = s.walkPath := rfl
@[simp] theorem countBit_encState (b : Bool) (s : State) : (countBit b s).encState = s.encState := rfl
@[simp] theorem countBit_encDry (b : Bool) (s : State) : (countBit b s).encDry = s.encDry := rfl
@[simp] theorem countBit_encAcc (b : Bool) (s : State) : (countBit b s).encAcc = s.encAcc := rfl
@[simp] theorem countBit_encNbits (b : Bool) (s : State) : (countBit b s).encNbits = s.encNbits := rfl
@[simp] theorem countBit_encBitcnt (b : Bool) (s : State) : (countBit b s).encBitcnt = s.encBitcnt + 1 := rfl
@[simp] theorem countBit_encOut (b : Bool) (s : State) : (countBit b s).encOut = s.encOut := rfl
@[simp] theorem countBit_encTrace (b : Bool) (s : State) : (countBit b s).encTrace = s.encTrace ++ [b] := rfl
@[simp] theorem countBit_decState (b : Bool) (s : State) : (countBit b s).decState = s.decState := rfl
@[simp] theorem countBit_decPtr (b : Bool) (s : State) : (countBit b s).decPtr = s.decPtr := rfl
@[simp] theorem countBit_decOut (b : Bool) (s : State) : (countBit b s).decOut = s.decOut := rfl
@[simp] theorem countBit_err (b : Bool) (s : State) : (countBit b s).err = s.err := rfl
@[simp] theorem countBit_errInfo (b : Bool) (s : State) : (countBit b s).errInfo = s.errInfo := rfl
@[simp] theorem countBit_inputs (b : Bool) (s : State) : (countBit b s).inputs = s.inputs := rfl
@[simp] theorem countBit_rsp (b : Bool) (s : State) : (countBit b s).rsp = s.rsp := rfl
@[simp] theorem countBit_encPort (b : Bool) (s : State) : (countBit b s).encPort = s.encPort := rfl
@[simp] theorem countBit_decPort (b : Bool) (s : State) : (countBit b s).decPort = s.decPort := rfl

/-! ### dropDerived -/

@[simp] theorem dropDerived_freq (s : State) : (dropDerived s).freq = s.freq := rfl
@[simp] theorem dropDerived_node (s : State) : (dropDerived s).node = s.node := rfl
@[simp] theorem dropDerived_nnodes (s : State) : (dropDerived s).nnodes = 0 := rfl
@[simp] theorem dropDerived_root (s : State) : (dropDerived s).root = Config.nullIdx := rfl
@[simp] theorem dropDerived_treeValid (s : State) : (dropDerived s).treeValid = false := rfl
@[simp] theorem dropDerived_pq (s : State) : (dropDerived s).pq = [] := rfl
@[simp] theorem dropDerived_code (s : State) : (dropDerived s).code = s.code := rfl
@[simp] theorem dropDerived_codesValid (s : State) : (dropDerived s).codesValid = false := rfl
@[simp] theorem dropDerived_walkStack (s : State) : (dropDerived s).walkStack = s.walkStack := rfl
@[simp] theorem dropDerived_walkPath (s : State) : (dropDerived s).walkPath = s.walkPath := rfl
@[simp] theorem dropDerived_encState (s : State) : (dropDerived s).encState = .idle := rfl
@[simp] theorem dropDerived_encDry (s : State) : (dropDerived s).encDry = s.encDry := rfl
@[simp] theorem dropDerived_encAcc (s : State) : (dropDerived s).encAcc = s.encAcc := rfl
@[simp] theorem dropDerived_encNbits (s : State) : (dropDerived s).encNbits = s.encNbits := rfl
@[simp] theorem dropDerived_encBitcnt (s : State) : (dropDerived s).encBitcnt = s.encBitcnt := rfl
@[simp] theorem dropDerived_encOut (s : State) : (dropDerived s).encOut = s.encOut := rfl
@[simp] theorem dropDerived_encTrace (s : State) : (dropDerived s).encTrace = s.encTrace := rfl
@[simp] theorem dropDerived_decState (s : State) : (dropDerived s).decState = .idle := rfl
@[simp] theorem dropDerived_decPtr (s : State) : (dropDerived s).decPtr = Config.nullIdx := rfl
@[simp] theorem dropDerived_decOut (s : State) : (dropDerived s).decOut = s.decOut := rfl
@[simp] theorem dropDerived_err (s : State) : (dropDerived s).err = s.err := rfl
@[simp] theorem dropDerived_errInfo (s : State) : (dropDerived s).errInfo = s.errInfo := rfl
@[simp] theorem dropDerived_inputs (s : State) : (dropDerived s).inputs = s.inputs := rfl
@[simp] theorem dropDerived_rsp (s : State) : (dropDerived s).rsp = s.rsp := rfl
@[simp] theorem dropDerived_encPort (s : State) : (dropDerived s).encPort = s.encPort := rfl
@[simp] theorem dropDerived_decPort (s : State) : (dropDerived s).decPort = s.decPort := rfl

/-! ### installTree -/

@[simp] theorem installTree_freq (w : BuildWork) (s : State) : (installTree w s).freq = s.freq := rfl
@[simp] theorem installTree_node (w : BuildWork) (s : State) : (installTree w s).node = w.node := rfl
@[simp] theorem installTree_nnodes (w : BuildWork) (s : State) : (installTree w s).nnodes = BitVec.ofNat 10 w.n := rfl
@[simp] theorem installTree_root (w : BuildWork) (s : State) : (installTree w s).root = BitVec.ofNat 10 (w.pq.headD 0) := rfl
@[simp] theorem installTree_treeValid (w : BuildWork) (s : State) : (installTree w s).treeValid = true := rfl
@[simp] theorem installTree_pq (w : BuildWork) (s : State) : (installTree w s).pq = [] := rfl
@[simp] theorem installTree_code (w : BuildWork) (s : State) : (installTree w s).code = s.code := rfl
@[simp] theorem installTree_codesValid (w : BuildWork) (s : State) : (installTree w s).codesValid = s.codesValid := rfl
@[simp] theorem installTree_walkStack (w : BuildWork) (s : State) : (installTree w s).walkStack = s.walkStack := rfl
@[simp] theorem installTree_walkPath (w : BuildWork) (s : State) : (installTree w s).walkPath = s.walkPath := rfl
@[simp] theorem installTree_encState (w : BuildWork) (s : State) : (installTree w s).encState = s.encState := rfl
@[simp] theorem installTree_encDry (w : BuildWork) (s : State) : (installTree w s).encDry = s.encDry := rfl
@[simp] theorem installTree_encAcc (w : BuildWork) (s : State) : (installTree w s).encAcc = s.encAcc := rfl
@[simp] theorem installTree_encNbits (w : BuildWork) (s : State) : (installTree w s).encNbits = s.encNbits := rfl
@[simp] theorem installTree_encBitcnt (w : BuildWork) (s : State) : (installTree w s).encBitcnt = s.encBitcnt := rfl
@[simp] theorem installTree_encOut (w : BuildWork) (s : State) : (installTree w s).encOut = s.encOut := rfl
@[simp] theorem installTree_encTrace (w : BuildWork) (s : State) : (installTree w s).encTrace = s.encTrace := rfl
@[simp] theorem installTree_decState (w : BuildWork) (s : State) : (installTree w s).decState = s.decState := rfl
@[simp] theorem installTree_decPtr (w : BuildWork) (s : State) : (installTree w s).decPtr = s.decPtr := rfl
@[simp] theorem installTree_decOut (w : BuildWork) (s : State) : (installTree w s).decOut = s.decOut := rfl
@[simp] theorem installTree_err (w : BuildWork) (s : State) : (installTree w s).err = s.err := rfl
@[simp] theorem installTree_errInfo (w : BuildWork) (s : State) : (installTree w s).errInfo = s.errInfo := rfl
@[simp] theorem installTree_inputs (w : BuildWork) (s : State) : (installTree w s).inputs = s.inputs := rfl
@[simp] theorem installTree_rsp (w : BuildWork) (s : State) : (installTree w s).rsp = s.rsp := rfl
@[simp] theorem installTree_encPort (w : BuildWork) (s : State) : (installTree w s).encPort = s.encPort := rfl
@[simp] theorem installTree_decPort (w : BuildWork) (s : State) : (installTree w s).decPort = s.decPort := rfl

/-! ### clearCodes -/

@[simp] theorem clearCodes_freq (s : State) : (clearCodes s).freq = s.freq := rfl
@[simp] theorem clearCodes_node (s : State) : (clearCodes s).node = s.node := rfl
@[simp] theorem clearCodes_nnodes (s : State) : (clearCodes s).nnodes = s.nnodes := rfl
@[simp] theorem clearCodes_root (s : State) : (clearCodes s).root = s.root := rfl
@[simp] theorem clearCodes_treeValid (s : State) : (clearCodes s).treeValid = s.treeValid := rfl
@[simp] theorem clearCodes_pq (s : State) : (clearCodes s).pq = s.pq := rfl
@[simp] theorem clearCodes_code (s : State) : (clearCodes s).code = [] := rfl
@[simp] theorem clearCodes_codesValid (s : State) : (clearCodes s).codesValid = s.codesValid := rfl
@[simp] theorem clearCodes_walkStack (s : State) : (clearCodes s).walkStack = s.walkStack := rfl
@[simp] theorem clearCodes_walkPath (s : State) : (clearCodes s).walkPath = s.walkPath := rfl
@[simp] theorem clearCodes_encState (s : State) : (clearCodes s).encState = s.encState := rfl
@[simp] theorem clearCodes_encDry (s : State) : (clearCodes s).encDry = s.encDry := rfl
@[simp] theorem clearCodes_encAcc (s : State) : (clearCodes s).encAcc = s.encAcc := rfl
@[simp] theorem clearCodes_encNbits (s : State) : (clearCodes s).encNbits = s.encNbits := rfl
@[simp] theorem clearCodes_encBitcnt (s : State) : (clearCodes s).encBitcnt = s.encBitcnt := rfl
@[simp] theorem clearCodes_encOut (s : State) : (clearCodes s).encOut = s.encOut := rfl
@[simp] theorem clearCodes_encTrace (s : State) : (clearCodes s).encTrace = s.encTrace := rfl
@[simp] theorem clearCodes_decState (s : State) : (clearCodes s).decState = s.decState := rfl
@[simp] theorem clearCodes_decPtr (s : State) : (clearCodes s).decPtr = s.decPtr := rfl
@[simp] theorem clearCodes_decOut (s : State) : (clearCodes s).decOut = s.decOut := rfl
@[simp] theorem clearCodes_err (s : State) : (clearCodes s).err = s.err := rfl
@[simp] theorem clearCodes_errInfo (s : State) : (clearCodes s).errInfo = s.errInfo := rfl
@[simp] theorem clearCodes_inputs (s : State) : (clearCodes s).inputs = s.inputs := rfl
@[simp] theorem clearCodes_rsp (s : State) : (clearCodes s).rsp = s.rsp := rfl
@[simp] theorem clearCodes_encPort (s : State) : (clearCodes s).encPort = s.encPort := rfl
@[simp] theorem clearCodes_decPort (s : State) : (clearCodes s).decPort = s.decPort := rfl

/-! ### presentWord -/

@[simp] theorem presentWord_freq (w : Word) (s : State) : (presentWord w s).freq = s.freq := rfl
@[simp] theorem presentWord_node (w : Word) (s : State) : (presentWord w s).node = s.node := rfl
@[simp] theorem presentWord_nnodes (w : Word) (s : State) : (presentWord w s).nnodes = s.nnodes := rfl
@[simp] theorem presentWord_root (w : Word) (s : State) : (presentWord w s).root = s.root := rfl
@[simp] theorem presentWord_treeValid (w : Word) (s : State) : (presentWord w s).treeValid = s.treeValid := rfl
@[simp] theorem presentWord_pq (w : Word) (s : State) : (presentWord w s).pq = s.pq := rfl
@[simp] theorem presentWord_code (w : Word) (s : State) : (presentWord w s).code = s.code := rfl
@[simp] theorem presentWord_codesValid (w : Word) (s : State) : (presentWord w s).codesValid = s.codesValid := rfl
@[simp] theorem presentWord_walkStack (w : Word) (s : State) : (presentWord w s).walkStack = s.walkStack := rfl
@[simp] theorem presentWord_walkPath (w : Word) (s : State) : (presentWord w s).walkPath = s.walkPath := rfl
@[simp] theorem presentWord_encState (w : Word) (s : State) : (presentWord w s).encState = s.encState := rfl
@[simp] theorem presentWord_encDry (w : Word) (s : State) : (presentWord w s).encDry = s.encDry := rfl
@[simp] theorem presentWord_encAcc (w : Word) (s : State) : (presentWord w s).encAcc = s.encAcc := rfl
@[simp] theorem presentWord_encNbits (w : Word) (s : State) : (presentWord w s).encNbits = s.encNbits := rfl
@[simp] theorem presentWord_encBitcnt (w : Word) (s : State) : (presentWord w s).encBitcnt = s.encBitcnt := rfl
@[simp] theorem presentWord_encOut (w : Word) (s : State) : (presentWord w s).encOut = s.encOut := rfl
@[simp] theorem presentWord_encTrace (w : Word) (s : State) : (presentWord w s).encTrace = s.encTrace := rfl
@[simp] theorem presentWord_decState (w : Word) (s : State) : (presentWord w s).decState = s.decState := rfl
@[simp] theorem presentWord_decPtr (w : Word) (s : State) : (presentWord w s).decPtr = s.decPtr := rfl
@[simp] theorem presentWord_decOut (w : Word) (s : State) : (presentWord w s).decOut = s.decOut := rfl
@[simp] theorem presentWord_err (w : Word) (s : State) : (presentWord w s).err = s.err := rfl
@[simp] theorem presentWord_errInfo (w : Word) (s : State) : (presentWord w s).errInfo = s.errInfo := rfl
@[simp] theorem presentWord_inputs (w : Word) (s : State) : (presentWord w s).inputs = .cmd w :: s.inputs := rfl
@[simp] theorem presentWord_rsp (w : Word) (s : State) : (presentWord w s).rsp = s.rsp := rfl
@[simp] theorem presentWord_encPort (w : Word) (s : State) : (presentWord w s).encPort = s.encPort := rfl
@[simp] theorem presentWord_decPort (w : Word) (s : State) : (presentWord w s).decPort = s.decPort := rfl

/-! ### clearBlock -/

@[simp] theorem clearBlock_freq (s : State) : (clearBlock s).freq = State.reset.freq := rfl
@[simp] theorem clearBlock_node (s : State) : (clearBlock s).node = State.reset.node := rfl
@[simp] theorem clearBlock_nnodes (s : State) : (clearBlock s).nnodes = State.reset.nnodes := rfl
@[simp] theorem clearBlock_root (s : State) : (clearBlock s).root = State.reset.root := rfl
@[simp] theorem clearBlock_treeValid (s : State) : (clearBlock s).treeValid = State.reset.treeValid := rfl
@[simp] theorem clearBlock_pq (s : State) : (clearBlock s).pq = State.reset.pq := rfl
@[simp] theorem clearBlock_code (s : State) : (clearBlock s).code = State.reset.code := rfl
@[simp] theorem clearBlock_codesValid (s : State) : (clearBlock s).codesValid = State.reset.codesValid := rfl
@[simp] theorem clearBlock_walkStack (s : State) : (clearBlock s).walkStack = State.reset.walkStack := rfl
@[simp] theorem clearBlock_walkPath (s : State) : (clearBlock s).walkPath = State.reset.walkPath := rfl
@[simp] theorem clearBlock_encState (s : State) : (clearBlock s).encState = State.reset.encState := rfl
@[simp] theorem clearBlock_encDry (s : State) : (clearBlock s).encDry = State.reset.encDry := rfl
@[simp] theorem clearBlock_encAcc (s : State) : (clearBlock s).encAcc = State.reset.encAcc := rfl
@[simp] theorem clearBlock_encNbits (s : State) : (clearBlock s).encNbits = State.reset.encNbits := rfl
@[simp] theorem clearBlock_encBitcnt (s : State) : (clearBlock s).encBitcnt = State.reset.encBitcnt := rfl
@[simp] theorem clearBlock_encOut (s : State) : (clearBlock s).encOut = State.reset.encOut := rfl
@[simp] theorem clearBlock_encTrace (s : State) : (clearBlock s).encTrace = State.reset.encTrace := rfl
@[simp] theorem clearBlock_decState (s : State) : (clearBlock s).decState = State.reset.decState := rfl
@[simp] theorem clearBlock_decPtr (s : State) : (clearBlock s).decPtr = State.reset.decPtr := rfl
@[simp] theorem clearBlock_decOut (s : State) : (clearBlock s).decOut = State.reset.decOut := rfl
@[simp] theorem clearBlock_err (s : State) : (clearBlock s).err = State.reset.err := rfl
@[simp] theorem clearBlock_errInfo (s : State) : (clearBlock s).errInfo = State.reset.errInfo := rfl
@[simp] theorem clearBlock_inputs (s : State) : (clearBlock s).inputs = s.inputs := rfl
@[simp] theorem clearBlock_rsp (s : State) : (clearBlock s).rsp = s.rsp := rfl
@[simp] theorem clearBlock_encPort (s : State) : (clearBlock s).encPort = s.encPort := rfl
@[simp] theorem clearBlock_decPort (s : State) : (clearBlock s).decPort = s.decPort := rfl

end Sys2Proof.Machine
end

