-- ==== Sys2Proof/Laws/Outcome.lean ====
section
/-! SUPPORT. Everything the ends of a command and the common prologue can do (spec/00_scope.md R14,
spec/60_exceptions.md R220 to R222), and that every command and every step answers a next state. -/

namespace Sys2Proof.Machine

theorem respond_eq (v : Word) (s : State) : respond v s = .next { s with rsp := s.rsp ++ [⟨false, v⟩] } := rfl

theorem raise_eq (e : ErrCode) (info : BitVec 32) (s : State) : raise e info s =
    .next { s with err := e, errInfo := info, rsp := s.rsp ++ [⟨true, e.code.zeroExtend 64⟩] } := rfl

theorem refuse_eq (s : State) : refuse s = .next { s with rsp := s.rsp ++ [⟨true, s.err.code.zeroExtend 64⟩] } := rfl

@[simp] theorem unlessFaulted_of_noFault {body : State → Result} {s : State} (h : s.err = .noFault) :
    unlessFaulted body s = body s := if_pos h

@[simp] theorem unlessFaulted_of_fault {body : State → Result} {s : State} (h : s.err ≠ .noFault) :
    unlessFaulted body s = refuse s := if_neg h

@[simp] theorem requires_true (op : BitVec 8) (body : State → Result) (s : State) :
    requires true op body s = body s := rfl

@[simp] theorem requires_false (op : BitVec 8) (body : State → Result) (s : State) :
    requires false op body s = raise .seq (op.zeroExtend 32) s := rfl

@[simp] theorem keyInRange_true (a : Idx) (body : State → Result) (s : State) :
    keyInRange true a body s = body s := rfl

@[simp] theorem keyInRange_false (a : Idx) (body : State → Result) (s : State) :
    keyInRange false a body s = raise .badKey (a.zeroExtend 32) s := rfl

theorem symInRange_iff (a : Idx) : symInRange a = true ↔ a.toNat ≤ 256 := by
  rw [symInRange, decide_eq_true_eq, Config.nsym]; omega

theorem symInRange_eq_false_iff (a : Idx) : symInRange a = false ↔ 256 < a.toNat := by
  rw [symInRange, decide_eq_false_iff_not, Config.nsym]; omega

theorem nodeInRange_iff (a n : Idx) : nodeInRange a n = true ↔ a.toNat < n.toNat := by
  simp [nodeInRange]

theorem nodeInRange_eq_false_iff (a n : Idx) : nodeInRange a n = false ↔ n.toNat ≤ a.toNat := by
  simp [nodeInRange]

/-- The prologue's step 1, inverted. -/
theorem unlessFaulted_next {body : State → Result} {s t : State} (h : unlessFaulted body s = .next t) :
    (s.err = .noFault ∧ body s = .next t) ∨ (s.err ≠ .noFault ∧ refuse s = .next t) := by
  by_cases he : s.err = .noFault
  · exact .inl ⟨he, by simpa [he] using h⟩
  · exact .inr ⟨he, by simpa [he] using h⟩

/-- The prologue's step 3, inverted. -/
theorem requires_next {ok : Bool} {op : BitVec 8} {body : State → Result} {s t : State}
    (h : requires ok op body s = .next t) :
    (ok = true ∧ body s = .next t) ∨ (ok = false ∧ raise .seq (op.zeroExtend 32) s = .next t) := by
  cases ok
  · exact .inr ⟨rfl, h⟩
  · exact .inl ⟨rfl, h⟩

/-- The prologue's step 4, inverted. -/
theorem keyInRange_next {ok : Bool} {a : Idx} {body : State → Result} {s t : State}
    (h : keyInRange ok a body s = .next t) :
    (ok = true ∧ body s = .next t) ∨ (ok = false ∧ raise .badKey (a.zeroExtend 32) s = .next t) := by
  cases ok
  · exact .inr ⟨rfl, h⟩
  · exact .inl ⟨rfl, h⟩

/-- Neither a fault of the machine nor a refusal. -/
def answersNext (r : Result) : Prop := ∃ t, r = .next t

theorem respond_answersNext (v : Word) (s : State) : answersNext (respond v s) := ⟨_, rfl⟩

theorem raise_answersNext (e : ErrCode) (info : BitVec 32) (s : State) : answersNext (raise e info s) := ⟨_, rfl⟩

theorem unlessFaulted_answersNext {body : State → Result} (h : ∀ s, answersNext (body s)) (s : State) :
    answersNext (unlessFaulted body s) := by
  unfold unlessFaulted
  split
  · exact h s
  · exact ⟨_, rfl⟩

theorem requires_answersNext {ok : Bool} {op : BitVec 8} {body : State → Result} (h : ∀ s, answersNext (body s))
    (s : State) : answersNext (requires ok op body s) := by
  cases ok
  · exact raise_answersNext ..
  · exact h s

theorem keyInRange_answersNext {ok : Bool} {a : Idx} {body : State → Result} (h : ∀ s, answersNext (body s))
    (s : State) : answersNext (keyInRange ok a body s) := by
  cases ok
  · exact raise_answersNext ..
  · exact h s

theorem needsCode_answersNext {k : Nat} {body : State → Result} (h : ∀ s, answersNext (body s)) (s : State) :
    answersNext (needsCode k body s) := by
  unfold needsCode
  split
  · exact raise_answersNext ..
  · exact h s

theorem buildTree_answersNext (s : State) : answersNext (buildTree s) := by
  unfold buildTree
  dsimp only
  split
  · exact raise_answersNext ..
  · split
    · exact raise_answersNext ..
    · exact respond_answersNext ..

/-- Every command answers a next state (spec/93_implementation_defined.md, end of part 2). -/
theorem exec_answersNext (i : Instr) (s : State) : answersNext (exec i s) := by
  cases i with
  | clear => exact respond_answersNext ..
  | getStatus => exact respond_answersNext ..
  | freqPut a d => exact unlessFaulted_answersNext (keyInRange_answersNext fun _ => respond_answersNext ..) s
  | freqGet a => exact unlessFaulted_answersNext (keyInRange_answersNext fun _ => respond_answersNext ..) s
  | build => exact unlessFaulted_answersNext (fun _ => buildTree_answersNext _) s
  | nodeGet a f =>
    exact unlessFaulted_answersNext (requires_answersNext (keyInRange_answersNext fun _ => respond_answersNext ..)) s
  | release => exact unlessFaulted_answersNext (fun _ => respond_answersNext ..) s
  | gencodes => exact unlessFaulted_answersNext (requires_answersNext fun _ => respond_answersNext ..) s
  | codeLen a =>
    exact unlessFaulted_answersNext (requires_answersNext (keyInRange_answersNext fun _ => respond_answersNext ..)) s
  | codeBits a k =>
    exact unlessFaulted_answersNext (requires_answersNext (keyInRange_answersNext fun _ => respond_answersNext ..)) s
  | encStart dry => exact unlessFaulted_answersNext (requires_answersNext fun _ => respond_answersNext ..) s
  | encSym b =>
    exact unlessFaulted_answersNext (requires_answersNext (needsCode_answersNext fun _ => respond_answersNext ..)) s
  | encEnd =>
    exact unlessFaulted_answersNext (requires_answersNext (needsCode_answersNext fun _ => respond_answersNext ..)) s
  | getBitcnt => exact unlessFaulted_answersNext (fun _ => respond_answersNext ..) s
  | decStart => exact unlessFaulted_answersNext (requires_answersNext fun _ => respond_answersNext ..) s
  | decBit b =>
    refine unlessFaulted_answersNext (requires_answersNext fun s => ?_) s
    split
    · exact raise_answersNext ..
    · exact respond_answersNext ..
  | decByte v =>
    refine unlessFaulted_answersNext (requires_answersNext fun s => ?_) s
    split
    · exact raise_answersNext ..
    · exact respond_answersNext ..
  | decEod =>
    refine unlessFaulted_answersNext (requires_answersNext fun s => ?_) s
    split
    · exact raise_answersNext ..
    · exact respond_answersNext ..

/-- Every step answers a next state. -/
theorem step_answersNext (s : State) : answersNext (step s) := by
  unfold step
  split
  · exact ⟨_, rfl⟩
  · exact ⟨_, rfl⟩
  · unfold runWord
    split
    · exact exec_answersNext ..
    · exact unlessFaulted_answersNext (fun _ => raise_answersNext ..) _

end Sys2Proof.Machine
end

