-- ==== Sys2Proof/Laws/Decoder.lean ====
section
/-! SUPPORT. What delivering bits does (spec/44_decoder.md R190 to R192): the cases of one bit, and of a sequence. -/

namespace Sys2Proof.Machine

/-- An arrival changes the pointer, the state and the output only. -/
theorem arriveAt_frame (nxt : Idx) (s : State) : arriveAt nxt s =
    { s with decPtr := (arriveAt nxt s).decPtr, decState := (arriveAt nxt s).decState
             decOut := (arriveAt nxt s).decOut, decPort := (arriveAt nxt s).decPort } := by
  unfold arriveAt
  dsimp only
  split
  · rfl
  · split <;> rfl

/-- Outside state RUN a bit is discarded (R191). -/
theorem deliver_of_not_run {s : State} (h : s.decState ≠ .run) (b : Bool) : deliver b s = some s := if_neg h

/-- The cases of one delivered bit (R190, R191). -/
theorem deliver_cases (b : Bool) (s : State) :
    (s.decState ≠ .run ∧ deliver b s = some s) ∨
    (s.decState = .run ∧ childOf (s.nodeAt s.decPtr) b = Config.nullIdx ∧ deliver b s = none) ∨
    (s.decState = .run ∧ childOf (s.nodeAt s.decPtr) b ≠ Config.nullIdx ∧
      deliver b s = some (arriveAt (childOf (s.nodeAt s.decPtr) b) s)) := by
  by_cases hr : s.decState = .run
  · by_cases hc : childOf (s.nodeAt s.decPtr) b = Config.nullIdx
    · exact .inr (.inl ⟨hr, hc, by simp [deliver, decStep, hr, hc]⟩)
    · exact .inr (.inr ⟨hr, hc, by simp [deliver, decStep, hr, hc]⟩)
  · exact .inl ⟨hr, if_neg hr⟩

/-- A delivered bit changes the pointer, the state and the output only. -/
theorem deliver_frame {b : Bool} {s t : State} (h : deliver b s = some t) : t =
    { s with decPtr := t.decPtr, decState := t.decState, decOut := t.decOut, decPort := t.decPort } := by
  rcases deliver_cases b s with ⟨-, hd⟩ | ⟨-, -, hd⟩ | ⟨-, -, hd⟩
  · obtain rfl := Option.some.inj (hd.symm.trans h); rfl
  · exact absurd (hd.symm.trans h) nofun
  · obtain rfl := Option.some.inj (hd.symm.trans h); exact arriveAt_frame _ _

/-- Bits fed in two parts. -/
theorem feedBits_append (p q : List Bool) (s : State) : feedBits (p ++ q) s =
    match feedBits p s with
    | .fed t => feedBits q t
    | .absent b t => .absent b t := by
  induction p generalizing s with
  | nil => rfl
  | cons b p ih =>
    simp only [List.cons_append, feedBits]
    cases deliver b s with
    | none => rfl
    | some t => exact ih t

/-- Feeding changes the pointer, the state and the output only, whether it is cut short or not. -/
theorem feedBits_frame (p : List Bool) (s : State) :
    (∀ t, feedBits p s = .fed t → t =
      { s with decPtr := t.decPtr, decState := t.decState, decOut := t.decOut, decPort := t.decPort }) ∧
    (∀ b t, feedBits p s = .absent b t → t =
      { s with decPtr := t.decPtr, decState := t.decState, decOut := t.decOut, decPort := t.decPort }) := by
  induction p generalizing s with
  | nil => exact ⟨fun t h => by cases h; rfl, fun b t h => (nomatch h)⟩
  | cons c p ih =>
    simp only [feedBits]
    cases hd : deliver c s with
    | none => exact ⟨fun t h => (nomatch h), fun b t h => by cases h; rfl⟩
    | some u =>
      have hu := deliver_frame hd
      refine ⟨fun t h => ?_, fun b t h => ?_⟩
      · rw [(ih u).1 t h, hu]
      · rw [(ih u).2 b t h, hu]

/-- Where feeding is cut short: a part that was fed, then a bit that has no child to move to (R192). -/
theorem feedBits_absent {p : List Bool} {s t : State} {b : Bool} (h : feedBits p s = .absent b t) :
    ∃ n, n < p.length ∧ p[n]? = some b ∧ feedBits (p.take n) s = .fed t ∧ deliver b t = none := by
  induction p generalizing s with
  | nil => cases h
  | cons c p ih =>
    simp only [feedBits] at h
    cases hd : deliver c s with
    | none =>
      rw [hd] at h
      cases h
      exact ⟨0, by simp, rfl, rfl, hd⟩
    | some u =>
      rw [hd] at h
      obtain ⟨n, hn, hb, hf, ha⟩ := ih h
      exact ⟨n + 1, by simpa using hn, by simpa using hb, by simp [feedBits, hd, hf], ha⟩

end Sys2Proof.Machine
end

