-- ==== Sys2Proof/Laws/Encoder.lean ====
section
/-! SUPPORT. What emitting bits does: the trace and the count, the packing, and the frame (spec/43_encoder.md R167,
R168, R171). -/

namespace Sys2Proof.Machine

@[simp] theorem byteBits_length (v : Byte) : (byteBits v).length = 8 := by simp [byteBits]

@[simp] theorem bitsOf_nil : bitsOf [] = [] := rfl

@[simp] theorem bitsOf_append (x y : List Byte) : bitsOf (x ++ y) = bitsOf x ++ bitsOf y := by simp [bitsOf]

@[simp] theorem bitsOf_singleton (v : Byte) : bitsOf [v] = byteBits v := by simp [bitsOf]

@[simp] theorem bitsOf_length (x : List Byte) : (bitsOf x).length = 8 * x.length := by
  induction x with
  | nil => rfl
  | cons v x ih => simp_all [bitsOf]; omega

@[simp] theorem codePath_length (c : CodeEntry) : (codePath c).length = c.len.toNat := by simp [codePath]

@[simp] theorem pendingBits_length (s : State) : (pendingBits s).length = s.encNbits.toNat := by simp [pendingBits]

/-- A bit put into the packer touches the packer's registers, the records and nothing else. -/
theorem putBit_frame (s : State) (b : Bool) : putBit s b =
    { s with encTrace := s.encTrace ++ [b], encBitcnt := s.encBitcnt + 1, encAcc := (putBit s b).encAcc
             encNbits := (putBit s b).encNbits, encOut := (putBit s b).encOut, encPort := (putBit s b).encPort } := by
  unfold putBit
  split
  · rfl
  · unfold packBit
    split <;> rfl

/-- In a dry run the packer and the output stay as they are (R168). -/
theorem putBit_dry {s : State} (h : s.encDry = true) (b : Bool) : putBit s b = countBit b s := by simp [putBit, h]

/-- The eighth bit outputs a byte (R168). -/
theorem putBit_full {s : State} (h : s.encDry = false) (hn : s.encNbits = 7) (b : Bool) : putBit s b =
    { outputEnc (shiftIn s.encAcc b) (countBit b s) with encAcc := 0, encNbits := 0 } := by
  unfold putBit packBit
  rw [if_neg (by simp [h]), if_pos (by exact hn)]
  rfl

/-- An earlier bit stays in the packer (R168). -/
theorem putBit_room {s : State} (h : s.encDry = false) (hn : s.encNbits ≠ 7) (b : Bool) : putBit s b =
    { countBit b s with encAcc := shiftIn s.encAcc b, encNbits := s.encNbits + 1 } := by
  unfold putBit packBit
  rw [if_neg (by simp [h]), if_neg (by exact hn)]
  rfl

theorem getLsbD_shiftIn (acc : Byte) (b : Bool) (i : Nat) (hi : i < 8) :
    (shiftIn acc b).getLsbD i = if i = 0 then b else acc.getLsbD (i - 1) := by
  rcases i with _ | i
  · simp [shiftIn]
  · rw [if_neg (by omega), shiftIn, BitVec.getLsbD_or, BitVec.getLsbD_shiftLeft, BitVec.getLsbD_setWidth,
      BitVec.getLsbD_of_ge _ (i + 1) (by omega)]
    simp [hi]

theorem map_shiftIn (acc : Byte) (b : Bool) (n : Nat) (hn : n < 8) :
    (List.range (n + 1)).map (fun i => (shiftIn acc b).getLsbD (n + 1 - 1 - i)) =
    (List.range n).map (fun i => acc.getLsbD (n - 1 - i)) ++ [b] := by
  rw [List.range_succ, List.map_append]
  congr 1
  · refine List.map_congr_left fun i hi => ?_
    have := List.mem_range.1 hi
    rw [getLsbD_shiftIn _ _ _ (by omega), if_neg (by omega)]
    congr 1; omega
  · simpa using getLsbD_shiftIn acc b 0 (by omega)

/-- One bit more, in the packer or in an output byte (R168). -/
theorem putBit_packs {s : State} (h : s.encDry = false) (b : Bool) : ∃ new,
    (putBit s b).encOut = s.encOut ++ new ∧ (putBit s b).encPort = s.encPort ++ new ∧
    bitsOf new ++ pendingBits (putBit s b) = pendingBits s ++ [b] := by
  by_cases hn : s.encNbits = 7
  · refine ⟨[shiftIn s.encAcc b], by rw [putBit_full h hn]; rfl, by rw [putBit_full h hn]; rfl, ?_⟩
    have hp : pendingBits (putBit s b) = [] := by rw [putBit_full h hn]; rfl
    rw [hp, List.append_nil, bitsOf_singleton, pendingBits, hn]
    exact map_shiftIn s.encAcc b 7 (by omega)
  · have hlt : s.encNbits.toNat < 7 := by
      have h8 := s.encNbits.isLt
      have : s.encNbits.toNat ≠ 7 := fun h7 => hn (BitVec.eq_of_toNat_eq (by simpa using h7))
      omega
    have hs : (s.encNbits + 1).toNat = s.encNbits.toNat + 1 := by
      have h1 : (1 : BitVec 3).toNat = 1 := rfl
      rw [BitVec.toNat_add, h1]; omega
    refine ⟨[], by rw [putBit_room h hn]; simp, by rw [putBit_room h hn]; simp, ?_⟩
    rw [putBit_room h hn, bitsOf_nil, List.nil_append]
    show (List.range (s.encNbits + 1).toNat).map
      (fun i => (shiftIn s.encAcc b).getLsbD ((s.encNbits + 1).toNat - 1 - i)) = _
    rw [hs]
    exact map_shiftIn s.encAcc b _ (by omega)

/-- What a sequence of bits does to the encoder (R167). -/
theorem putBits_spec (p : List Bool) (s : State) : ∃ new,
    (p.foldl putBit s).encTrace = s.encTrace ++ p ∧
    (p.foldl putBit s).encBitcnt = s.encBitcnt + BitVec.ofNat 64 p.length ∧
    (p.foldl putBit s).encOut = s.encOut ++ new ∧ (p.foldl putBit s).encPort = s.encPort ++ new ∧
    (s.encDry = false → bitsOf new ++ pendingBits (p.foldl putBit s) = pendingBits s ++ p) ∧
    (s.encDry = true → new = [] ∧ (p.foldl putBit s).encAcc = s.encAcc ∧
      (p.foldl putBit s).encNbits = s.encNbits) ∧
    p.foldl putBit s = { s with
      encTrace := (p.foldl putBit s).encTrace, encBitcnt := (p.foldl putBit s).encBitcnt
      encAcc := (p.foldl putBit s).encAcc, encNbits := (p.foldl putBit s).encNbits
      encOut := (p.foldl putBit s).encOut, encPort := (p.foldl putBit s).encPort } := by
  induction p generalizing s with
  | nil => exact ⟨[], by simp⟩
  | cons b p ih =>
    obtain ⟨new, htr, hct, hout, hport, hpack, hdry, hframe⟩ := ih (putBit s b)
    have hf := putBit_frame s b
    have hd : (putBit s b).encDry = s.encDry := by rw [hf]
    have ht : (putBit s b).encTrace = s.encTrace ++ [b] := by rw [hf]
    have hc : (putBit s b).encBitcnt = s.encBitcnt + 1 := by rw [hf]
    have hc' : s.encBitcnt + 1 + BitVec.ofNat 64 p.length = s.encBitcnt + BitVec.ofNat 64 (b :: p).length := by
      rw [List.length_cons, Nat.add_comm p.length 1, BitVec.ofNat_add, BitVec.add_assoc]; rfl
    rw [List.foldl_cons]
    refine (Bool.eq_false_or_eq_true s.encDry).elim (fun h => ?_) (fun h => ?_)
    · refine ⟨new, ?_, ?_, ?_, ?_, by simp [h], ?_, ?_⟩
      · rw [htr, ht]; simp
      · rw [hct, hc, hc']
      · rw [hout, putBit_dry h]; rfl
      · rw [hport, putBit_dry h]; rfl
      · intro _
        obtain ⟨h1, h2, h3⟩ := hdry (hd.trans h)
        exact ⟨h1, by rw [h2, putBit_dry h]; rfl, by rw [h3, putBit_dry h]; rfl⟩
      · rw [hframe, hf]
    · obtain ⟨n1, ho1, hp1, hb1⟩ := putBit_packs h b
      refine ⟨n1 ++ new, ?_, ?_, ?_, ?_, ?_, by simp [h], ?_⟩
      · rw [htr, ht]; simp
      · rw [hct, hc, hc']
      · rw [hout, ho1]; simp
      · rw [hport, hp1]; simp
      · intro _
        have := hpack (hd.trans h)
        rw [bitsOf_append, List.append_assoc, this, ← List.append_assoc, hb1]; simp
      · rw [hframe, hf]

theorem byteBits_shiftLeft (acc : Byte) (n : Nat) (hn : n < 8) : byteBits (acc <<< (8 - n)) =
    (List.range n).map (fun i => acc.getLsbD (n - 1 - i)) ++ List.replicate (8 - n) false := by
  refine List.ext_getElem (by simp; omega) fun i h1 h2 => ?_
  have hi : i < 8 := by simpa using h1
  simp only [byteBits, List.getElem_map, List.getElem_range, List.getElem_append, List.length_map, List.length_range,
    List.getElem_replicate, BitVec.getLsbD_shiftLeft]
  split
  · rw [show 7 - i - (8 - n) = n - 1 - i by omega]; simp; omega
  · simp; omega

/-- Flushing: fewer than eight pad bits of value 0 complete the last byte (R171). -/
theorem flush_spec (s : State) : ∃ new,
    (flush s).encOut = s.encOut ++ new ∧ (flush s).encPort = s.encPort ++ new ∧
    (s.encDry = false → ∃ pad, pad < 8 ∧ bitsOf new = pendingBits s ++ List.replicate pad false) ∧
    (s.encDry = true → new = []) ∧
    flush s = { s with encOut := (flush s).encOut, encPort := (flush s).encPort, encAcc := 0, encNbits := 0 } := by
  by_cases hd : s.encDry = false ∧ s.encNbits ≠ 0
  · have hf : flush s = { outputEnc (s.encAcc <<< (8 - s.encNbits.toNat)) s with encAcc := 0, encNbits := 0 } := by
      simp only [flush]; rw [if_pos hd]
    rw [hf]
    refine ⟨[s.encAcc <<< (8 - s.encNbits.toNat)], rfl, rfl, fun _ => ⟨8 - s.encNbits.toNat, ?_, ?_⟩, ?_, rfl⟩
    · have : s.encNbits.toNat ≠ 0 := fun h => hd.2 (BitVec.eq_of_toNat_eq (by simpa using h))
      omega
    · rw [bitsOf_singleton]; exact byteBits_shiftLeft s.encAcc _ s.encNbits.isLt
    · simp [hd.1]
  · have hf : flush s = { s with encAcc := 0, encNbits := 0 } := by
      simp only [flush]; rw [if_neg hd]
    rw [hf]
    refine ⟨[], by simp, by simp, fun h => ⟨0, by omega, ?_⟩, fun _ => rfl, rfl⟩
    have : s.encNbits = 0 := by
      by_contra hn
      exact hd ⟨h, hn⟩
    simp [pendingBits, this]

end Sys2Proof.Machine
end

