-- ==== Sys2Proof/Laws/PerInstr.lean ====
section
/-! SUPPORT. Statements made per instruction. Family `Encodes`: the fields the encoder gives an instruction are those
of a command, by the requirements of spec/30_encoding.md R87, which are written without the masks of R88. -/

namespace Sys2Proof.Laws.Encodes

/-- The fields of the instruction's word meet R87 at every value of its operands. -/
def Statement (i : Instr) : Prop := i.fields.wellFormed = true

theorem clear : Statement .clear := rfl

theorem getStatus : Statement .getStatus := rfl

theorem freqPut (a : Idx) (d : Count) : Statement (.freqPut a d) := by
  have h : d.toNat < 2 ^ 32 := d.isLt
  simp [Statement, CmdFields.wellFormed, CmdFields.opListed, CmdFields.rsvZero, CmdFields.aZeroUnlessUsed,
    CmdFields.dZeroAboveUsed, Instr.fields, Instr.opcode, Instr.aOperand, Instr.dOperand, operandUse]
  exact decide_eq_true h

theorem freqGet (a : Idx) : Statement (.freqGet a) := rfl

theorem build : Statement .build := rfl

theorem nodeGet (a : Idx) (f : NodeField) : Statement (.nodeGet a f) := by cases f <;> rfl

theorem release : Statement .release := rfl

theorem gencodes : Statement .gencodes := rfl

theorem codeLen (a : Idx) : Statement (.codeLen a) := rfl

theorem codeBits (a : Idx) (k : BitVec 3) : Statement (.codeBits a k) := by
  have h : k.toNat < 2 ^ 3 := k.isLt
  simp [Statement, CmdFields.wellFormed, CmdFields.opListed, CmdFields.rsvZero, CmdFields.aZeroUnlessUsed,
    CmdFields.dZeroAboveUsed, Instr.fields, Instr.opcode, Instr.aOperand, Instr.dOperand, operandUse]
  omega

theorem encStart (dry : Bool) : Statement (.encStart dry) := by cases dry <;> rfl

theorem encSym (b : Byte) : Statement (.encSym b) := by
  have h : b.toNat < 2 ^ 8 := b.isLt
  simp [Statement, CmdFields.wellFormed, CmdFields.opListed, CmdFields.rsvZero, CmdFields.aZeroUnlessUsed,
    CmdFields.dZeroAboveUsed, Instr.fields, Instr.opcode, Instr.aOperand, Instr.dOperand, operandUse]
  omega

theorem encEnd : Statement .encEnd := rfl

theorem getBitcnt : Statement .getBitcnt := rfl

theorem decStart : Statement .decStart := rfl

theorem decBit (b : Bool) : Statement (.decBit b) := by cases b <;> rfl

theorem decByte (v : Byte) : Statement (.decByte v) := by
  have h : v.toNat < 2 ^ 8 := v.isLt
  simp [Statement, CmdFields.wellFormed, CmdFields.opListed, CmdFields.rsvZero, CmdFields.aZeroUnlessUsed,
    CmdFields.dZeroAboveUsed, Instr.fields, Instr.opcode, Instr.aOperand, Instr.dOperand, operandUse]
  omega

theorem decEod : Statement .decEod := rfl

end Sys2Proof.Laws.Encodes
end

