-- ==== Sys2Proof/Laws/Table.lean ====
section
/-! SUPPORT. The laws of the table memories: read after write, and that a write keeps the canonical form. -/

namespace Sys2Proof.Machine

section TableLaws

variable {α : Type} (dflt : α)

@[simp] theorem Table.read_nil (k : Nat) : Table.read dflt ([] : Table α) k = dflt := rfl

theorem Table.read_insert (t : Table α) (k j : Nat) (v : α) :
    Table.read dflt (Table.insert t k v) j = if j = k then v else Table.read dflt t j := by
  induction t with
  | nil => simp [Table.insert, Table.read]
  | cons e t ih =>
    obtain ⟨i, w⟩ := e
    simp only [Table.insert]
    split
    · simp [Table.read]
    · split
      · next h => subst h; simp only [Table.read]; split <;> rfl
      · next h => simp only [Table.read, ih]; split <;> split <;> simp_all

theorem Table.read_erase (t : Table α) (k j : Nat) :
    Table.read dflt (Table.erase t k) j = if j = k then dflt else Table.read dflt t j := by
  unfold Table.erase
  induction t with
  | nil => simp
  | cons e t ih =>
    obtain ⟨i, w⟩ := e
    by_cases h : i = k
    · subst h
      rw [List.filter_cons_of_neg (by simp), ih]
      simp only [Table.read]
      split <;> simp_all
    · rw [List.filter_cons_of_pos (by simpa using h)]
      simp only [Table.read, ih]
      split <;> split <;> simp_all

/-- A read after a write: the value written, inside the table; every other entry as before. -/
theorem Table.read_write [DecidableEq α] (size : Nat) (t : Table α) (k j : Nat) (v : α) :
    Table.read dflt (Table.write dflt size t k v) j = if j = k ∧ k < size then v else Table.read dflt t j := by
  unfold Table.write
  split
  · split
    · next h => rw [Table.read_erase]; simp_all
    · rw [Table.read_insert]; simp_all
  · simp_all

theorem Table.mem_insert {t : Table α} {k : Nat} {v : α} {e : Nat × α} (h : e ∈ Table.insert t k v) :
    e = (k, v) ∨ e ∈ t := by
  induction t with
  | nil => simpa [Table.insert] using h
  | cons x t ih =>
    obtain ⟨i, w⟩ := x
    simp only [Table.insert] at h
    split at h
    · simpa using h
    · split at h
      · rcases List.mem_cons.1 h with h | h <;> simp [h]
      · rcases List.mem_cons.1 h with h | h
        · simp [h]
        · rcases ih h with h | h <;> simp [h]

theorem Table.pairwise_insert {t : Table α} (k : Nat) (v : α) (h : t.Pairwise (fun x y => x.1 < y.1)) :
    (Table.insert t k v).Pairwise (fun x y => x.1 < y.1) := by
  induction t with
  | nil => simp [Table.insert]
  | cons x t ih =>
    obtain ⟨i, w⟩ := x
    obtain ⟨hx, ht⟩ := List.pairwise_cons.1 h
    simp only [Table.insert]
    split
    · next hk =>
      refine List.pairwise_cons.2 ⟨fun e he => ?_, h⟩
      rcases List.mem_cons.1 he with rfl | he
      · exact hk
      · exact Nat.lt_trans hk (hx e he)
    · split
      · next hk => subst hk; exact List.pairwise_cons.2 ⟨hx, ht⟩
      · refine List.pairwise_cons.2 ⟨fun e he => ?_, ih ht⟩
        rcases Table.mem_insert he with rfl | he
        · simp only; omega
        · exact hx e he

/-- Every write keeps the canonical form. -/
theorem Table.wf_write [DecidableEq α] (size : Nat) (t : Table α) (k : Nat) (v : α)
    (h : Table.wf dflt size t = true) : Table.wf dflt size (Table.write dflt size t k v) = true := by
  simp only [Table.wf, Bool.and_eq_true, decide_eq_true_eq, List.all_eq_true] at h ⊢
  obtain ⟨hs, ha⟩ := h
  unfold Table.write
  split
  · next hk =>
    split
    · refine ⟨hs.filter _, fun e he => ha e (List.mem_of_mem_filter he)⟩
    · next hv =>
      refine ⟨Table.pairwise_insert k v hs, fun e he => ?_⟩
      rcases Table.mem_insert he with rfl | he
      · simp [hk, hv]
      · exact ha e he
  · exact ⟨hs, ha⟩

end TableLaws

theorem readNode_writeNode (t : Table NodeEntry) (i j : Nat) (e : NodeEntry) :
    readNode (writeNode t i e) j = if j = i ∧ i < Config.nnodeMax then e else readNode t j :=
  Table.read_write _ _ _ _ _ _

theorem freqAt_setFreq (s : State) (k j : Nat) (c : Count) :
    (s.setFreq k c).freqAt j = if j = k ∧ k < Config.nsym then c else s.freqAt j :=
  Table.read_write _ _ _ _ _ _

theorem codeAt_setCode (s : State) (k j : Nat) (e : CodeEntry) :
    (s.setCode k e).codeAt j = if j = k ∧ k < Config.nsym then e else s.codeAt j :=
  Table.read_write _ _ _ _ _ _

/-- Tables in canonical form that read alike are equal. -/
theorem Table.ext_of_read [DecidableEq α] (dflt : α) (size : Nat) (t u : Table α) (ht : Table.wf dflt size t = true)
    (hu : Table.wf dflt size u = true) (h : ∀ k, Table.read dflt t k = Table.read dflt u k) : t = u := by
  simp only [Table.wf, Bool.and_eq_true, decide_eq_true_eq, List.all_eq_true] at ht hu
  have absent : ∀ (x : Table α) (k : Nat), (∀ e ∈ x, k < e.1) → Table.read dflt x k = dflt := by
    intro x k hx
    induction x with
    | nil => rfl
    | cons e x ih =>
      have h1 := hx e (by simp)
      simp only [Table.read]
      rw [if_neg (by omega)]
      exact ih (fun e he => hx e (by simp [he]))
  obtain ⟨hts, hta⟩ := ht
  obtain ⟨hus, hua⟩ := hu
  induction t generalizing u with
  | nil =>
    cases u with
    | nil => rfl
    | cons e u =>
      have := h e.1
      simp only [Table.read] at this
      have := hua e (by simp)
      simp_all
  | cons d t ih =>
    obtain ⟨hd, ht'⟩ := List.pairwise_cons.1 hts
    cases u with
    | nil =>
      have := h d.1
      simp only [Table.read] at this
      have := hta d (by simp)
      simp_all
    | cons e u =>
      obtain ⟨he, hu'⟩ := List.pairwise_cons.1 hus
      have hdd := hta d (by simp)
      have hee := hua e (by simp)
      simp only [Bool.not_eq_true', decide_eq_false_iff_not] at hdd hee
      have key : d.1 = e.1 := by
        rcases Nat.lt_trichotomy d.1 e.1 with hlt | heq | hgt
        · have := h d.1
          rw [absent (e :: u) d.1 (by
            intro x hx
            rcases List.mem_cons.1 hx with rfl | hx
            · exact hlt
            · exact Nat.lt_trans hlt (he x hx))] at this
          simp [Table.read] at this
          exact absurd this hdd.2
        · exact heq
        · have := h e.1
          rw [absent (d :: t) e.1 (by
            intro x hx
            rcases List.mem_cons.1 hx with rfl | hx
            · exact hgt
            · exact Nat.lt_trans hgt (hd x hx))] at this
          simp [Table.read] at this
          exact absurd this.symm hee.2
      have val : d.2 = e.2 := by
        have := h d.1
        simpa [Table.read, key] using this
      have hde : d = e := Prod.ext key val
      subst hde
      congr 1
      refine ih u (fun k => ?_) ht' (fun x hx => hta x (by simp [hx])) hu' (fun x hx => hua x (by simp [hx]))
      by_cases hk : k = d.1
      · subst hk
        rw [absent t _ hd, absent u _ he]
      · have := h k
        simpa [Table.read, hk] using this

end Sys2Proof.Machine
end

