-- ==== Sys2Proof/Laws/TreeBuilder.lean ====
section
/-! SUPPORT. What BUILD's parts do: the least key of a collection (spec/41_tree_builder.md R133), a node added to the
arena (R131, R135), and that the arena keeps its canonical form. -/

namespace Sys2Proof.Machine

theorem keyBelow_iff (t : Table NodeEntry) (i j : Nat) :
    keyBelow t i j = true ↔ countOf t i < countOf t j ∨ (countOf t i = countOf t j ∧ i < j) := by
  simp [keyBelow]

theorem argMin_eq_none (t : Table NodeEntry) (l : List Nat) : argMin t l = none ↔ l = [] := by
  cases l with
  | nil => simp [argMin]
  | cons i l =>
    simp only [argMin]
    cases argMin t l with
    | none => simp
    | some j => dsimp only; split <;> simp

/-- The least key is a member's, and no member's is below it (R133). -/
theorem argMin_spec {t : Table NodeEntry} {l : List Nat} {x : Nat} (h : argMin t l = some x) :
    x ∈ l ∧ ∀ z ∈ l, keyBelow t z x = false := by
  induction l generalizing x with
  | nil => cases h
  | cons i l ih =>
    simp only [argMin] at h
    cases hm : argMin t l with
    | none =>
      rw [hm] at h
      cases h
      rw [(argMin_eq_none t l).1 hm]
      simp [keyBelow]
    | some j =>
      rw [hm] at h
      dsimp only at h
      obtain ⟨hj, hl⟩ := ih hm
      have key := keyBelow_iff t
      by_cases hb : keyBelow t j i = true
      · rw [if_pos hb] at h
        cases h
        refine ⟨List.mem_cons_of_mem _ hj, fun z hz => ?_⟩
        rcases List.mem_cons.1 hz with rfl | hz
        · rw [Bool.eq_false_iff, Ne, key]
          rw [key] at hb
          omega
        · exact hl z hz
      · rw [if_neg hb] at h
        cases h
        refine ⟨List.mem_cons_self, fun z hz => ?_⟩
        rw [key] at hb
        rw [Bool.eq_false_iff, Ne, key]
        rcases List.mem_cons.1 hz with rfl | hz
        · omega
        · have := hl z hz
          rw [Bool.eq_false_iff, Ne, key] at this
          omega

theorem BuildWork.add_n (w : BuildWork) (e : NodeEntry) : (w.add e).n = w.n + 1 := rfl

theorem BuildWork.add_pq (w : BuildWork) (e : NodeEntry) : (w.add e).pq = w.pq ++ [w.n] := rfl

theorem BuildWork.readNode_add (w : BuildWork) (e : NodeEntry) (j : Nat) :
    readNode (w.add e).node j = if j = w.n ∧ w.n < Config.nnodeMax then e else readNode w.node j :=
  readNode_writeNode _ _ _ _

/-- A table of nodes in canonical form. -/
abbrev nodesWf (t : Table NodeEntry) : Prop := Table.wf nodeUnlisted Config.nnodeMax t = true

theorem nodesWf_writeNode {t : Table NodeEntry} (h : nodesWf t) (i : Nat) (e : NodeEntry) :
    nodesWf (writeNode t i e) := Table.wf_write _ _ _ _ _ h

theorem nodesWf_add {w : BuildWork} (h : nodesWf w.node) (e : NodeEntry) : nodesWf (w.add e).node :=
  nodesWf_writeNode h _ _

theorem nodesWf_addLeaf (freq : Table Count) {w : BuildWork} (h : nodesWf w.node) (sym : Nat) :
    nodesWf (addLeaf freq w sym).node := by
  unfold addLeaf
  dsimp only
  split
  · exact h
  · exact nodesWf_add h _

theorem nodesWf_makeLeaves (freq : Table Count) {w : BuildWork} (h : nodesWf w.node) :
    nodesWf (makeLeaves freq w).node := by
  unfold makeLeaves
  generalize List.range Config.nsym = l
  induction l generalizing w with
  | nil => exact h
  | cons k l ih => exact ih (nodesWf_addLeaf freq h k)

/-- The arena a merge loop leaves. -/
def MergeEnd.nodes : MergeEnd → Table NodeEntry
  | .tree w => w.node
  | .overflow w => w.node

theorem nodesWf_mergeLoop (fuel : Nat) {w : BuildWork} (h : nodesWf w.node) :
    nodesWf (mergeLoop fuel w).nodes := by
  induction fuel generalizing w with
  | zero => exact h
  | succ fuel ih =>
    simp only [mergeLoop]
    split
    · exact h
    · split
      · exact h
      · split
        · exact h
        · exact ih (nodesWf_add (w := { w with pq := _ }) h _)

theorem nodesWf_synthesiseRoot {w : BuildWork} (h : nodesWf w.node) : nodesWf (synthesiseRoot w).node := by
  unfold synthesiseRoot
  dsimp only
  exact nodesWf_writeNode h _ _

theorem nodesWf_mergeAll {w : BuildWork} (h : nodesWf w.node) : nodesWf (mergeAll w).nodes := by
  unfold mergeAll
  dsimp only
  split
  · exact nodesWf_mergeLoop _ (nodesWf_synthesiseRoot h)
  · exact nodesWf_mergeLoop _ h

end Sys2Proof.Machine
end

