-- ==== Sys2Proof/Tests/Slice0.lean ====
section
/-! SUPPORT. The model's own tests. Expected values are those of spec/95_test_vectors.md (the T<n> named), or worked out
by hand from the rule named. Then a witness for every statement that has hypotheses. -/

namespace Sys2Proof.Tests

open Sys2Proof Sys2Proof.Machine

-- One declaration at a time: the many kernel evaluations below would else each hold a thread.
set_option Elab.async false

/-! ### States the tests start from -/

/-- The state after a command. -/
def ran (i : Instr) (s : State) : State :=
  match exec i s with
  | .next t => t
  | .fault _ => s
  | .refused _ => s

theorem exec_ran (i : Instr) (s : State) : exec i s = .next (ran i s) := by
  obtain ⟨t, h⟩ := exec_answersNext i s
  simp [ran, h]

/-- The response to a command, the last one sent. -/
def answer (i : Instr) (s : State) : Option Response := (ran i s).rsp.getLast?

/-- Scenario A's map (T2). -/
def loaded : State := { State.reset with freq := [(97, 3), (98, 2), (99, 1), (256, 1)] }

/-- Scenario A's tree (T10). -/
def built : State := { loaded with
  node := [(0, ⟨97, 3, 1023, 1023⟩), (1, ⟨98, 2, 1023, 1023⟩), (2, ⟨99, 1, 1023, 1023⟩), (3, ⟨256, 1, 1023, 1023⟩),
    (4, ⟨257, 2, 2, 3⟩), (5, ⟨257, 4, 1, 4⟩), (6, ⟨257, 7, 0, 5⟩)]
  nnodes := 7, root := 6, treeValid := true }

/-- Scenario A's codes "0", "10", "110", "111" (T30). -/
def coded : State := { built with
  code := [(97, ⟨1, 0⟩), (98, ⟨2, 0b10#256 <<< 254⟩), (99, ⟨3, 0b110#256 <<< 253⟩), (256, ⟨3, 0b111#256 <<< 253⟩)]
  codesValid := true }

/-- An open encode run in which 'b' was encoded (T32, line 9). -/
def encoding : State := { coded with
  encState := .run, encAcc := 0b10, encNbits := 2, encBitcnt := 2, encTrace := [true, false] }

/-- An open dry run (T41, line 7). -/
def encodingDry : State := { coded with encState := .run, encDry := true }

/-- A finished encode run of no bytes: "111" and five pad bits (R171, R172). -/
def encoded : State := { coded with
  encState := .done, encBitcnt := 3, encTrace := [true, true, true], encOut := [0xE0], encPort := [0xE0] }

/-- An open decode run (T60, line 6). -/
def decoding : State := { coded with decState := .run, decPtr := 6 }

/-- A decode run at its end (T60, line 8, without the output). -/
def decoded : State := { coded with decState := .done, decPtr := 3 }

/-- A one-leaf tree of the literal 'a' and no end-of-stream leaf, with an open decode run (T66, third block). -/
def soleA : State := { State.reset with
  freq := [(97, 4)], node := [(0, ⟨97, 4, 1023, 1023⟩), (1, ⟨257, 4, 0, 1023⟩)], nnodes := 2, root := 1
  treeValid := true, code := [(97, ⟨1, 0⟩)], codesValid := true, decState := .run, decPtr := 1 }

/-- A block in which an index was out of range (T11, line 9). -/
def faulted : State := { built with err := .badKey, errInfo := 7 }

/-! ### Well-formedness: an ill-formed word's fields for each check (spec/30_encoding.md R87) -/

theorem smoke_opListed : CmdFields.opListed ⟨0x03, 0, 0, 0⟩ = false ∧ CmdFields.wellFormed ⟨0x03, 0, 0, 0⟩ = false := by
  decide

theorem smoke_rsvZero : CmdFields.rsvZero ⟨0x10, 1, 97, 3⟩ = false ∧ CmdFields.wellFormed ⟨0x10, 1, 97, 3⟩ = false := by
  decide

theorem smoke_aZeroUnlessUsed :
    CmdFields.aZeroUnlessUsed ⟨0x20, 0, 1, 0⟩ = false ∧ CmdFields.wellFormed ⟨0x20, 0, 1, 0⟩ = false := by decide

theorem smoke_dZeroAboveUsed :
    CmdFields.dZeroAboveUsed ⟨0x21, 0, 6, 4⟩ = false ∧ CmdFields.wellFormed ⟨0x21, 0, 6, 4⟩ = false := by decide

theorem smoke_wellFormed : CmdFields.wellFormed ⟨0x10, 0, 1023, 0xFFFFFFFF⟩ = true := by decide

/-! ### Decoding: one word of every command, written out as `op`, `rsv`, `a`, `d` (spec/30_encoding.md R86, R89) -/

theorem test_decode_clear : decode 0x0100000000000000 = .cmd .clear := by decide

theorem test_decode_getStatus : decode 0x0200000000000000 = .cmd .getStatus := by decide

theorem test_decode_freqPut : decode 0x1000006100000003 = .cmd (.freqPut 97 3) := by decide

/-- The largest well-formed `a` (T1). -/
theorem test_decode_freqPut_wide : decode 0x100003FF00000001 = .cmd (.freqPut 1023 1) := by decide

theorem test_decode_freqGet : decode 0x1100010000000000 = .cmd (.freqGet 256) := by decide

theorem test_decode_build : decode 0x2000000000000000 = .cmd .build := by decide

theorem test_decode_nodeGet : decode 0x2100000600000000 = .cmd (.nodeGet 6 .sym) ∧
    decode 0x2100000600000001 = .cmd (.nodeGet 6 .count) ∧ decode 0x2100000600000002 = .cmd (.nodeGet 6 .zero) ∧
    decode 0x2100000600000003 = .cmd (.nodeGet 6 .one) := by decide

theorem test_decode_release : decode 0x2200000000000000 = .cmd .release := by decide

theorem test_decode_gencodes : decode 0x3000000000000000 = .cmd .gencodes := by decide

theorem test_decode_codeLen : decode 0x3100006300000000 = .cmd (.codeLen 99) := by decide

theorem test_decode_codeBits : decode 0x3200010000000007 = .cmd (.codeBits 256 7) := by decide

theorem test_decode_encStart : decode 0x4000000000000000 = .cmd (.encStart false) ∧
    decode 0x4000000000000001 = .cmd (.encStart true) := by decide

theorem test_decode_encSym : decode 0x41000000000000FF = .cmd (.encSym 0xFF) := by decide

theorem test_decode_encEnd : decode 0x4200000000000000 = .cmd .encEnd := by decide

theorem test_decode_getBitcnt : decode 0x4300000000000000 = .cmd .getBitcnt := by decide

theorem test_decode_decStart : decode 0x5000000000000000 = .cmd .decStart := by decide

theorem test_decode_decBit : decode 0x5100000000000001 = .cmd (.decBit true) ∧
    decode 0x5100000000000000 = .cmd (.decBit false) := by decide

theorem test_decode_decByte : decode 0x52000000000000B8 = .cmd (.decByte 0xB8) := by decide

theorem test_decode_decEod : decode 0x5300000000000000 = .cmd .decEod := by decide

/-- T1: opcodes that are not listed. -/
theorem test_decode_unknown : decode 0 = .illegal .unknownOpcode ∧
    decode 0xFFFFFFFFFFFFFFFF = .illegal .unknownOpcode ∧ decode 0x4400000000000000 = .illegal .unknownOpcode ∧
    decode 0x5400000000000000 = .illegal .unknownOpcode := by decide

/-- T1: must-be-zero bits in `d`, in `a`, in `rsv`, and just above the used bits of `d`. -/
theorem test_decode_mustBeZero : decode 0x0100000000000001 = .illegal .mustBeZero ∧
    decode 0x0200000100000000 = .illegal .mustBeZero ∧ decode 0x1000040000000000 = .illegal .mustBeZero ∧
    decode 0x2100000600000004 = .illegal .mustBeZero ∧ decode 0x3200006300000008 = .illegal .mustBeZero ∧
    decode 0x4000000000000002 = .illegal .mustBeZero ∧ decode 0x4100000000000100 = .illegal .mustBeZero ∧
    decode 0x5100000000000002 = .illegal .mustBeZero := by decide

theorem test_decodeTableWord : decodeTableWord 64 0x2100000600000002 = some (.nodeGet 6 .zero) := by decide

/-- The very next step runs the word that `withFetchWord` presents. -/
theorem test_withFetchWord : step (State.reset.withFetchWord 64 0x1000006100000003) =
    exec (.freqPut 97 3) State.reset := by rfl

/-! ### Commands, one step each -/

theorem test_clear : answer .clear faulted = some ⟨false, 0⟩ ∧ (ran .clear faulted).err = .noFault ∧
    (ran .clear faulted).freqAt 97 = 0 := by decide +kernel

/-- T11, line 10. -/
theorem test_getStatus : answer .getStatus faulted = some ⟨false, 0x0000000700070013⟩ := by decide +kernel

/-- Every other field of STATUS (T13, line 9; T41, line 16). -/
theorem test_getStatus_fields : answer .getStatus { coded with encState := .done, encDry := true, decState := .run
                                                               decPtr := 6, encNbits := 5 } =
    some ⟨false, 0x0000000000072DB0⟩ := by decide +kernel

theorem test_freqPut : (ran (.freqPut 256 9) loaded).freqAt 256 = 9 ∧ (ran (.freqPut 256 9) loaded).freqAt 99 = 1 ∧
    (ran (.freqPut 99 0) loaded).freq = [(97, 3), (98, 2), (256, 1)] := by decide +kernel

/-- T4. -/
theorem test_freqPut_badKey : answer (.freqPut 257 1) loaded = some ⟨true, 3⟩ ∧
    (ran (.freqPut 257 1) loaded).errInfo = 257 ∧ (ran (.freqPut 257 1) loaded).freq = loaded.freq := by decide +kernel

theorem test_freqGet : answer (.freqGet 97) loaded = some ⟨false, 3⟩ ∧ answer (.freqGet 100) loaded = some ⟨false, 0⟩ ∧
    answer (.freqGet 512) loaded = some ⟨true, 3⟩ := by decide +kernel

/-- T10: ties are broken by index. -/
theorem test_build : ran .build loaded = { built with rsp := [⟨false, 0⟩] } := by decide +kernel

/-- T18, second block: the second merge overflows, where the new node would have been 4. -/
theorem test_build_overflow :
    answer .build { State.reset with freq := [(97, 0x80000000), (98, 0x7FFFFFFF), (256, 1)] } = some ⟨true, 5⟩ ∧
    (ran .build { State.reset with freq := [(97, 0x80000000), (98, 0x7FFFFFFF), (256, 1)] }).errInfo = 4 := by
  decide +kernel

/-- T11. -/
theorem test_nodeGet : answer (.nodeGet 6 .sym) built = some ⟨false, 257⟩ ∧
    answer (.nodeGet 6 .count) built = some ⟨false, 7⟩ ∧ answer (.nodeGet 0 .zero) built = some ⟨false, 1023⟩ ∧
    answer (.nodeGet 6 .one) built = some ⟨false, 5⟩ := by decide +kernel

/-- T20, first block: the Requires check comes before the index check. -/
theorem test_nodeGet_order : answer (.nodeGet 600 .sym) State.reset = some ⟨true, 2⟩ ∧
    answer (.nodeGet 7 .sym) built = some ⟨true, 3⟩ := by decide +kernel

/-- T20, second block, line 8. -/
theorem test_release : (ran .release decoding).treeValid = false ∧ (ran .release decoding).codesValid = true ∧
    (ran .release decoding).decState = .idle ∧ (ran .release decoding).status = 0x00000020 := by decide +kernel

/-- T30; a run in progress is closed (T32). -/
theorem test_gencodes : (ran .gencodes { built with encState := .run }).code = coded.code ∧
    (ran .gencodes { built with encState := .run }).encState = .idle ∧
    (ran .gencodes { built with encState := .run }).codesValid = true := by decide +kernel

/-- T33: the one-leaf tree's code is the one bit 0. -/
theorem test_gencodes_soleA : (ran .gencodes soleA).code = [(97, ⟨1, 0⟩)] := by decide +kernel

theorem test_codeLen : answer (.codeLen 99) coded = some ⟨false, 3⟩ ∧ answer (.codeLen 122) coded = some ⟨false, 0⟩ ∧
    answer (.codeLen 300) built = some ⟨true, 2⟩ := by decide +kernel

/-- T30. -/
theorem test_codeBits : answer (.codeBits 99 0) coded = some ⟨false, 0xC0000000⟩ ∧
    answer (.codeBits 256 0) coded = some ⟨false, 0xE0000000⟩ ∧ answer (.codeBits 256 7) coded = some ⟨false, 0⟩ := by
  decide +kernel

/-- T34: chunk 1 of a 44-bit code of ones. -/
theorem test_codeBits_chunk :
    answer (.codeBits 256 1) { coded with code := [(256, ⟨44, 0xFFFFFFFFFFF#256 <<< 212⟩)] } =
      some ⟨false, 0xFFF00000⟩ := by decide +kernel

/-- T45, second block, line 9: pending bits are discarded. -/
theorem test_encStart : ran (.encStart true) encoding = { encodingDry with rsp := [⟨false, 0⟩] } := by decide +kernel

/-- T40, line 13: the eighth bit outputs 0x15. -/
theorem test_encSym :
    let t := ran (.encSym 99) { encoding with encAcc := 0b1010, encNbits := 7, encBitcnt := 7 }
    t.encOut = [0x15] ∧ t.encPort = [0x15] ∧ t.encAcc = 0b10 ∧ t.encNbits = 2 ∧ t.encBitcnt = 10 := by decide +kernel

/-- T44, line 16: a byte without a code. -/
theorem test_encSym_noCode : answer (.encSym 122) encoding = some ⟨true, 6⟩ ∧
    (ran (.encSym 122) encoding).errInfo = 122 ∧ (ran (.encSym 122) encoding).encBitcnt = 2 := by decide +kernel

/-- T40, line 14: "10" and "111" and three pad bits make 0xB8. -/
theorem test_encEnd :
    let t := ran .encEnd encoding
    t.encOut = [0xB8] ∧ t.encState = .done ∧ t.encBitcnt = 5 ∧ t.encAcc = 0 ∧ t.encNbits = 0 ∧
      t.encTrace = [true, false, true, true, true] := by decide +kernel

/-- T42, line 13: a whole last byte gets no pad. -/
theorem test_encEnd_noPad : (ran .encEnd { encoding with encAcc := 0, encNbits := 5 }).encOut = [0x07] := by
  decide +kernel

theorem test_getBitcnt : answer .getBitcnt encoding = some ⟨false, 2⟩ := by decide +kernel

/-- T60, line 6; T68: with no tree it is ERR_SEQ. -/
theorem test_decStart : (ran .decStart decoded).decState = .run ∧ (ran .decStart decoded).decPtr = 6 ∧
    answer .decStart loaded = some ⟨true, 2⟩ := by decide +kernel

/-- T64: 'a' on 0, the inner node 5 on 1. -/
theorem test_decBit : (ran (.decBit false) decoding).decOut = [97] ∧ (ran (.decBit false) decoding).decPtr = 6 ∧
    (ran (.decBit true) decoding).decPtr = 5 ∧ (ran (.decBit true) decoding).decOut = [] := by decide +kernel

/-- T60, line 7. -/
theorem test_decByte : (ran (.decByte 0x15) decoding).decOut = [97, 97, 97, 98, 98] ∧
    (ran (.decByte 0x15) decoding).decPtr = 5 := by decide +kernel

/-- T66, third block: the bits before the faulting one took effect. -/
theorem test_decByte_badPath : answer (.decByte 0x20) soleA = some ⟨true, 8⟩ ∧
    (ran (.decByte 0x20) soleA).decOut = [97, 97] ∧ (ran (.decByte 0x20) soleA).errInfo = 1 := by decide +kernel

/-- T61, line 8; T60, line 9. -/
theorem test_decEod : answer .decEod { decoding with decPtr := 5 } = some ⟨true, 7⟩ ∧
    (ran .decEod { decoding with decPtr := 5 }).errInfo = 5 ∧ answer .decEod decoded = some ⟨false, 0⟩ := by
  decide +kernel

/-- T17, line 3: a refused command changes nothing. -/
theorem test_refused : ran (.freqPut 256 1) faulted = { faulted with rsp := [⟨true, 3⟩] } := by decide +kernel

/-- T1: an illegal word records `w[63:32]`. -/
theorem test_illegal : runWord 0x1000040000000000 State.reset = .next { State.reset with
    err := .illegalCmd, errInfo := 0x10000400, rsp := [⟨true, 1⟩] } := by rfl

/-! ### States that meet the invariant -/

theorem built_shape : TreeShape built.node built.nnodes.toNat built.root where
  some_leaf := by decide +kernel
  leaves_first := by decide +kernel
  leaf_form := by decide +kernel
  leaves_ascending := by decide +kernel
  children_below := by decide +kernel
  many_leaves := by decide +kernel
  one_leaf := by decide +kernel
  owned_once := by decide +kernel
  root_last := by decide +kernel
  root_internal := by decide +kernel

theorem soleA_shape : TreeShape soleA.node soleA.nnodes.toNat soleA.root where
  some_leaf := by decide +kernel
  leaves_first := by decide +kernel
  leaf_form := by decide +kernel
  leaves_ascending := by decide +kernel
  children_below := by decide +kernel
  many_leaves := by decide +kernel
  one_leaf := by decide +kernel
  owned_once := by decide +kernel
  root_last := by decide +kernel
  root_internal := by decide +kernel

theorem codes_aligned_coded : CodesLeftAligned coded := by decide +kernel

theorem codes_prefix_free_coded : CodesPrefixFree coded := by decide +kernel

theorem codes_match_coded : CodesMatchTree coded := by
  refine ⟨by decide +kernel, fun k _ hk => ?_⟩
  have h : ∀ k < 257, coded.hasCode k →
      ∃ i, i < leafCount coded.node coded.nnodes.toNat ∧ (readNode coded.node i).sym.toNat = k := by
    decide +kernel
  exact h k ‹_› hk

theorem inv_coded : Inv coded where
  freq_wf := by decide +kernel
  node_wf := by decide +kernel
  code_wf := by decide +kernel
  hidden_empty := by decide +kernel
  no_tree := by decide +kernel
  tree := fun _ => built_shape
  codes_aligned := fun _ => codes_aligned_coded
  codes_prefix_free := fun _ => codes_prefix_free_coded
  codes_match := fun _ _ => codes_match_coded
  enc_has_codes := by decide +kernel
  enc_acc := by decide +kernel
  enc_dry := by decide +kernel
  enc_done := by decide +kernel
  enc_count := by decide +kernel
  enc_packed := fun _ => ⟨0, by decide +kernel⟩
  dec_idle := by decide +kernel
  dec_run := by decide +kernel
  dec_done := by decide +kernel
  no_detail := by decide +kernel
  enc_port := by decide +kernel
  dec_port := by decide +kernel

theorem inv_encoding : Inv encoding :=
  { inv_coded with
    enc_has_codes := by decide +kernel
    enc_acc := by decide +kernel
    enc_dry := by decide +kernel
    enc_done := by decide +kernel
    enc_count := by decide +kernel
    enc_packed := fun _ => ⟨0, by decide +kernel⟩ }

theorem inv_encodingDry : Inv encodingDry :=
  { inv_coded with
    enc_has_codes := by decide +kernel
    enc_dry := by decide +kernel
    enc_done := by decide +kernel
    enc_packed := by decide +kernel }

/-- Five pad bits, the most that its three bits leave. -/
theorem inv_encoded : Inv encoded :=
  { inv_coded with
    enc_has_codes := by decide +kernel
    enc_dry := by decide +kernel
    enc_done := by decide +kernel
    enc_count := by decide +kernel
    enc_packed := fun _ => ⟨5, by decide +kernel⟩
    enc_port := by decide +kernel }

theorem inv_decoding : Inv decoding :=
  { inv_coded with
    dec_idle := by decide +kernel
    dec_run := by decide +kernel
    dec_done := by decide +kernel }

theorem inv_decoded : Inv decoded :=
  { inv_coded with
    dec_idle := by decide +kernel
    dec_run := by decide +kernel
    dec_done := by decide +kernel }

theorem inv_soleA : Inv soleA where
  freq_wf := by decide +kernel
  node_wf := by decide +kernel
  code_wf := by decide +kernel
  hidden_empty := by decide +kernel
  no_tree := by decide +kernel
  tree := fun _ => soleA_shape
  codes_aligned := fun _ => by decide +kernel
  codes_prefix_free := fun _ => by decide +kernel
  codes_match := fun _ _ => by decide +kernel
  enc_has_codes := by decide +kernel
  enc_acc := by decide +kernel
  enc_dry := by decide +kernel
  enc_done := by decide +kernel
  enc_count := by decide +kernel
  enc_packed := fun _ => ⟨0, by decide +kernel⟩
  dec_idle := by decide +kernel
  dec_run := by decide +kernel
  dec_done := by decide +kernel
  no_detail := by decide +kernel
  enc_port := by decide +kernel
  dec_port := by decide +kernel

theorem inv_faulted : Inv faulted :=
  { inv_coded with
    codes_aligned := by decide +kernel
    codes_prefix_free := by decide +kernel
    codes_match := by decide +kernel
    code_wf := by decide +kernel
    enc_has_codes := by decide +kernel
    no_detail := by decide +kernel }

/-! ### Witnesses: for every statement with hypotheses, data that meet them all, clause by clause -/

/-- EncodeInvertsDecode, StepRunsTheDecodedCommand. -/
theorem witness_StepRunsTheDecodedCommand :
    decode 0x3200010000000007 = .cmd (.codeBits 256 7) ∧
    (presentWord 0x3200010000000007 coded).inputs = [.cmd 0x3200010000000007] := ⟨by decide, rfl⟩

/-- Both directions: a well-formed word with the largest `a`, and one bit beyond what a command uses. -/
theorem witness_WellFormedFieldsDecodeToTheirOperands :
    decode 0x100003FF00000001 = .cmd (.freqPut 1023 1) ∧ (fieldsOf 0x100003FF00000001).wellFormed = true ∧
    (fieldsOf 0x3200006300000008).wellFormed = false := by decide

theorem witness_IllegalWordsFault : decode 0x5400000000000000 = .illegal .unknownOpcode ∧
    decode 0x1000040000000000 = .illegal .mustBeZero ∧ coded.err = .noFault ∧ faulted.err ≠ .noFault := by decide

theorem witness_ResetPulseAndIdleStep : built.inputs = [] ∧
    { faulted with inputs := [.rst, .cmd 0] }.inputs = .rst :: [.cmd 0] := by decide

/-- A success, a fault, a refusal, and GET_STATUS in a faulted block. -/
theorem witness_EveryCommandSendsOneResponse :
    (ran (.freqGet 97) coded).err = .noFault ∧ (ran (.freqGet 257) coded).err ≠ .noFault ∧
    (ran (.freqGet 97) faulted).err ≠ .noFault ∧ (ran .getStatus faulted).rsp = [⟨false, 0x0000000700070013⟩] := by
  decide +kernel

theorem witness_FaultedBlockRefuses : faulted.err ≠ .noFault ∧ Instr.decEod ≠ .clear ∧ Instr.decEod ≠ .getStatus ∧
    decode 0 = .illegal .unknownOpcode := by decide

/-- The two ways out, and two steps that are none: a refused command, and no event. -/
theorem witness_OnlyClearOrResetLeavesTheFault :
    (∃ t, step { faulted with inputs := [.rst] } = .next t) ∧
    (∃ t, step (presentWord 0x0100000000000000 faulted) = .next t) ∧ decode 0x0100000000000000 = .cmd .clear ∧
    (∃ t, step (presentWord 0x2000000000000000 faulted) = .next t) ∧ decode 0x2000000000000000 ≠ .cmd .clear ∧
    (∃ t, step faulted = .next t) ∧ faulted.err ≠ .noFault :=
  ⟨step_answersNext _, step_answersNext _, by decide, step_answersNext _, by decide, step_answersNext _, by decide⟩

/-- FaultChangesOnlyTheFaultRegisters and CommandsRaiseOnlyTheirFaults: a plain fault, a DEC_BIT's ERR_BAD_PATH, BUILD's
two, and a DEC_BYTE cut short at its first bit and at its last. -/
theorem witness_FaultChangesOnlyTheFaultRegisters :
    (ran (.freqPut 257 1) coded).err = .badKey ∧ (ran (.decBit true) soleA).err = .badPath ∧
    (ran .build { decoding with freq := [] }).err = .freqEmpty ∧
    (ran .build { coded with freq := [(97, 0xFFFFFFFF), (256, 1)] }).err = .countOvf ∧
    (ran (.decByte 0x80) soleA).err = .badPath ∧ (ran (.decByte 0x01) soleA).err = .badPath ∧
    coded.err = .noFault ∧ soleA.err = .noFault := by decide +kernel

/-- The five clauses; the last at the greatest index in range. -/
theorem witness_ChecksComeInOrder :
    (faulted.err ≠ .noFault ∧ decode 0 ≠ .cmd .clear ∧ decode 0 ≠ .cmd .getStatus) ∧
    (built.err = .noFault ∧ decode 0x2300000000000000 = .illegal .unknownOpcode) ∧
    (decode 0x2100000700000000 = .cmd (.nodeGet 7 .sym) ∧ requiresHolds (.nodeGet 7 .sym) State.reset = false) ∧
    (requiresHolds (.nodeGet 7 .sym) built = true ∧ indexInRange (.nodeGet 7 .sym) built = false) ∧
    (decode 0x2100000600000000 = .cmd (.nodeGet 6 .sym) ∧ requiresHolds (.nodeGet 6 .sym) built = true ∧
      indexInRange (.nodeGet 6 .sym) built = true) := by decide +kernel

/-- FreqPutWritesOneCount, FreqGetReadsOneCount, CodeLenReadsTheLength and CodeBitsReadsOneChunk: the indices where
their clauses meet, with and without a code table. -/
theorem witness_indexClauses : loaded.err = .noFault ∧ coded.err = .noFault ∧ (256 : Idx).toNat ≤ 256 ∧
    256 < (257 : Idx).toNat ∧ coded.codesValid = true ∧ loaded.codesValid = false ∧ CodesLeftAligned coded :=
  ⟨rfl, rfl, by decide, by decide, rfl, rfl, codes_aligned_coded⟩

/-- The least and the greatest total that builds, none, and one more than the greatest. -/
theorem witness_BuildSucceedsExactlyBelowTwoPow32 : State.reset.err = .noFault ∧ totalCount State.reset = 0 ∧
    totalCount { State.reset with freq := [(256, 1)] } = 1 ∧
    totalCount { State.reset with freq := [(97, 0xFFFFFFFE), (256, 1)] } = 2 ^ 32 - 1 ∧
    totalCount { State.reset with freq := [(97, 0xFFFFFFFF), (256, 1)] } = 2 ^ 32 := by decide +kernel

/-- Every statement about a BUILD that succeeds: with four leaves, and (R134) with one; and a leaf and an internal node
of its result. -/
theorem witness_builds : loaded.err = .noFault ∧ exec .build loaded = .next (ran .build loaded) ∧
    (ran .build loaded).err = .noFault ∧ (presentKeys loaded).length = 4 ∧
    leafCount (ran .build loaded).node (ran .build loaded).nnodes.toNat = 4 ∧
    (ran .build loaded).nnodes.toNat = 7 ∧ presentKeys { loaded with freq := [(256, 1)] } = [256] ∧
    leafCount (ran .build { loaded with freq := [(256, 1)] }).node 2 = 1 :=
  ⟨rfl, exec_ran _ _, by decide +kernel, by decide +kernel, by decide +kernel, by decide +kernel, by decide +kernel,
    by decide +kernel⟩

/-- Two blocks in different states with the same frequencies. -/
theorem witness_BuildDependsOnFreqAlone : loaded.err = .noFault ∧ encoding.err = .noFault ∧
    (∀ k < 257, loaded.freqAt k = encoding.freqAt k) ∧ exec .build loaded = .next (ran .build loaded) ∧
    exec .build encoding = .next (ran .build encoding) ∧ loaded ≠ encoding :=
  ⟨rfl, rfl, fun _ _ => rfl, exec_ran _ _, exec_ran _ _, by decide +kernel⟩

/-- A BUILD that succeeds and one that faults. -/
theorem witness_BuildChangesOnlyTheTreeAndItsDependants : decoding.err = .noFault ∧
    exec .build decoding = .next (ran .build decoding) ∧ (ran .build decoding).err = .noFault ∧
    exec .build { decoding with freq := [] } = .next (ran .build { decoding with freq := [] }) ∧
    (ran .build { decoding with freq := [] }).err ≠ .noFault :=
  ⟨rfl, exec_ran _ _, by decide +kernel, exec_ran _ _, by decide +kernel⟩

/-- The three clauses, at the last node in use and at the one after it. -/
theorem witness_NodeGetReadsOneField : built.err = .noFault ∧ built.treeValid = true ∧
    (6 : Idx).toNat < built.nnodes.toNat ∧ built.nnodes.toNat ≤ (7 : Idx).toNat ∧ State.reset.treeValid = false := by
  decide

/-- GENCODES' statements and DecStartPointsAtTheRoot: with a tree and without. -/
theorem witness_gencodes : encoding.err = .noFault ∧ encoding.treeValid = true ∧
    TreeShape encoding.node encoding.nnodes.toNat encoding.root ∧
    exec .gencodes encoding = .next (ran .gencodes encoding) ∧ loaded.err = .noFault ∧ loaded.treeValid = false :=
  ⟨rfl, rfl, built_shape, exec_ran _ _, rfl, rfl⟩

theorem witness_HigherCountNeverLongerCode : loaded.err = .noFault ∧
    exec .build loaded = .next (ran .build loaded) ∧ (ran .build loaded).err = .noFault ∧
    exec .gencodes (ran .build loaded) = .next (ran .gencodes (ran .build loaded)) ∧ loaded.freqAt 256 ≠ 0 ∧
    (loaded.freqAt 256).toNat < (loaded.freqAt 97).toNat :=
  ⟨rfl, exec_ran _ _, by decide +kernel, exec_ran _ _, by decide +kernel, by decide +kernel⟩

/-- EncStartOpensARun: with codes, from every encoder state, and without. -/
theorem witness_EncStartOpensARun : coded.codesValid = true ∧ encoding.codesValid = true ∧ encoded.codesValid = true ∧
    encoded.err = .noFault ∧ built.codesValid = false ∧ built.err = .noFault := by decide

/-- EncSymEmitsTheCode and EncEndEmitsTheEndCodeAndFlushes: each clause, dry and not; `soleA` has no end-of-stream
code. -/
theorem witness_encode : encoding.err = .noFault ∧ encoding.encState = .run ∧ encoding.hasCode 99 ∧
    encoding.hasCode 256 ∧ encoding.encDry = false ∧ encodingDry.encState = .run ∧ encodingDry.encDry = true ∧
    encoded.encState ≠ .run ∧ ¬ encoding.hasCode 255 ∧ ¬ { soleA with encState := .run }.hasCode 256 := by
  decide +kernel

theorem witness_FinishedEncodeRunLaws : coded.err = .noFault ∧ coded.codesValid = true ∧
    (∀ b ∈ [97, 99, (98 : Byte)], coded.hasCode b.toNat) ∧ coded.hasCode 256 := by decide +kernel

/-- DecBitTakesOneTransition: the six clauses. -/
theorem witness_DecBitTakesOneTransition :
    (coded.err = .noFault ∧ coded.decState = .idle) ∧
    (soleA.decState = .run ∧ (soleA.nodeAt soleA.decPtr).one = 0x3FF) ∧
    (decoding.decState = .run ∧ (decoding.nodeAt decoding.decPtr).one = 5 ∧ (decoding.nodeAt 5).sym = 257) ∧
    (({ decoding with decPtr := 4 } : State).nodeAt 4).one = 3 ∧ (decoding.nodeAt 3).sym = 256 ∧
    (decoding.nodeAt decoding.decPtr).zero = 0 ∧ (decoding.nodeAt 0).sym ≠ 257 ∧ (decoding.nodeAt 0).sym ≠ 256 ∧
    decoded.decState = .done := by decide +kernel

/-- T65: DONE is reached after five bits, or before the first, and the rest of the byte differs. -/
theorem witness_BitsAfterTheEndAreDiscarded :
    let s : State := { decoding with decPtr := 5 }
    (∀ i < 5, (0xB8 : Byte).getLsbD (7 - i) = (0xBF : Byte).getLsbD (7 - i)) ∧
    (∃ u, runCommands (((byteBits 0xB8).take 5).map .decBit) s = some u ∧ u.err = .noFault ∧ u.decState = .done) ∧
    (∃ u, runCommands (((byteBits 0xB8).take 0).map .decBit) decoded = some u ∧ u.err = .noFault ∧
      u.decState = .done) ∧ s.err = .noFault ∧ decoded.err = .noFault ∧ decoded.decState = .done :=
  ⟨by decide, ⟨{ decoded with decOut := [99], decPort := [99], rsp := List.replicate 5 ⟨false, 0⟩ }, by decide +kernel⟩,
    ⟨decoded, by decide +kernel⟩, rfl, rfl, rfl⟩

/-- ReleaseDropsTreeAndDecoder: a state that meets the invariant and has no tree. -/
theorem witness_ReleaseDropsTreeAndDecoder : Inv loaded ∧ loaded.treeValid = false ∧ loaded.err = .noFault ∧
    built.err = .noFault :=
  ⟨{ inv_coded with
      node_wf := by decide +kernel
      code_wf := by decide +kernel
      no_tree := by decide +kernel
      tree := fun h => absurd h (by decide)
      codes_aligned := by decide +kernel
      codes_prefix_free := by decide +kernel
      codes_match := by decide +kernel
      enc_has_codes := by decide +kernel
      dec_run := by decide +kernel
      dec_done := by decide +kernel }, rfl, rfl, rfl⟩

/-- DecByteIsEightDecBits and DecEodEndsOrTruncates: the three decoder states. -/
theorem witness_decoderStates : decoded.err = .noFault ∧ decoded.decState = .done ∧ decoding.err = .noFault ∧
    decoding.decState = .run ∧ coded.err = .noFault ∧ coded.decState = .idle := by decide

/-- A tree of several leaves and a tree of one, on which the bit 1 faults. -/
theorem witness_BadPathOnlyInASingleLeafTree : Inv decoding ∧ decoding.err = .noFault ∧ decoding.decState ≠ .idle ∧
    leafCount decoding.node decoding.nnodes.toNat ≠ 1 ∧ Inv soleA ∧ soleA.decState ≠ .idle ∧
    (ran (.decBit true) soleA).err ≠ .noFault :=
  ⟨inv_decoding, rfl, by decide, by decide +kernel, inv_soleA, by decide, by decide +kernel⟩

/-- DecodeOfEncodeIsTheInput and TruncatedPayloadIsReported, with bytes and with none. -/
theorem witness_DecodeOfEncodeIsTheInput : Inv coded ∧ coded.err = .noFault ∧ coded.treeValid = true ∧
    coded.codesValid = true ∧ (∀ b ∈ [97, 97, 97, 98, 98, (99 : Byte)], coded.hasCode b.toNat) ∧ coded.hasCode 256 ∧
    ∀ b ∈ ([] : List Byte), coded.hasCode b.toNat :=
  ⟨inv_coded, rfl, rfl, rfl, by decide +kernel, by decide +kernel, by simp⟩

theorem witness_NoEndLeafNeverDone : Inv soleA ∧ soleA.decState ≠ .done ∧
    (∀ j < soleA.nnodes.toNat, (readNode soleA.node j).sym ≠ 256) ∧
    exec (.decByte 0) soleA = .next (ran (.decByte 0) soleA) :=
  ⟨inv_soleA, by decide, by decide +kernel, exec_ran _ _⟩

/-- A read of the last symbol, and GET_STATUS in a faulted block. -/
theorem witness_ReadsAreIdempotent : isRead (.freqGet 256) = true ∧
    exec (.freqGet 256) loaded = .next (ran (.freqGet 256) loaded) ∧ (ran (.freqGet 256) loaded).err = loaded.err ∧
    loaded.err = .noFault ∧ isRead .getStatus = true ∧
    exec .getStatus faulted = .next (ran .getStatus faulted) ∧ (ran .getStatus faulted).err = faulted.err :=
  ⟨rfl, exec_ran _ _, by decide +kernel, rfl, rfl, exec_ran _ _, by decide +kernel⟩

/-- Each clause's premise is met by some command. -/
theorem witness_OnlyTheNamedCommandsWrite :
    (ran (.freqPut 256 7) loaded).freq ≠ loaded.freq ∧ (ran .build loaded).node ≠ loaded.node ∧
    (ran .release built).nnodes ≠ built.nnodes ∧ (ran .gencodes built).code ≠ built.code ∧
    (ran .gencodes built).codesValid ≠ built.codesValid ∧ (ran (.encStart true) coded).encState ≠ coded.encState ∧
    (ran (.encStart true) coded).encDry ≠ coded.encDry ∧ (ran (.encSym 97) encoding).encNbits ≠ encoding.encNbits ∧
    (ran .decStart coded).decState ≠ coded.decState ∧ (ran (.decBit false) decoding).decOut ≠ decoding.decOut := by
  decide +kernel

theorem witness_EncoderAndDecoderInterleave :
    let s : State := { encoding with decState := .run, decPtr := 6 }
    let t := ran (.encSym 99) s
    isEncoder (.encSym 99) = true ∧ isDecoder (.decByte 0x15) = true ∧ s.err = .noFault ∧
    exec (.encSym 99) s = .next t ∧ t.err = .noFault ∧
    exec (.decByte 0x15) t = .next (ran (.decByte 0x15) t) ∧ (ran (.decByte 0x15) t).err = .noFault :=
  ⟨rfl, rfl, rfl, exec_ran _ _, by decide +kernel, exec_ran _ _, by decide +kernel⟩

/-- The events a block takes change nothing the invariant speaks of. -/
theorem inv_withInputs {s : State} (h : Inv s) (l : List HostEvent) : Inv { s with inputs := l } := { h with }

/-- StepKeepsTheInvariant: blocks in every phase, about to run a command or to be reset. -/
theorem witness_StepKeepsTheInvariant :
    (Inv (presentWord 0x2000000000000000 encoding) ∧
      ∃ t, step (presentWord 0x2000000000000000 encoding) = .next t) ∧
    (Inv (presentWord 0x5200000000000020 soleA) ∧ ∃ t, step (presentWord 0x5200000000000020 soleA) = .next t) ∧
    (Inv { faulted with inputs := [.rst] } ∧ ∃ t, step { faulted with inputs := [.rst] } = .next t) ∧
    Inv encodingDry ∧ Inv encoded ∧ Inv decoded :=
  ⟨⟨inv_withInputs inv_encoding _, step_answersNext _⟩, ⟨inv_withInputs inv_soleA _, step_answersNext _⟩,
    ⟨inv_withInputs inv_faulted _, step_answersNext _⟩, inv_encodingDry, inv_encoded, inv_decoded⟩

end Sys2Proof.Tests
end

section
/-! Reset values (spec/10_state.md R51): what is at the ports does not count among them, so they hold of `State.reset`,
of any state `clearBlock` leaves, and still after a response is sent. -/

namespace Sys2Proof.Machine

theorem freqAt_reset (k : Nat) : State.reset.freqAt k = 0 := Table.read_nil freqUnlisted k

theorem hasResetValues_reset : HasResetValues State.reset where
  freq k _ := freqAt_reset k
  nnodes := rfl
  root := rfl
  treeValid := rfl
  pq := rfl
  codesValid := rfl
  walkStack := rfl
  walkPath := rfl
  encState := rfl
  encDry := rfl
  encAcc := rfl
  encNbits := rfl
  encBitcnt := rfl
  encOut := rfl
  encTrace := rfl
  decState := rfl
  decPtr := rfl
  decOut := rfl
  err := rfl
  errInfo := rfl

theorem hasResetValues_clearBlock (s : State) : HasResetValues (clearBlock s) := { hasResetValues_reset with }

theorem HasResetValues.sendResponse {s : State} (h : HasResetValues s) (r : Response) :
    HasResetValues (sendResponse r s) := { h with }

theorem hardwareReset_eq (s : State) : hardwareReset s = .next (clearBlock s) := rfl

theorem exec_clear_eq (s : State) : exec .clear s = .next (sendResponse ⟨false, 0⟩ (clearBlock s)) := rfl

/-- Settles O14: `rst` and CLEAR both go through `clearBlock`; CLEAR then only sends a response. -/
theorem resetStateHasResetValues : Obligations.ResetStateHasResetValues :=
  ⟨hasResetValues_reset,
    fun s => ⟨clearBlock s, hardwareReset_eq s, hasResetValues_clearBlock s⟩,
    fun s => ⟨_, exec_clear_eq s, (hasResetValues_clearBlock s).sendResponse _⟩⟩

end Sys2Proof.Machine
end

section
/-! The decoder's mask test (spec/30_encoding.md R88, R89) and the field requirements of R87 accept the same words. -/

namespace Sys2Proof

/-! ### The fields of a word (R86) -/

theorem packFields_fieldsOf (w : Word) : packFields (fieldsOf w) = w := by
  simp only [packFields, fieldsOf, opField, rsvField, aField, dField]
  rw [BitVec.extractLsb'_append_extractLsb'_eq_extractLsb' (by rfl : 56 = 42 + 14),
    BitVec.extractLsb'_append_extractLsb'_eq_extractLsb' (by rfl : 42 = 32 + 10),
    BitVec.extractLsb'_append_extractLsb'_eq_extractLsb' (by rfl : 32 = 0 + 32)]
  exact BitVec.extractLsb'_eq_self

theorem fieldsOf_inj {v w : Word} : fieldsOf v = fieldsOf w ↔ v = w :=
  ⟨fun h => by rw [← packFields_fieldsOf v, h, packFields_fieldsOf], congrArg fieldsOf⟩

theorem fieldsOf_and (v w : Word) : fieldsOf (v &&& w) =
    ⟨opField v &&& opField w, rsvField v &&& rsvField w, aField v &&& aField w, dField v &&& dField w⟩ := by
  simp only [fieldsOf, opField, rsvField, aField, dField, BitVec.extractLsb'_and]

/-! ### The requirements of R87 for a listed opcode -/

theorem wellFormed_of_unlisted {c : CmdFields} (h : operandUse c.op = none) : c.wellFormed = false := by
  simp [CmdFields.wellFormed, CmdFields.opListed, h]

theorem wellFormed_iff {c : CmdFields} {usesA : Bool} {n : Nat} (h : operandUse c.op = some (usesA, n)) :
    c.wellFormed = true ↔ c.rsv = 0 ∧ (usesA = true ∨ c.a = 0) ∧ c.d.toNat < 2 ^ n := by
  cases usesA <;>
    simp [CmdFields.wellFormed, CmdFields.opListed, CmdFields.rsvZero, CmdFields.aZeroUnlessUsed,
      CmdFields.dZeroAboveUsed, h, and_assoc]

/-! ### The rows of the opcode map (R89) -/

/-- The fields that a row's `mask` fixes when its command uses `a` as told and the low `n` bits of `d`. -/
def fixedFields (usesA : Bool) (n : Nat) : CmdFields :=
  ⟨BitVec.allOnes 8, BitVec.allOnes 14, if usesA then 0 else BitVec.allOnes 10, BitVec.allOnes 32 <<< n⟩

/-- The mask and match columns of R89 against its operand columns. -/
theorem opRows_fixed : ∀ r ∈ opRows, ∃ use ∈ operandUse r.op,
    fieldsOf r.fixedMask = fixedFields use.1 use.2 ∧ fieldsOf r.fixedBits = ⟨r.op, 0, 0, 0⟩ := by
  decide

/-- The opcode map and the table of operand uses list the same opcodes. -/
theorem find?_opRows_isSome (op : BitVec 8) :
    (opRows.find? (fun r => r.op == op)).isSome = (operandUse op).isSome := by
  revert op
  decide +kernel

theorem getLsbD_and_allOnes_shiftLeft (d : BitVec 32) (n i : Nat) :
    (d &&& (BitVec.allOnes 32 <<< n)).getLsbD i = (d.getLsbD i && decide (n ≤ i)) := by
  by_cases hi : i < 32
  · simp only [BitVec.getLsbD_and, BitVec.getLsbD_shiftLeft, BitVec.getLsbD_allOnes]
    by_cases hn : n ≤ i
    · simp [hi, hn, show i - n < 32 by omega]
    · simp [Nat.lt_of_not_le hn, hn]
  · simp [BitVec.getLsbD_of_ge d i (by omega)]

theorem and_allOnes_shiftLeft_eq_zero_iff (d : BitVec 32) (n : Nat) :
    d &&& (BitVec.allOnes 32 <<< n) = 0 ↔ d.toNat < 2 ^ n := by
  constructor
  · intro h
    refine Nat.lt_pow_two_of_testBit _ fun i hi => ?_
    have hbit := getLsbD_and_allOnes_shiftLeft d n i
    rw [h] at hbit
    simpa [hi, BitVec.testBit_toNat] using hbit.symm
  · intro h
    refine BitVec.eq_of_getLsbD_eq fun i _ => ?_
    rw [getLsbD_and_allOnes_shiftLeft]
    by_cases hn : n ≤ i
    · have hbit : d.getLsbD i = false := Nat.testBit_lt_two_pow (h.trans_le (Nat.pow_le_pow_right two_pos hn))
      simp [hbit]
    · simp [hn]

/-- The mask test of R88 is the requirement of R87. -/
theorem masked_eq_iff_wellFormed {r : OpRow} (hr : r ∈ opRows) {w : Word} (hop : r.op = opField w) :
    w &&& r.fixedMask = r.fixedBits ↔ (fieldsOf w).wellFormed = true := by
  obtain ⟨⟨usesA, n⟩, huse, hmask, hbits⟩ := opRows_fixed r hr
  obtain ⟨hmop, hmrsv, hma, hmd⟩ := CmdFields.mk.inj hmask
  have hwuse : operandUse (fieldsOf w).op = some (usesA, n) := (congrArg operandUse hop.symm).trans huse
  rw [wellFormed_iff hwuse, ← fieldsOf_inj, fieldsOf_and, hbits, hmop, hmrsv, hma, hmd, CmdFields.mk.injEq,
    and_allOnes_shiftLeft_eq_zero_iff, BitVec.and_allOnes, BitVec.and_allOnes]
  cases usesA
  · rw [if_neg Bool.false_ne_true, BitVec.and_allOnes]
    simp [fieldsOf, hop]
  · simp [fieldsOf, hop]

/-! ### The operands of a command are its fields (R87) -/

theorem zeroExtend_extractLsb' {d : BitVec 32} {n : Nat} (h : d.toNat < 2 ^ n) :
    (d.extractLsb' 0 n).zeroExtend 32 = d := by
  apply BitVec.eq_of_toNat_eq
  simp [Nat.mod_eq_of_lt h, Nat.mod_eq_of_lt d.isLt]

theorem nodeFieldBits_nodeFieldOf (f : BitVec 2) : nodeFieldBits (nodeFieldOf f) = f := by
  revert f; decide

theorem ofBool_getElem_zero (d : BitVec 32) : BitVec.ofBool d[0] = d.extractLsb' 0 1 :=
  BitVec.eq_of_getLsbD_eq fun i hi => by
    obtain rfl : i = 0 := by omega
    simp

/-- The operand columns of R89 against the commands the rows make: the used bits and no others. -/
theorem fields_make {r : OpRow} (hr : r ∈ opRows) {usesA : Bool} {n : Nat}
    (huse : operandUse r.op = some (usesA, n)) (a : Idx) (d : BitVec 32) :
    (r.make a d).fields = ⟨r.op, 0, if usesA then a else 0, (d.extractLsb' 0 n).zeroExtend 32⟩ := by
  simp only [opRows, opRowsLow, opRowsHigh, List.cons_append, List.nil_append, List.mem_cons, List.not_mem_nil,
    or_false] at hr
  rcases hr with rfl | rfl | rfl | rfl | rfl | rfl | rfl | rfl | rfl | rfl | rfl | rfl | rfl | rfl | rfl | rfl | rfl |
    rfl <;> cases huse <;>
    simp [Instr.fields, Instr.opcode, Instr.aOperand, Instr.dOperand, nodeFieldBits_nodeFieldOf, ofBool_getElem_zero]

theorem fields_make_of_wellFormed {r : OpRow} (hr : r ∈ opRows) {c : CmdFields} (hop : r.op = c.op)
    (h : c.wellFormed = true) : (r.make c.a c.d).fields = c := by
  obtain ⟨⟨usesA, n⟩, huse, -, -⟩ := opRows_fixed r hr
  obtain ⟨hrsv, ha, hd⟩ := (wellFormed_iff (hop ▸ huse)).1 h
  have hause : (if usesA then c.a else 0) = c.a := by
    rcases ha with rfl | ha
    · rfl
    · simp [ha]
  rw [fields_make hr huse, zeroExtend_extractLsb' hd, hause, hop, ← hrsv]

/-- The two things a word can decode to (R87, R90). -/
theorem decode_cases (w : Word) :
    (∃ i, decode w = .cmd i ∧ (fieldsOf w).wellFormed = true ∧ i.fields = fieldsOf w) ∨
    (∃ why, decode w = .illegal why ∧ (fieldsOf w).wellFormed = false) := by
  unfold decode
  cases hf : opRows.find? (fun r => r.op == opField w) with
  | none =>
    have hop : operandUse (opField w) = none := by
      rw [← Option.isNone_iff_eq_none, ← Option.not_isSome, ← find?_opRows_isSome, hf]; rfl
    exact .inr ⟨_, rfl, wellFormed_of_unlisted hop⟩
  | some r =>
    have hr : r ∈ opRows := List.mem_of_find?_eq_some hf
    have hop : r.op = opField w := by simpa using List.find?_some hf
    have hiff := masked_eq_iff_wellFormed hr hop
    dsimp only
    by_cases hm : w &&& r.fixedMask = r.fixedBits
    · exact .inl ⟨_, if_pos hm, hiff.1 hm, fields_make_of_wellFormed hr hop (hiff.1 hm)⟩
    · exact .inr ⟨_, if_neg hm, by simpa [hm] using hiff⟩

theorem fields_of_decode {w : Word} {i : Instr} (h : decode w = .cmd i) : i.fields = fieldsOf w := by
  rcases decode_cases w with ⟨j, hj, -, hfields⟩ | ⟨why, hwhy, -⟩
  · rw [hj] at h; cases h; exact hfields
  · rw [hwhy] at h; cases h

theorem decode_eq_cmd_iff (w : Word) : (∃ i, decode w = .cmd i) ↔ (fieldsOf w).wellFormed = true := by
  rcases decode_cases w with ⟨i, hd, hwf, -⟩ | ⟨why, hd, hwf⟩ <;> simp [hd, hwf]

theorem decode_eq_illegal_iff (w : Word) : (∃ why, decode w = .illegal why) ↔ (fieldsOf w).wellFormed = false := by
  rcases decode_cases w with ⟨i, hd, hwf, -⟩ | ⟨why, hd, hwf⟩ <;> simp [hd, hwf]

/-- Settles O4: the mask test of a row is the requirement on the fields, and the row's command keeps the fields. -/
theorem wellFormedFieldsDecodeToTheirOperands : Obligations.WellFormedFieldsDecodeToTheirOperands := by
  intro w
  refine ⟨decode_eq_cmd_iff w, fun i h => ?_⟩
  obtain ⟨hop, -, ha, hd⟩ := CmdFields.mk.inj (fields_of_decode h)
  exact ⟨hop, ha, hd⟩

end Sys2Proof
end

section
/-! What running one command word answers (spec/30_encoding.md R90, R93). -/

namespace Sys2Proof.Machine

/-! ### Illegal words (R90) -/

theorem runWord_of_cmd {w : Word} {i : Instr} (h : decode w = .cmd i) : runWord w = exec i := by
  funext s; simp [runWord, h]

theorem runWord_of_illegal {w : Word} {why : IllegalReason} (h : decode w = .illegal why) :
    runWord w = execIllegal w := by
  funext s; simp [runWord, h]

theorem execIllegal_of_noFault (w : Word) {s : State} (h : s.err = .noFault) : execIllegal w s =
    .next { s with err := .illegalCmd, errInfo := w.extractLsb' 32 32, rsp := s.rsp ++ [⟨true, 1⟩] } :=
  unlessFaulted_of_noFault h

theorem execIllegal_of_fault (w : Word) {s : State} (h : s.err ≠ .noFault) :
    execIllegal w s = .next { s with rsp := s.rsp ++ [⟨true, s.err.code.zeroExtend 64⟩] } :=
  unlessFaulted_of_fault h

theorem length_unlisted_opcodes :
    ((List.range 256).filter (fun op => (operandUse (BitVec.ofNat 8 op)).isNone)).length = 238 := by
  decide +kernel

/-- Settles O5: the decoder's two answers exclude each other, the opcodes are counted, and `execIllegal` runs the
word. -/
theorem illegalWordsFault : Obligations.IllegalWordsFault :=
  ⟨decode_eq_illegal_iff, length_unlisted_opcodes, fun w why s h => by
    rw [runWord_of_illegal h]
    exact ⟨execIllegal_of_noFault w, execIllegal_of_fault w⟩⟩

/-! ### What the bodies of the commands leave unchanged -/

theorem walkStep_frame (s : State) : walkStep s =
    { s with code := (walkStep s).code, walkStack := (walkStep s).walkStack, walkPath := (walkStep s).walkPath } := by
  unfold walkStep
  split
  · rfl
  · dsimp only
    split
    · rfl
    · split <;> rfl

theorem walkLoop_frame (fuel : Nat) (s : State) : walkLoop fuel s =
    { s with code := (walkLoop fuel s).code, walkStack := (walkLoop fuel s).walkStack
             walkPath := (walkLoop fuel s).walkPath } := by
  induction fuel generalizing s with
  | zero => rfl
  | succ fuel ih =>
    unfold walkLoop
    split
    · rfl
    · rw [ih, walkStep_frame]

/-- GENCODES' body writes the code table, its valid bit and the encoder's state, and leaves the walker empty. -/
theorem generateCodes_frame (s : State) : generateCodes s =
    { s with code := (generateCodes s).code, codesValid := true, encState := .idle, walkStack := []
             walkPath := [] } := by
  unfold generateCodes
  dsimp only
  rw [walkLoop_frame]
  rfl

theorem emitCode_frame (k : Nat) (s : State) : emitCode k s =
    { s with encTrace := (emitCode k s).encTrace, encBitcnt := (emitCode k s).encBitcnt
             encAcc := (emitCode k s).encAcc, encNbits := (emitCode k s).encNbits
             encOut := (emitCode k s).encOut, encPort := (emitCode k s).encPort } := by
  obtain ⟨_, -, -, -, -, -, -, hframe⟩ := putBits_spec (codePath (s.codeAt k)) s
  exact hframe

theorem flush_frame (s : State) : flush s =
    { s with encOut := (flush s).encOut, encPort := (flush s).encPort, encAcc := 0, encNbits := 0 } := by
  obtain ⟨_, -, -, -, -, hframe⟩ := flush_spec s
  exact hframe

/-! ### One response (R93) -/

/-- The command run in `s` left a fault recorded and answered with its code, once. -/
def AnswersFault (s : State) (r : Result) : Prop :=
  ∃ t, r = .next t ∧ t.err ≠ .noFault ∧ t.rsp = s.rsp ++ [⟨true, t.err.code.zeroExtend 64⟩]

/-- The command run in `s` answered once: with `v` and no fault recorded, or with the code of the fault recorded. -/
def AnswersOnce (v : Word) (s : State) (r : Result) : Prop :=
  (∃ t, r = .next t ∧ t.err = .noFault ∧ t.rsp = s.rsp ++ [⟨false, v⟩]) ∨ AnswersFault s r

section
variable {v : Word} {s u : State} {body : State → Result}

theorem respond_answersOnce (herr : u.err = .noFault) (hrsp : u.rsp = s.rsp) : AnswersOnce v s (respond v u) :=
  .inl ⟨_, rfl, herr, by simp [hrsp]⟩

theorem raise_answersOnce {e : ErrCode} {info : BitVec 32} (he : e ≠ .noFault) (hrsp : u.rsp = s.rsp) :
    AnswersOnce v s (raise e info u) :=
  .inr ⟨_, rfl, he, by simp [hrsp]⟩

theorem refuse_answersFault (herr : s.err ≠ .noFault) : AnswersFault s (refuse s) := ⟨_, rfl, herr, rfl⟩

theorem execIllegal_answersFault (w : Word) (s : State) : AnswersFault s (execIllegal w s) := by
  by_cases herr : s.err = .noFault
  · exact ⟨_, execIllegal_of_noFault w herr, nofun, rfl⟩
  · exact ⟨_, execIllegal_of_fault w herr, herr, rfl⟩

theorem unlessFaulted_answersOnce (h : s.err = .noFault → AnswersOnce v s (body s)) :
    AnswersOnce v s (unlessFaulted body s) := by
  by_cases herr : s.err = .noFault
  · rw [unlessFaulted_of_noFault herr]; exact h herr
  · rw [unlessFaulted_of_fault herr]; exact .inr (refuse_answersFault herr)

theorem requires_answersOnce {ok : Bool} {op : BitVec 8} (h : AnswersOnce v s (body s)) :
    AnswersOnce v s (requires ok op body s) := by
  cases ok
  · exact raise_answersOnce (by decide) rfl
  · exact h

theorem keyInRange_answersOnce {ok : Bool} {a : Idx} (h : AnswersOnce v s (body s)) :
    AnswersOnce v s (keyInRange ok a body s) := by
  cases ok
  · exact raise_answersOnce (by decide) rfl
  · exact h

theorem needsCode_answersOnce {k : Nat} (h : AnswersOnce v s (body s)) : AnswersOnce v s (needsCode k body s) := by
  unfold needsCode
  split
  · exact raise_answersOnce (by decide) rfl
  · exact h

theorem buildTree_answersOnce (herr : u.err = .noFault) (hrsp : u.rsp = s.rsp) : AnswersOnce 0 s (buildTree u) := by
  unfold buildTree
  dsimp only
  split
  · exact raise_answersOnce (by decide) hrsp
  · split
    · exact raise_answersOnce (by decide) hrsp
    · exact respond_answersOnce herr hrsp

end

theorem selectField_eq_resultData (a : Idx) (f : NodeField) (s : State) :
    selectField (s.nodeAt a) f = resultData (.nodeGet a f) s := by
  cases f <;> rfl

/-- Every command but GET_STATUS: its result or the code of the fault it leaves recorded (R93). -/
theorem exec_answersOnce {i : Instr} (hi : i ≠ .getStatus) (s : State) :
    AnswersOnce (resultData i s) s (exec i s) := by
  cases i with
  | clear => exact respond_answersOnce rfl rfl
  | getStatus => exact absurd rfl hi
  | freqPut a d => exact unlessFaulted_answersOnce fun he => keyInRange_answersOnce (respond_answersOnce he rfl)
  | freqGet a => exact unlessFaulted_answersOnce fun he => keyInRange_answersOnce (respond_answersOnce he rfl)
  | build =>
    change AnswersOnce 0 s (execBuild s)
    exact unlessFaulted_answersOnce fun he => buildTree_answersOnce he rfl
  | nodeGet a f =>
    rw [← selectField_eq_resultData]
    exact unlessFaulted_answersOnce fun he =>
      requires_answersOnce (keyInRange_answersOnce (respond_answersOnce he rfl))
  | release =>
    change AnswersOnce 0 s (execRelease s)
    exact unlessFaulted_answersOnce fun he => respond_answersOnce he rfl
  | gencodes =>
    refine unlessFaulted_answersOnce fun he => requires_answersOnce ?_
    rw [generateCodes_frame]
    exact respond_answersOnce he rfl
  | codeLen a =>
    exact unlessFaulted_answersOnce fun he =>
      requires_answersOnce (keyInRange_answersOnce (respond_answersOnce he rfl))
  | codeBits a k =>
    exact unlessFaulted_answersOnce fun he =>
      requires_answersOnce (keyInRange_answersOnce (respond_answersOnce he rfl))
  | encStart dry => exact unlessFaulted_answersOnce fun he => requires_answersOnce (respond_answersOnce he rfl)
  | encSym b =>
    refine unlessFaulted_answersOnce fun he => requires_answersOnce (needsCode_answersOnce ?_)
    rw [emitCode_frame]
    exact respond_answersOnce he rfl
  | encEnd =>
    refine unlessFaulted_answersOnce fun he => requires_answersOnce (needsCode_answersOnce ?_)
    rw [flush_frame, emitCode_frame]
    exact respond_answersOnce he rfl
  | getBitcnt => exact unlessFaulted_answersOnce fun he => respond_answersOnce he rfl
  | decStart => exact unlessFaulted_answersOnce fun he => requires_answersOnce (respond_answersOnce he rfl)
  | decBit b =>
    refine unlessFaulted_answersOnce fun he => requires_answersOnce ?_
    cases hd : deliver b s with
    | none => exact raise_answersOnce (by decide) rfl
    | some t =>
      rw [deliver_frame hd]
      exact respond_answersOnce he rfl
  | decByte v =>
    refine unlessFaulted_answersOnce fun he => requires_answersOnce ?_
    obtain ⟨hfed, habsent⟩ := feedBits_frame (byteBits v) s
    cases hf : feedBits (byteBits v) s with
    | absent b t =>
      rw [habsent b t hf]
      exact raise_answersOnce (by decide) rfl
    | fed t =>
      rw [hfed t hf]
      exact respond_answersOnce he rfl
  | decEod =>
    refine unlessFaulted_answersOnce fun he => requires_answersOnce ?_
    split
    · exact raise_answersOnce (by decide) rfl
    · exact respond_answersOnce he rfl

theorem exec_getStatus_eq (s : State) :
    exec .getStatus s = .next (sendResponse ⟨false, resultData .getStatus s⟩ s) := rfl

/-- Settles O8: GET_STATUS answers its word in any state, every other command its result or the code of the fault
recorded, and an illegal word such a code. -/
theorem everyCommandSendsOneResponse : Obligations.EveryCommandSendsOneResponse := by
  intro s w
  rcases hd : decode w with i | why
  · rw [runWord_of_cmd hd]
    by_cases hi : i = .getStatus
    · subst hi
      exact ⟨_, _, exec_getStatus_eq s, rfl, by simp, nofun, fun _ => ⟨_, rfl, rfl⟩⟩
    · rcases exec_answersOnce hi s with ⟨t, ht, herr, hrsp⟩ | ⟨t, ht, herr, hrsp⟩
      · exact ⟨t, _, ht, hrsp, by simp [herr], nofun, fun _ => ⟨i, rfl, rfl⟩⟩
      · exact ⟨t, _, ht, hrsp, by simp [herr, hi], fun _ => rfl, nofun⟩
  · obtain ⟨t, ht, herr, hrsp⟩ := execIllegal_answersFault w s
    rw [runWord_of_illegal hd]
    exact ⟨t, _, ht, hrsp, by simp [herr], fun _ => rfl, nofun⟩

end Sys2Proof.Machine
end

section
/-! FREQ_PUT and FREQ_GET (spec/40_freq_table.md R121, R122). -/

namespace Sys2Proof.Machine

/-! ### A command whose only check is its symbol operand (spec/60_exceptions.md R222) -/

theorem unlessFaulted_symInRange_of_le {s : State} {a : Idx} {body : State → Result} (herr : s.err = .noFault)
    (ha : a.toNat ≤ 256) : unlessFaulted (keyInRange (symInRange a) a body) s = body s := by
  rw [unlessFaulted_of_noFault herr, (symInRange_iff a).2 ha, keyInRange_true]

theorem unlessFaulted_symInRange_of_gt {s : State} {a : Idx} {body : State → Result} (herr : s.err = .noFault)
    (ha : 256 < a.toNat) :
    unlessFaulted (keyInRange (symInRange a) a body) s = raise .badKey (a.zeroExtend 32) s := by
  rw [unlessFaulted_of_noFault herr, (symInRange_eq_false_iff a).2 ha, keyInRange_false]

/-! ### One count of the table -/

theorem freqAt_setFreq_same (s : State) {k : Nat} (c : Count) (hk : k ≤ 256) : (s.setFreq k c).freqAt k = c := by
  rw [freqAt_setFreq, if_pos ⟨rfl, Nat.lt_succ_of_le hk⟩]

theorem freqAt_setFreq_of_ne (s : State) {j k : Nat} (c : Count) (h : j ≠ k) :
    (s.setFreq k c).freqAt j = s.freqAt j := by
  rw [freqAt_setFreq, if_neg (h ·.1)]

/-- Settles O17: in range the command is `setFreq` and a response, out of range it raises ERR_BAD_KEY. -/
theorem freqPutWritesOneCount : Obligations.FreqPutWritesOneCount := by
  intro s a d herr
  constructor
  · intro ha
    exact ⟨sendResponse ⟨false, 0⟩ (s.setFreq a.toNat d), unlessFaulted_symInRange_of_le herr ha,
      freqAt_setFreq_same s d ha, fun _ hk => freqAt_setFreq_of_ne s d hk, rfl⟩
  · exact unlessFaulted_symInRange_of_gt herr

/-- Settles O18: in range the command answers `freqAt`, out of range it raises ERR_BAD_KEY. -/
theorem freqGetReadsOneCount : Obligations.FreqGetReadsOneCount := by
  intro s a herr
  constructor
  · exact unlessFaulted_symInRange_of_le herr
  · exact unlessFaulted_symInRange_of_gt herr

end Sys2Proof.Machine
end

section
/-! NODE_GET and RELEASE (spec/41_tree_builder.md R141, R142). -/

namespace Sys2Proof.Machine

/-! ### A command with a Requires condition (spec/60_exceptions.md R222) -/

section
variable {s : State} {ok : Bool} {op : BitVec 8} {body : State → Result} (herr : s.err = .noFault)
include herr

theorem unlessFaulted_requires_of_true (hok : ok = true) : unlessFaulted (requires ok op body) s = body s := by
  rw [unlessFaulted_of_noFault herr, hok, requires_true]

theorem unlessFaulted_requires_of_false (hok : ok = false) :
    unlessFaulted (requires ok op body) s = raise .seq (op.zeroExtend 32) s := by
  rw [unlessFaulted_of_noFault herr, hok, requires_false]

end

/-! ### NODE_GET (R141) -/

section
variable {s : State} {a : Idx} (f : NodeField) (herr : s.err = .noFault)
include herr

theorem exec_nodeGet_of_lt (htree : s.treeValid = true) (ha : a.toNat < s.nnodes.toNat) :
    exec (.nodeGet a f) s = respond (selectField (s.nodeAt a) f) s :=
  (unlessFaulted_requires_of_true herr htree).trans (by rw [(nodeInRange_iff a _).2 ha, keyInRange_true])

theorem exec_nodeGet_of_no_tree (htree : s.treeValid = false) : exec (.nodeGet a f) s = raise .seq 0x21 s :=
  unlessFaulted_requires_of_false herr htree

theorem exec_nodeGet_of_ge (htree : s.treeValid = true) (ha : s.nnodes.toNat ≤ a.toNat) :
    exec (.nodeGet a f) s = raise .badKey (a.zeroExtend 32) s :=
  (unlessFaulted_requires_of_true herr htree).trans (by rw [(nodeInRange_eq_false_iff a _).2 ha, keyInRange_false])

end

/-- Settles O27: one lemma per outcome of the two checks. -/
theorem nodeGetReadsOneField : Obligations.NodeGetReadsOneField := fun _ _ herr =>
  ⟨fun htree ha =>
    ⟨exec_nodeGet_of_lt .sym herr htree ha, exec_nodeGet_of_lt .count herr htree ha,
      exec_nodeGet_of_lt .zero herr htree ha, exec_nodeGet_of_lt .one herr htree ha⟩,
    fun htree f => exec_nodeGet_of_no_tree f herr htree, fun htree ha f => exec_nodeGet_of_ge f herr htree ha⟩

/-! ### RELEASE (R142) -/

/-- What RELEASE leaves, before its response. -/
def releaseTree (s : State) : State :=
  { s with treeValid := false, nnodes := 0, root := 0x3FF, decState := .idle, decPtr := 0x3FF }

theorem exec_release_of_noFault {s : State} (herr : s.err = .noFault) : exec .release s = respond 0 (releaseTree s) :=
  unlessFaulted_of_noFault (body := fun s => respond 0 (releaseTree s)) herr

/-- With no tree the invariant puts `NNODES` and `ROOT` at their reset values (R28), and no decode run can be under
way or finished (R43). -/
theorem Inv.releaseTree_eq {s : State} (hinv : Inv s) (htree : s.treeValid = false) : releaseTree s = s := by
  obtain ⟨hnnodes, hroot⟩ := hinv.no_tree htree
  have hidle : s.decState = .idle := by
    cases hd : s.decState with
    | idle => rfl
    | run => exact absurd (hinv.dec_run hd).1 (by simp [htree])
    | done => exact absurd (hinv.dec_done hd).1 (by simp [htree])
  have hptr := hinv.dec_idle hidle
  cases s
  subst htree hnnodes hroot hidle hptr
  rfl

/-- Settles O28: what RELEASE writes, and that with no tree it is there already. -/
theorem releaseDropsTreeAndDecoder : Obligations.ReleaseDropsTreeAndDecoder := fun s herr =>
  ⟨exec_release_of_noFault herr, fun hinv htree => by
    rw [exec_release_of_noFault herr, hinv.releaseTree_eq htree, respond_eq]⟩

end Sys2Proof.Machine
end

section
/-! Step 1 of BUILD (spec/41_tree_builder.md R131): the leaves are the present symbols, in order. -/

namespace Sys2Proof.Machine

/-! ### The frequency map -/

theorem mem_presentKeys {s : State} {k : Nat} : k ∈ presentKeys s ↔ k < 257 ∧ s.freqAt k ≠ 0 := by
  simp [presentKeys, Config.nsym]

theorem presentKeys_length_le (s : State) : (presentKeys s).length ≤ 257 :=
  (List.length_filter_le _ _).trans_eq List.length_range

theorem presentKeys_sortedLT (s : State) : (presentKeys s).SortedLT :=
  (List.pairwise_lt_range.filter _).sortedLT

theorem presentKeys_lt (s : State) (i : Nat) (hi : i < (presentKeys s).length) : (presentKeys s)[i] < 257 :=
  (mem_presentKeys.1 (List.getElem_mem hi)).1

/-- The absent symbols count nothing. -/
theorem sum_presentKeys (s : State) : ((presentKeys s).map (fun k => (s.freqAt k).toNat)).sum = totalCount s := by
  unfold presentKeys totalCount
  induction List.range Config.nsym with
  | nil => rfl
  | cons k ks ih =>
    by_cases hk : s.freqAt k = 0
    · rw [List.filter_cons_of_neg (by simpa using hk), ih]
      simp [hk]
    · rw [List.filter_cons_of_pos (by simpa using hk), List.map_cons, List.sum_cons, ih, List.map_cons, List.sum_cons]

/-! ### A node added to the arena -/

theorem BuildWork.readNode_add_self {w : BuildWork} (hw : w.n < 513) (e : NodeEntry) :
    readNode (w.add e).node w.n = e := by
  rw [BuildWork.readNode_add, if_pos ⟨rfl, hw⟩]

theorem BuildWork.readNode_add_of_lt {w : BuildWork} {j : Nat} (hj : j < w.n) (e : NodeEntry) :
    readNode (w.add e).node j = readNode w.node j := by
  rw [BuildWork.readNode_add, if_neg (by omega)]

/-! ### The leaves -/

theorem leafNode_sym_toNat {k : Nat} (hk : k < 257) (c : Count) : (leafNode k c).sym.toNat = k :=
  (BitVec.toNat_ofNat k 9).trans (Nat.mod_eq_of_lt (hk.trans (by decide)))

theorem leafNode_sym_ne_internal {k : Nat} (hk : k < 257) (c : Count) : (leafNode k c).sym ≠ Config.internalSym := by
  intro he
  have hsym := leafNode_sym_toNat hk c
  rw [he] at hsym
  change 257 = k at hsym
  omega

/-- `w` holds the leaves of the symbols `ks` and nothing else. -/
structure HoldsLeaves (s : State) (ks : List Nat) (w : BuildWork) : Prop where
  n : w.n = ks.length
  pq : w.pq = List.range ks.length
  node : ∀ (i : Nat) (hi : i < ks.length), readNode w.node i = leafNode ks[i] (s.freqAt ks[i])

theorem HoldsLeaves.addLeaf_present {s : State} {ks : List Nat} {w : BuildWork} (h : HoldsLeaves s ks w)
    (hks : ks.length < 513) {k : Nat} (hk : s.freqAt k ≠ 0) : HoldsLeaves s (ks ++ [k]) (addLeaf s.freq w k) := by
  have hadd : addLeaf s.freq w k = w.add (leafNode k (s.freqAt k)) := if_neg hk
  rw [hadd]
  refine ⟨?_, ?_, fun i hi => ?_⟩
  · rw [BuildWork.add_n, h.n, List.length_append, List.length_singleton]
  · rw [BuildWork.add_pq, h.pq, h.n, List.length_append, List.length_singleton, List.range_succ]
  · rcases Nat.lt_or_ge i ks.length with hlt | hge
    · rw [BuildWork.readNode_add_of_lt (h.n ▸ hlt), h.node i hlt, List.getElem_append_left hlt]
    · obtain rfl : i = w.n := by
        have := h.n
        simp at hi
        omega
      rw [BuildWork.readNode_add_self (by have := h.n; omega)]
      simp [h.n]

/-- Leaf creation goes through the symbols in ascending order; after the first `m` it holds the leaves of those
present. -/
theorem holdsLeaves_foldl (s : State) {m : Nat} (hm : m ≤ 257) :
    HoldsLeaves s ((List.range m).filter (fun k => s.freqAt k ≠ 0))
      ((List.range m).foldl (addLeaf s.freq) ⟨s.node, [], 0⟩) := by
  induction m with
  | zero => exact ⟨rfl, rfl, fun _ hi => absurd hi (Nat.not_lt_zero _)⟩
  | succ m ih =>
    have ih := ih (Nat.le_of_succ_le hm)
    rw [List.range_succ, List.filter_append, List.foldl_append, List.foldl_cons, List.foldl_nil]
    by_cases hk : s.freqAt m = 0
    · have hskip : ∀ w, addLeaf s.freq w m = w := fun w => if_pos hk
      rw [hskip, List.filter_cons_of_neg (by simpa using hk), List.filter_nil, List.append_nil]
      exact ih
    · rw [List.filter_cons_of_pos (by simpa using hk), List.filter_nil]
      refine ih.addLeaf_present ?_ hk
      have := List.length_filter_le (fun k => decide (s.freqAt k ≠ 0)) (List.range m)
      rw [List.length_range] at this
      omega

/-- What BUILD works on after step 1. -/
abbrev leafWork (s : State) : BuildWork := makeLeaves s.freq ⟨s.node, [], 0⟩

theorem holdsLeaves_leafWork (s : State) : HoldsLeaves s (presentKeys s) (leafWork s) :=
  holdsLeaves_foldl s (m := 257) le_rfl

end Sys2Proof.Machine
end

section
/-! Step 4 of BUILD (spec/41_tree_builder.md R133, R135): the merge loop and its invariant. -/

namespace Sys2Proof.Machine

/-! ### The two least keys (R133) -/

/-- The key of node `j`: its count, then its index. -/
def nodeKey (t : Table NodeEntry) (j : Nat) : ℕ ×ₗ ℕ := toLex (countOf t j, j)

theorem nodeKey_injective (t : Table NodeEntry) : Function.Injective (nodeKey t) := fun _ _ h =>
  congrArg (fun p => (ofLex p).2) h

theorem keyBelow_iff_nodeKey_lt (t : Table NodeEntry) (i j : Nat) :
    keyBelow t i j = true ↔ nodeKey t i < nodeKey t j := by
  rw [keyBelow_iff, nodeKey, nodeKey, Prod.Lex.toLex_lt_toLex]

theorem nodeKey_le_of_argMin {t : Table NodeEntry} {q : List Nat} {x z : Nat} (h : argMin t q = some x)
    (hz : z ∈ q) : nodeKey t x ≤ nodeKey t z := by
  rw [← not_lt, ← keyBelow_iff_nodeKey_lt, (argMin_spec h).2 z hz]
  exact Bool.false_ne_true

theorem countOf_congr {t u : Table NodeEntry} {i : Nat} (h : readNode u i = readNode t i) :
    countOf u i = countOf t i := by
  rw [countOf, countOf, h]

/-- `x` and `y` are the two members of `q` with the least keys, in this order. -/
structure TwoLeast (t : Table NodeEntry) (q : List Nat) (x y : Nat) : Prop where
  zero_mem : x ∈ q
  one_mem : y ∈ q
  zero_lt_one : nodeKey t x < nodeKey t y
  one_lt_rest : ∀ z ∈ q, z ≠ x → z ≠ y → nodeKey t y < nodeKey t z

theorem TwoLeast.ne {t : Table NodeEntry} {q : List Nat} {x y : Nat} (h : TwoLeast t q x y) : y ≠ x := fun he =>
  absurd h.zero_lt_one (he ▸ lt_irrefl _)

theorem twoLeast_of_argMin {t : Table NodeEntry} {q : List Nat} (hq : q.Nodup) {x y : Nat}
    (hx : argMin t q = some x) (hy : argMin t (q.erase x) = some y) : TwoLeast t q x y := by
  obtain ⟨hyx, hyq⟩ := hq.mem_erase_iff.1 (argMin_spec hy).1
  have hlt {i j : Nat} (hle : nodeKey t i ≤ nodeKey t j) (hne : j ≠ i) : nodeKey t i < nodeKey t j :=
    lt_of_le_of_ne hle ((nodeKey_injective t).ne hne.symm)
  exact ⟨(argMin_spec hx).1, hyq, hlt (nodeKey_le_of_argMin hx hyq) hyx,
    fun z hz hzx hzy => hlt (nodeKey_le_of_argMin hy (hq.mem_erase_iff.2 ⟨hzx, hz⟩)) hzy⟩

theorem TwoLeast.congr {t u : Table NodeEntry} {q : List Nat} {x y : Nat} (h : TwoLeast t q x y)
    (hread : ∀ j ∈ q, readNode u j = readNode t j) : TwoLeast u q x y := by
  have hkey : ∀ j ∈ q, nodeKey u j = nodeKey t j := fun j hj => by
    rw [nodeKey, nodeKey, countOf_congr (hread j hj)]
  refine ⟨h.zero_mem, h.one_mem, ?_, fun z hz hzx hzy => ?_⟩
  · rw [hkey x h.zero_mem, hkey y h.one_mem]
    exact h.zero_lt_one
  · rw [hkey y h.one_mem, hkey z hz]
    exact h.one_lt_rest z hz hzx hzy

/-! ### One turn of the loop (R135) -/

/-- The children leave `PQ`; their parent takes the next free index and enters it. -/
def BuildWork.merge (w : BuildWork) (x y : Nat) : BuildWork :=
  BuildWork.add { w with pq := (w.pq.erase x).erase y }
    (innerNode (countOf w.node x + countOf w.node y) (BitVec.ofNat 10 x) (BitVec.ofNat 10 y))

@[simp] theorem BuildWork.merge_n (w : BuildWork) (x y : Nat) : (w.merge x y).n = w.n + 1 := rfl

@[simp] theorem BuildWork.merge_pq (w : BuildWork) (x y : Nat) :
    (w.merge x y).pq = (w.pq.erase x).erase y ++ [w.n] := rfl

theorem BuildWork.readNode_merge_of_lt {w : BuildWork} (x y : Nat) {j : Nat} (hj : j < w.n) :
    readNode (w.merge x y).node j = readNode w.node j :=
  BuildWork.readNode_add_of_lt (w := { w with pq := _ }) hj _

theorem BuildWork.readNode_merge_self {w : BuildWork} (x y : Nat) (hw : w.n < 513) :
    readNode (w.merge x y).node w.n =
      innerNode (countOf w.node x + countOf w.node y) (BitVec.ofNat 10 x) (BitVec.ofNat 10 y) :=
  BuildWork.readNode_add_self (w := { w with pq := _ }) hw _

theorem BuildWork.countOf_merge_self {w : BuildWork} {x y : Nat} (hw : w.n < 513)
    (hfit : countOf w.node x + countOf w.node y < 2 ^ 32) :
    countOf (w.merge x y).node w.n = countOf w.node x + countOf w.node y := by
  rw [countOf, BuildWork.readNode_merge_self x y hw]
  exact (BitVec.toNat_ofNat _ 32).trans (Nat.mod_eq_of_lt hfit)

theorem toNat_ofNat_ten {x : Nat} (hx : x < 1024) : (BitVec.ofNat 10 x).toNat = x :=
  (BitVec.toNat_ofNat x 10).trans (Nat.mod_eq_of_lt hx)

/-- What a turn of the merge loop does: end with fewer than two members, else merge the two least, whose counts
must fit. -/
theorem mergeLoop_turn (fuel : Nat) {w : BuildWork} (hq : w.pq.Nodup) :
    (w.pq.length ≤ 1 ∧ mergeLoop (fuel + 1) w = .tree w) ∨
    ∃ x y, TwoLeast w.node w.pq x y ∧
      (2 ^ 32 ≤ countOf w.node x + countOf w.node y ∧ mergeLoop (fuel + 1) w = .overflow { w with pq := [] } ∨
       countOf w.node x + countOf w.node y < 2 ^ 32 ∧ mergeLoop (fuel + 1) w = mergeLoop fuel (w.merge x y)) := by
  cases hx : argMin w.node w.pq with
  | none =>
    refine .inl ⟨?_, by simp [mergeLoop, hx]⟩
    rw [(argMin_eq_none _ _).1 hx]
    exact Nat.zero_le 1
  | some x =>
    have hxq := (argMin_spec hx).1
    cases hy : argMin w.node (w.pq.erase x) with
    | none =>
      refine .inl ⟨?_, by simp [mergeLoop, hx, hy]⟩
      have hlen := List.length_erase_of_mem hxq
      rw [(argMin_eq_none _ _).1 hy, List.length_nil] at hlen
      omega
    | some y =>
      refine .inr ⟨x, y, twoLeast_of_argMin hq hx hy, ?_⟩
      rcases Nat.lt_or_ge (countOf w.node x + countOf w.node y) (2 ^ 32) with hlt | hge
      · exact .inr ⟨hlt, by simp only [mergeLoop, hx, hy, if_neg (Nat.not_le.2 hlt), BuildWork.merge]⟩
      · exact .inl ⟨hge, by simp only [mergeLoop, hx, hy, if_pos hge]⟩

/-! ### `PQ` as what no internal node owns -/

/-- What the internal node `i` owns: its children, an absent one left out. -/
def ownedBy (t : Table NodeEntry) (i : Nat) : List Nat :=
  (readNode t i).zero.toNat :: (if (readNode t i).one = Config.nullIdx then [] else [(readNode t i).one.toNat])

theorem childSlots_eq (t : Table NodeEntry) (l n : Nat) :
    childSlots t l n = ((List.range n).drop l).flatMap (ownedBy t) := rfl

theorem childSlots_self (t : Table NodeEntry) (l : Nat) : childSlots t l l = [] := by
  rw [childSlots_eq, List.drop_eq_nil_of_le List.length_range.le, List.flatMap_nil]

theorem childSlots_succ (t : Table NodeEntry) {l n : Nat} (hl : l ≤ n) :
    childSlots t l (n + 1) = childSlots t l n ++ ownedBy t n := by
  rw [childSlots_eq, childSlots_eq, List.range_succ, List.drop_append_of_le_length (by simpa using hl),
    List.flatMap_append, List.flatMap_singleton]

theorem mem_childSlots {t : Table NodeEntry} {l n c : Nat} (hl : l ≤ n) :
    c ∈ childSlots t l n ↔ ∃ i, l ≤ i ∧ i < n ∧ c ∈ ownedBy t i := by
  induction n, hl using Nat.le_induction with
  | base =>
    rw [childSlots_self]
    simp only [List.not_mem_nil, false_iff]
    rintro ⟨i, hli, hil, -⟩
    omega
  | succ n hl ih =>
    rw [childSlots_succ t hl, List.mem_append, ih]
    constructor
    · rintro (⟨i, hli, hin, hc⟩ | hc)
      · exact ⟨i, hli, Nat.lt_succ_of_lt hin, hc⟩
      · exact ⟨n, hl, Nat.lt_succ_self n, hc⟩
    · rintro ⟨i, hli, hin, hc⟩
      rcases Nat.lt_succ_iff_lt_or_eq.1 hin with hin | rfl
      · exact .inl ⟨i, hli, hin, hc⟩
      · exact .inr hc

theorem ownedBy_congr {t u : Table NodeEntry} {i : Nat} (h : readNode u i = readNode t i) :
    ownedBy u i = ownedBy t i := by
  rw [ownedBy, ownedBy, h]

theorem childSlots_congr {t u : Table NodeEntry} (l : Nat) {n : Nat} (h : ∀ j < n, readNode u j = readNode t j) :
    childSlots u l n = childSlots t l n := by
  rw [childSlots_eq, childSlots_eq]
  refine List.flatMap_congr fun i hi => ownedBy_congr (h i ?_)
  exact List.mem_range.1 (List.mem_of_mem_drop hi)

theorem mem_freeBefore {t : Table NodeEntry} {l n j : Nat} :
    j ∈ freeBefore t l n ↔ j < n ∧ j ∉ childSlots t l n := by
  simp [freeBefore]

theorem freeBefore_nodup (t : Table NodeEntry) (l n : Nat) : (freeBefore t l n).Nodup := List.nodup_range.filter _

theorem freeBefore_self (t : Table NodeEntry) (l : Nat) : freeBefore t l l = List.range l := by
  simp [freeBefore, childSlots_self]

theorem freeBefore_congr {t u : Table NodeEntry} (l : Nat) {n : Nat} (h : ∀ j < n, readNode u j = readNode t j) :
    freeBefore u l n = freeBefore t l n := by
  rw [freeBefore, freeBefore, childSlots_congr l h]

/-- A new internal node takes its two children out of what is free and is free itself. -/
theorem freeBefore_succ {t : Table NodeEntry} {l n x y : Nat} (hl : l ≤ n) (howned : ownedBy t n = [x, y])
    (hnew : n ∉ childSlots t l (n + 1)) :
    freeBefore t l (n + 1) = ((freeBefore t l n).erase x).erase y ++ [n] := by
  have hslots := childSlots_succ t hl
  rw [howned] at hslots
  rw [(freeBefore_nodup t l n).erase_eq_filter, ((freeBefore_nodup t l n).filter _).erase_eq_filter, freeBefore,
    freeBefore, List.range_succ, List.filter_append, List.filter_cons_of_pos (by simpa using hnew), List.filter_nil,
    List.filter_filter, List.filter_filter, hslots]
  congr 1
  refine List.filter_congr fun j _ => ?_
  grind

/-! ### The invariant of the loop -/

/-- Node `i` is the merge of the two least of what is free before it. -/
structure MergedAt (t : Table NodeEntry) (l i : Nat) : Prop where
  sym : (readNode t i).sym = Config.internalSym
  count : countOf t i = countOf t (readNode t i).zero.toNat + countOf t (readNode t i).one.toNat
  least : TwoLeast t (freeBefore t l i) (readNode t i).zero.toNat (readNode t i).one.toNat

theorem MergedAt.zero_lt {t : Table NodeEntry} {l i : Nat} (h : MergedAt t l i) : (readNode t i).zero.toNat < i :=
  (mem_freeBefore.1 h.least.zero_mem).1

theorem MergedAt.one_lt {t : Table NodeEntry} {l i : Nat} (h : MergedAt t l i) : (readNode t i).one.toNat < i :=
  (mem_freeBefore.1 h.least.one_mem).1

theorem MergedAt.lt_of_mem_ownedBy {t : Table NodeEntry} {l i c : Nat} (h : MergedAt t l i) (hc : c ∈ ownedBy t i) :
    c < i := by
  rw [ownedBy] at hc
  rcases List.mem_cons.1 hc with rfl | hc
  · exact h.zero_lt
  · split at hc
    · exact absurd hc List.not_mem_nil
    · rw [List.mem_singleton.1 hc]
      exact h.one_lt

theorem MergedAt.congr {t u : Table NodeEntry} {l i : Nat} (h : MergedAt t l i)
    (hread : ∀ j ≤ i, readNode u j = readNode t j) : MergedAt u l i := by
  have hi := hread i le_rfl
  have hcount : ∀ j ≤ i, countOf u j = countOf t j := fun j hj => countOf_congr (hread j hj)
  refine ⟨hi ▸ h.sym, ?_, ?_⟩
  · rw [hi, hcount i le_rfl, hcount _ h.zero_lt.le, hcount _ h.one_lt.le]
    exact h.count
  · rw [hi, freeBefore_congr l fun j hj => hread j hj.le]
    exact h.least.congr fun j hj => hread j (mem_freeBefore.1 hj).1.le

theorem last_not_mem_childSlots {t : Table NodeEntry} {l n : Nat} (hl : l ≤ n)
    (hmerged : ∀ i, l ≤ i → i < n + 1 → MergedAt t l i) : n ∉ childSlots t l (n + 1) := by
  intro hn
  obtain ⟨i, hli, hin, hni⟩ := (mem_childSlots (Nat.le_succ_of_le hl)).1 hn
  have := (hmerged i hli hin).lt_of_mem_ownedBy hni
  omega

/-- What every turn of the merge loop keeps, from the leaves `w₀` on: the leaves stay, every internal node was a merge
of the two least, `PQ` is what no internal node owns, each merge takes one member off it, and the counts in it add up
to those of the leaves. -/
structure MergeInv (w₀ w : BuildWork) : Prop where
  le : w₀.n ≤ w.n
  leaves : ∀ i < w₀.n, readNode w.node i = readNode w₀.node i
  merged : ∀ i, w₀.n ≤ i → i < w.n → MergedAt w.node w₀.n i
  pq : w.pq = freeBefore w.node w₀.n w.n
  size : w.n + w.pq.length = 2 * w₀.n
  total : (w.pq.map (countOf w.node)).sum = ((List.range w₀.n).map (countOf w₀.node)).sum

theorem mergeInv_start {w₀ : BuildWork} (hpq : w₀.pq = List.range w₀.n) : MergeInv w₀ w₀ where
  le := le_rfl
  leaves _ _ := rfl
  merged i hl hn := absurd hl (Nat.not_le.2 hn)
  pq := by rw [hpq, freeBefore_self]
  size := by rw [hpq, List.length_range]; omega
  total := by rw [hpq]

section
variable {w₀ w : BuildWork} (h : MergeInv w₀ w)
include h

theorem MergeInv.lt_of_mem_pq {j : Nat} (hj : j ∈ w.pq) : j < w.n :=
  (mem_freeBefore.1 (h.pq ▸ hj)).1

theorem MergeInv.pq_nodup : w.pq.Nodup := h.pq ▸ freeBefore_nodup _ _ _

end

section
variable {w₀ w : BuildWork} {x y : Nat} (h : MergeInv w₀ w) (hleast : TwoLeast w.node w.pq x y)
include h hleast

theorem MergeInv.length_erase_two : ((w.pq.erase x).erase y).length + 2 = w.pq.length := by
  have hy : y ∈ w.pq.erase x := h.pq_nodup.mem_erase_iff.2 ⟨hleast.ne, hleast.one_mem⟩
  have h1 := List.length_erase_of_mem hleast.zero_mem
  have h2 := List.length_erase_of_mem hy
  have h3 := List.length_pos_of_mem hy
  omega

theorem MergeInv.sum_erase_two : countOf w.node x + countOf w.node y +
    (((w.pq.erase x).erase y).map (countOf w.node)).sum = (w.pq.map (countOf w.node)).sum := by
  have hy : y ∈ w.pq.erase x := h.pq_nodup.mem_erase_iff.2 ⟨hleast.ne, hleast.one_mem⟩
  rw [add_assoc, List.sum_map_erase _ hy, List.sum_map_erase _ hleast.zero_mem]

/-- A merge happens below the end of the arena: there are at most two nodes for each of the 257 symbols, less one. -/
theorem MergeInv.room (hl : w₀.n ≤ 257) : w.n < 513 := by
  have hlen := h.length_erase_two hleast
  have hsize := h.size
  omega

theorem MergeInv.ownedBy_merge (hl : w₀.n ≤ 257) : ownedBy (w.merge x y).node w.n = [x, y] := by
  have hroom := h.room hleast hl
  have hx := toNat_ofNat_ten ((h.lt_of_mem_pq hleast.zero_mem).trans (by omega : w.n < 1024))
  have hy := toNat_ofNat_ten ((h.lt_of_mem_pq hleast.one_mem).trans (by omega : w.n < 1024))
  have hpresent : BitVec.ofNat 10 y ≠ Config.nullIdx := fun he => by
    have hlt := h.lt_of_mem_pq hleast.one_mem
    rw [he] at hy
    change 1023 = y at hy
    omega
  rw [ownedBy, BuildWork.readNode_merge_self x y hroom, innerNode, if_neg hpresent, hx, hy]

theorem MergeInv.mergedAt_merge (hl : w₀.n ≤ 257) (hfit : countOf w.node x + countOf w.node y < 2 ^ 32) {i : Nat}
    (hli : w₀.n ≤ i) (hin : i < w.n + 1) : MergedAt (w.merge x y).node w₀.n i := by
  have hold {j : Nat} (hj : j < w.n) := BuildWork.readNode_merge_of_lt x y hj
  rcases Nat.lt_succ_iff_lt_or_eq.1 hin with hin | rfl
  · exact (h.merged i hli hin).congr fun j hj => hold (hj.trans_lt hin)
  · have hroom := h.room hleast hl
    have hx := h.lt_of_mem_pq hleast.zero_mem
    have hy := h.lt_of_mem_pq hleast.one_mem
    have hnew := BuildWork.readNode_merge_self x y hroom
    have hzero : (readNode (w.merge x y).node w.n).zero.toNat = x := by rw [hnew]; exact toNat_ofNat_ten (by omega)
    have hone : (readNode (w.merge x y).node w.n).one.toNat = y := by rw [hnew]; exact toNat_ofNat_ten (by omega)
    refine ⟨by rw [hnew]; rfl, ?_, ?_⟩
    · rw [BuildWork.countOf_merge_self hroom hfit, hzero, hone, countOf_congr (hold hx), countOf_congr (hold hy)]
    · rw [hzero, hone, freeBefore_congr _ fun j hj => hold hj, ← h.pq]
      exact hleast.congr fun j hj => hold (h.lt_of_mem_pq hj)

/-- Every turn keeps the invariant, when the counts fit. -/
theorem MergeInv.merge (hl : w₀.n ≤ 257) (hfit : countOf w.node x + countOf w.node y < 2 ^ 32) :
    MergeInv w₀ (w.merge x y) where
  le := h.le.trans (Nat.le_succ _)
  leaves i hi := by rw [BuildWork.readNode_merge_of_lt x y (hi.trans_le h.le), h.leaves i hi]
  merged i hli hin := h.mergedAt_merge hleast hl hfit hli hin
  pq := by
    have hlast := last_not_mem_childSlots h.le fun i hli hin => h.mergedAt_merge hleast hl hfit hli hin
    rw [BuildWork.merge_n, freeBefore_succ h.le (h.ownedBy_merge hleast hl) hlast,
      freeBefore_congr _ fun j hj => BuildWork.readNode_merge_of_lt x y hj, ← h.pq, BuildWork.merge_pq]
  size := by
    have hlen := h.length_erase_two hleast
    have hsize := h.size
    rw [BuildWork.merge_n, BuildWork.merge_pq, List.length_append, List.length_singleton]
    omega
  total := by
    have hrest : ((w.pq.erase x).erase y).map (countOf (w.merge x y).node) =
        ((w.pq.erase x).erase y).map (countOf w.node) :=
      List.map_congr_left fun j hj => countOf_congr (BuildWork.readNode_merge_of_lt x y
        (h.lt_of_mem_pq (List.mem_of_mem_erase (List.mem_of_mem_erase hj))))
    rw [BuildWork.merge_pq, List.map_append, List.sum_append, hrest, List.map_singleton, List.sum_singleton,
      BuildWork.countOf_merge_self (h.room hleast hl) hfit, add_comm, h.sum_erase_two hleast, h.total]

end

/-- How the merge loop ends: with one node left, or at a merge whose counts do not fit. -/
theorem MergeInv.mergeLoop_cases {w₀ w : BuildWork} (h : MergeInv w₀ w) (hl : w₀.n ≤ 257) {fuel : Nat}
    (hpos : 1 ≤ w.pq.length) (hfuel : w.pq.length ≤ fuel) :
    (∃ w', mergeLoop fuel w = .tree w' ∧ MergeInv w₀ w' ∧ w'.pq.length = 1) ∨
    ∃ w' x y, mergeLoop fuel w = .overflow { w' with pq := [] } ∧ MergeInv w₀ w' ∧ TwoLeast w'.node w'.pq x y ∧
      2 ^ 32 ≤ countOf w'.node x + countOf w'.node y := by
  induction fuel generalizing w with
  | zero => omega
  | succ fuel ih =>
    rcases mergeLoop_turn fuel h.pq_nodup with ⟨hshort, hend⟩ | ⟨x, y, hleast, ⟨hge, hend⟩ | ⟨hfit, hnext⟩⟩
    · exact .inl ⟨w, hend, h, le_antisymm hshort hpos⟩
    · exact .inr ⟨w, x, y, hend, h, hleast, hge⟩
    · have hlen := h.length_erase_two hleast
      rw [hnext]
      refine ih (h.merge hleast hl hfit) ?_ ?_
      · rw [BuildWork.merge_pq, List.length_append, List.length_singleton]
        omega
      · rw [BuildWork.merge_pq, List.length_append, List.length_singleton]
        omega

end Sys2Proof.Machine
end

section
/-! What BUILD can do, and the tree of a BUILD that succeeds (spec/41_tree_builder.md R130, R131, R133, R134, R136). -/

namespace Sys2Proof.Machine

/-! ### The outcomes of BUILD -/

theorem leafWork_n (s : State) : (leafWork s).n = (presentKeys s).length := (holdsLeaves_leafWork s).n

theorem leafWork_pq (s : State) : (leafWork s).pq = List.range (leafWork s).n := by
  rw [leafWork_n, (holdsLeaves_leafWork s).pq]

theorem leafWork_n_le (s : State) : (leafWork s).n ≤ 257 := leafWork_n s ▸ presentKeys_length_le s

theorem exec_build_of_noFault {s : State} (herr : s.err = .noFault) : exec .build s = buildTree (dropDerived s) :=
  unlessFaulted_of_noFault (body := fun s => buildTree (dropDerived s)) herr

/-- A single leaf gets its root, and there is nothing to merge (R134). -/
theorem mergeAll_of_one {w : BuildWork} (hw : w.n = 1) : mergeAll w = .tree (synthesiseRoot w) := by
  rw [mergeAll, if_pos hw]
  rfl

theorem mergeAll_of_ne_one {w : BuildWork} (hw : w.n ≠ 1) : mergeAll w = mergeLoop w.pq.length w := by
  rw [mergeAll, if_neg hw]

/-- `buildTree` after step 0, by its branches. -/
theorem buildTree_dropDerived_cases (s : State) :
    ((leafWork s).n = 0 ∧ buildTree (dropDerived s) = raise .freqEmpty 0 (dropDerived s)) ∨
    ((leafWork s).n ≠ 0 ∧
      ((∃ w, mergeAll (leafWork s) = .tree w ∧ buildTree (dropDerived s) = respond 0 (installTree w (dropDerived s))) ∨
        ∃ w, mergeAll (leafWork s) = .overflow w ∧ buildTree (dropDerived s) =
          raise .countOvf (BitVec.ofNat 32 w.n) { dropDerived s with node := w.node, pq := w.pq })) := by
  unfold buildTree
  dsimp only
  split
  · next hn => exact .inl ⟨hn, rfl⟩
  · next hn =>
    split
    · next w hw => exact .inr ⟨hn, .inr ⟨w, hw, rfl⟩⟩
    · next w hw => exact .inr ⟨hn, .inl ⟨w, hw, rfl⟩⟩

/-- What BUILD can do: fault on an empty map, build the tree of a single entry, or merge: to one node, or to a sum
that does not fit. -/
theorem exec_build_cases {s : State} (herr : s.err = .noFault) :
    (presentKeys s = [] ∧ exec .build s = raise .freqEmpty 0 (dropDerived s)) ∨
    ((presentKeys s).length = 1 ∧
      exec .build s = respond 0 (installTree (synthesiseRoot (leafWork s)) (dropDerived s))) ∨
    (2 ≤ (presentKeys s).length ∧ ∃ w, MergeInv (leafWork s) w ∧
      ((w.pq.length = 1 ∧ exec .build s = respond 0 (installTree w (dropDerived s))) ∨
        ∃ x y, TwoLeast w.node w.pq x y ∧ 2 ^ 32 ≤ countOf w.node x + countOf w.node y ∧
          exec .build s = raise .countOvf (BitVec.ofNat 32 w.n) { dropDerived s with node := w.node, pq := [] })) := by
  rw [exec_build_of_noFault herr, ← List.length_eq_zero_iff, ← leafWork_n]
  rcases buildTree_dropDerived_cases s with hempty | ⟨hn, hmerge⟩
  · exact .inl hempty
  refine .inr ?_
  by_cases hone : (leafWork s).n = 1
  · rw [mergeAll_of_one hone] at hmerge
    rcases hmerge with ⟨w, hw, hbuild⟩ | ⟨w, hw, -⟩
    · cases hw
      exact .inl ⟨hone, hbuild⟩
    · cases hw
  · have hpos : 1 ≤ (leafWork s).pq.length := by rw [leafWork_pq, List.length_range]; omega
    refine .inr ⟨by omega, ?_⟩
    rw [mergeAll_of_ne_one hone] at hmerge
    rcases (mergeInv_start (leafWork_pq s)).mergeLoop_cases (leafWork_n_le s) hpos le_rfl with
      ⟨w, hend, hinv, hlast⟩ | ⟨w, x, y, hend, hinv, hleast, hover⟩
    · rw [hend] at hmerge
      rcases hmerge with ⟨w', hw, hbuild⟩ | ⟨w', hw, -⟩
      · cases hw
        exact ⟨w, hinv, .inl ⟨hlast, hbuild⟩⟩
      · cases hw
    · rw [hend] at hmerge
      rcases hmerge with ⟨w', hw, -⟩ | ⟨w', hw, hbuild⟩
      · cases hw
      · cases hw
        exact ⟨w, hinv, .inr ⟨x, y, hleast, hover, hbuild⟩⟩

/-- How a BUILD succeeds: by the synthesised root of a single entry, or by merging to one node. -/
theorem build_success_cases {s t : State} (herr : s.err = .noFault) (h : exec .build s = .next t)
    (hok : t.err = .noFault) :
    ∃ w, t = sendResponse ⟨false, 0⟩ (installTree w (dropDerived s)) ∧
      (((leafWork s).n = 1 ∧ w = synthesiseRoot (leafWork s)) ∨
        (2 ≤ (leafWork s).n ∧ MergeInv (leafWork s) w ∧ w.pq.length = 1)) := by
  rw [leafWork_n]
  rcases exec_build_cases herr with ⟨-, hb⟩ | ⟨hone, hb⟩ | ⟨htwo, w, hinv, ⟨hlast, hb⟩ | ⟨x, y, -, -, hb⟩⟩ <;>
    cases hb.symm.trans h
  · cases hok
  · exact ⟨_, rfl, .inl ⟨hone, rfl⟩⟩
  · exact ⟨_, rfl, .inr ⟨htwo, hinv, hlast⟩⟩
  · cases hok

/-! ### The tree -/

/-- What the arena `t` of `n` entries with root `r` has from the frequency map of `s`. -/
structure TreeOfMap (s : State) (t : Table NodeEntry) (n r : Nat) : Prop where
  leaves : ∀ (i : Nat) (hi : i < (presentKeys s).length),
    readNode t i = leafNode (presentKeys s)[i] (s.freqAt (presentKeys s)[i])
  inner : ∀ i, (presentKeys s).length ≤ i → i < n → (readNode t i).sym = Config.internalSym
  pos : 1 ≤ (presentKeys s).length
  n_one : (presentKeys s).length = 1 → n = 2
  n_many : 2 ≤ (presentKeys s).length → n = 2 * (presentKeys s).length - 1
  root_lt : r < n
  root_count : countOf t r = totalCount s

/-- The leaves' counts add up to the total. -/
theorem sum_countOf_leaves {s : State} {t : Table NodeEntry} (hleaves : ∀ (i : Nat) (hi : i < (presentKeys s).length),
    readNode t i = leafNode (presentKeys s)[i] (s.freqAt (presentKeys s)[i])) :
    ((List.range (presentKeys s).length).map (countOf t)).sum = totalCount s := by
  rw [← sum_presentKeys]
  congr 1
  refine List.ext_getElem (by simp) fun i hi _ => ?_
  have hi : i < (presentKeys s).length := by simpa using hi
  rw [List.getElem_map, List.getElem_range, List.getElem_map, countOf, hleaves i hi, leafNode]

/-- The synthesised root (R134). -/
theorem readNode_synthesiseRoot_one (w : BuildWork) : readNode (synthesiseRoot w).node 1 =
    ⟨Config.internalSym, (readNode w.node 0).count, 0, Config.nullIdx⟩ := by
  rw [synthesiseRoot, readNode_writeNode, if_pos (by decide)]

theorem readNode_synthesiseRoot_zero (w : BuildWork) : readNode (synthesiseRoot w).node 0 = readNode w.node 0 := by
  rw [synthesiseRoot, readNode_writeNode, if_neg (by decide)]

theorem treeOfMap_synthesiseRoot {s : State} (hone : (leafWork s).n = 1) :
    TreeOfMap s (synthesiseRoot (leafWork s)).node 2 1 := by
  have hlen : (presentKeys s).length = 1 := leafWork_n s ▸ hone
  have hleaf (i : Nat) (hi : i < (presentKeys s).length) := (holdsLeaves_leafWork s).node i hi
  refine ⟨fun i hi => ?_, fun i hli hi => ?_, hlen.ge, fun _ => rfl, fun h => by omega, by decide, ?_⟩
  · obtain rfl : i = 0 := by omega
    rw [readNode_synthesiseRoot_zero, hleaf 0 hi]
  · obtain rfl : i = 1 := by omega
    rw [readNode_synthesiseRoot_one]
  · rw [← sum_countOf_leaves hleaf, hlen, countOf, readNode_synthesiseRoot_one]
    exact (List.sum_singleton).symm

theorem MergeInv.treeOfMap {s : State} {w : BuildWork} (h : MergeInv (leafWork s) w) (hmany : 2 ≤ (leafWork s).n)
    {r : Nat} (hpq : w.pq = [r]) : TreeOfMap s w.node w.n r := by
  have hsize := h.size
  have htotal := h.total
  have hle := h.le
  have hmerged := h.merged
  have hleaves := h.leaves
  rw [hpq, List.length_singleton] at hsize
  rw [hpq, List.map_singleton, List.sum_singleton] at htotal
  rw [leafWork_n] at hsize htotal hmany hmerged hleaves
  refine ⟨fun i hi => ?_, fun i hli hin => (hmerged i hli hin).sym, by omega, by omega, by omega,
    h.lt_of_mem_pq (by simp [hpq]), ?_⟩
  · rw [hleaves i hi, (holdsLeaves_leafWork s).node i hi]
  · rw [htotal, sum_countOf_leaves (holdsLeaves_leafWork s).node]

/-- The tree of every BUILD that succeeds. -/
theorem build_treeOfMap {s t : State} (herr : s.err = .noFault) (h : exec .build s = .next t) (hok : t.err = .noFault) :
    TreeOfMap s t.node t.nnodes.toNat t.root.toNat := by
  obtain ⟨w, rfl, ⟨hone, rfl⟩ | ⟨hmany, hinv, hlast⟩⟩ := build_success_cases herr h hok
  · exact treeOfMap_synthesiseRoot hone
  · obtain ⟨r, hpq⟩ := List.length_eq_one_iff.1 hlast
    have hn : w.n < 1024 := by have := hinv.size; have := leafWork_n_le s; omega
    have hr : r < w.n := hinv.lt_of_mem_pq (by simp [hpq])
    have hnnodes : (BitVec.ofNat 10 w.n).toNat = w.n := toNat_ofNat_ten hn
    have hroot : (BitVec.ofNat 10 (w.pq.headD 0)).toNat = r := by
      rw [hpq]
      exact toNat_ofNat_ten (hr.trans hn)
    change TreeOfMap s w.node (BitVec.ofNat 10 w.n).toNat (BitVec.ofNat 10 (w.pq.headD 0)).toNat
    rw [hnnodes, hroot]
    exact hinv.treeOfMap hmany hpq

theorem leafCount_eq {t : Table NodeEntry} {l n : Nat} (hln : l ≤ n)
    (hleaf : ∀ i < l, (readNode t i).sym ≠ Config.internalSym)
    (hinner : ∀ i, l ≤ i → i < n → (readNode t i).sym = Config.internalSym) : leafCount t n = l := by
  obtain ⟨m, rfl⟩ := Nat.exists_eq_add_of_le hln
  have hfirst : (List.range l).filter (fun i => (readNode t i).sym ≠ Config.internalSym) = List.range l :=
    List.filter_eq_self.2 fun i hi => by simpa using hleaf i (List.mem_range.1 hi)
  have hrest : ((List.range m).map (l + ·)).filter (fun i => (readNode t i).sym ≠ Config.internalSym) = [] := by
    refine List.filter_eq_nil_iff.2 fun i hi => ?_
    obtain ⟨j, hj, rfl⟩ := List.mem_map.1 hi
    simpa using hinner (l + j) (Nat.le_add_right l j) (Nat.add_lt_add_left (List.mem_range.1 hj) l)
  rw [leafCount, List.range_add, List.filter_append, hfirst, hrest, List.append_nil, List.length_range]

section
variable {s : State} {t : Table NodeEntry} {n r : Nat} (h : TreeOfMap s t n r)
include h

theorem TreeOfMap.sym_toNat {i : Nat} (hi : i < (presentKeys s).length) :
    (readNode t i).sym.toNat = (presentKeys s)[i] := by
  rw [h.leaves i hi, leafNode_sym_toNat (presentKeys_lt s i hi)]

theorem TreeOfMap.sym_ne_internal {i : Nat} (hi : i < (presentKeys s).length) :
    (readNode t i).sym ≠ Config.internalSym := by
  rw [h.leaves i hi]
  exact leafNode_sym_ne_internal (presentKeys_lt s i hi) _

theorem TreeOfMap.leafCount_eq : leafCount t n = (presentKeys s).length := by
  refine Machine.leafCount_eq ?_ (fun i hi => h.sym_ne_internal hi) h.inner
  have hpos := h.pos
  have hone := h.n_one
  have hmany := h.n_many
  omega

theorem TreeOfMap.sym_lt_sym_iff {i j : Nat} (hi : i < (presentKeys s).length) (hj : j < (presentKeys s).length) :
    (readNode t i).sym < (readNode t j).sym ↔ i < j := by
  rw [BitVec.lt_def, h.sym_toNat hi, h.sym_toNat hj, (presentKeys_sortedLT s).getElem_lt_getElem_iff]

/-- A symbol is present exactly if one leaf has it. -/
theorem TreeOfMap.mem_presentKeys_iff (k : Nat) :
    k ∈ presentKeys s ↔ ∃! i, i < (presentKeys s).length ∧ (readNode t i).sym.toNat = k := by
  constructor
  · intro hk
    obtain ⟨i, hi, rfl⟩ := List.mem_iff_getElem.1 hk
    refine ⟨i, ⟨hi, h.sym_toNat hi⟩, fun j ⟨hj, hjk⟩ => ?_⟩
    rw [h.sym_toNat hj] at hjk
    exact (presentKeys_sortedLT s).nodup.getElem_inj_iff.1 hjk
  · rintro ⟨i, ⟨hi, rfl⟩, -⟩
    rw [h.sym_toNat hi]
    exact List.getElem_mem hi

end

/-- Settles O21: the leaves are those of step 1, which no later step writes. -/
theorem buildLeavesAreTheFrequencyMap : Obligations.BuildLeavesAreTheFrequencyMap := by
  intro s t herr h hok
  have htree := build_treeOfMap herr h hok
  exact ⟨htree.leafCount_eq, htree.leaves, fun i hi j hj => htree.sym_lt_sym_iff hi hj, (holdsLeaves_leafWork s).pq⟩

/-- Settles O22: the leaves are the present symbols, and every merge keeps the sum of the counts in `PQ`. -/
theorem buildConservesTheCounts : Obligations.BuildConservesTheCounts := by
  intro s t herr h hok
  have htree := build_treeOfMap herr h hok
  dsimp only
  rw [htree.leafCount_eq]
  refine ⟨fun k hk => ?_, htree.n_many, htree.n_one, sum_countOf_leaves htree.leaves, htree.root_count⟩
  rw [← htree.mem_presentKeys_iff, mem_presentKeys]
  exact ⟨fun hne => ⟨hk, hne⟩, And.right⟩

/-- Settles O23: the invariant of the merge loop holds when the loop ends. -/
theorem buildMergesTheTwoLeastKeys : Obligations.BuildMergesTheTwoLeastKeys := by
  intro s t herr h hok
  have hleaves := (build_treeOfMap herr h hok).leafCount_eq
  dsimp only
  rw [hleaves, ← leafWork_n]
  intro htwo i hli hin
  obtain ⟨w, rfl, ⟨hone, -⟩ | ⟨-, hinv, -⟩⟩ := build_success_cases herr h hok
  · omega
  · have hn : i < w.n := lt_of_lt_of_le hin ((BitVec.toNat_ofNat w.n 10).trans_le (Nat.mod_le _ _))
    obtain ⟨hzero, hone, hlt, hrest⟩ := (hinv.merged i hli hn).least
    exact ⟨hzero, hone, hlt, hrest⟩

end Sys2Proof.Machine
end

section
/-! The map with one entry (spec/41_tree_builder.md R134): its tree, its code, and a 1 read at its root. -/

namespace Sys2Proof.Machine

/-! ### The turns of GENCODES' loop (spec/42_code_table_gen.md R155) -/

theorem walkLoop_of_nil (fuel : Nat) {s : State} (hstack : s.walkStack = []) : walkLoop fuel s = s := by
  cases fuel with
  | zero => rfl
  | succ fuel => simp only [walkLoop, hstack]

section
variable {s : State} {n : Idx} {p : List Bool} {rest : List (Idx × List Bool)} (fuel : Nat)
  (hstack : s.walkStack = (n, p) :: rest)
include hstack

theorem walkLoop_of_absent (hn : n = Config.nullIdx) :
    walkLoop (fuel + 1) s = walkLoop fuel { s with walkStack := rest, walkPath := p } := by
  simp only [walkLoop, walkStep, hstack, if_pos hn]

theorem walkLoop_of_leaf (hn : n ≠ Config.nullIdx) (hleaf : (s.nodeAt n).sym ≠ Config.internalSym) :
    walkLoop (fuel + 1) s = walkLoop fuel
      (State.setCode { s with walkStack := rest, walkPath := p } (s.nodeAt n).sym.toNat (storePath p)) := by
  simp only [walkLoop, walkStep, hstack, if_neg hn, if_pos hleaf]

theorem walkLoop_of_internal (hn : n ≠ Config.nullIdx) (hinner : (s.nodeAt n).sym = Config.internalSym) :
    walkLoop (fuel + 1) s = walkLoop fuel { s with
      walkStack := ((s.nodeAt n).zero, p ++ [false]) :: ((s.nodeAt n).one, p ++ [true]) :: rest, walkPath := p } := by
  simp only [walkLoop, walkStep, hstack, if_neg hn, hinner, ne_eq, not_true_eq_false, if_false]

end

/-- Where the loop starts. -/
def walkStart (s : State) : State :=
  { clearCodes { s with encState := .idle } with walkStack := [(s.root, [])], walkPath := [] }

theorem codeAt_generateCodes (s : State) (k : Nat) :
    (generateCodes s).codeAt k = (walkLoop Config.walkFuel (walkStart s)).codeAt k := by
  simp only [generateCodes, State.codeAt, walkStart]

/-! ### The tree of one leaf -/

/-- The tree over the one leaf of symbol `k`. -/
structure SingleLeafTree (k : Nat) (c : Count) (s : State) : Prop where
  treeValid : s.treeValid = true
  nnodes : s.nnodes = 2
  root : s.root = 1
  leaf : s.nodeAt 0 = leafNode k c
  inner : s.nodeAt 1 = ⟨Config.internalSym, c, 0, Config.nullIdx⟩

/-- The walk pops the root, the leaf and the absent child. -/
theorem SingleLeafTree.walkLoop_eq {k : Nat} {c : Count} {s : State} (h : SingleLeafTree k c s) (hk : k < 257)
    (fuel : Nat) (hstack : s.walkStack = [(1, [])]) : walkLoop (fuel + 3) s =
      { s.setCode k (storePath [false]) with walkStack := [], walkPath := [true] } := by
  have hzero : (0 : Idx) ≠ Config.nullIdx := by decide
  have hleaf : (s.nodeAt 0).sym ≠ Config.internalSym := h.leaf ▸ leafNode_sym_ne_internal hk c
  rw [walkLoop_of_internal _ hstack (by decide) (congrArg NodeEntry.sym h.inner), h.inner,
    walkLoop_of_leaf _ rfl hzero (by exact hleaf), walkLoop_of_absent _ rfl rfl, walkLoop_of_nil _ rfl]
  change ({ s.setCode (s.nodeAt 0).sym.toNat (storePath [false]) with walkStack := [], walkPath := [true] } : State) = _
  rw [h.leaf, leafNode_sym_toNat hk]

theorem SingleLeafTree.codeAt_generateCodes {k : Nat} {c : Count} {s : State} (h : SingleLeafTree k c s)
    (hk : k < 257) : (generateCodes s).codeAt k = ⟨1, 0⟩ := by
  have hstart : SingleLeafTree k c (walkStart s) := { h with }
  rw [Machine.codeAt_generateCodes,
    show Config.walkFuel = 1024 + 3 from rfl, hstart.walkLoop_eq hk 1024 (by rw [← h.root]; rfl)]
  change ((walkStart s).setCode k (storePath [false])).codeAt k = _
  rw [codeAt_setCode, if_pos ⟨rfl, hk⟩]
  decide

theorem exec_build_of_single {s : State} {k : Nat} (herr : s.err = .noFault) (hk : presentKeys s = [k]) :
    ∃ t, exec .build s = .next t ∧ t.err = .noFault ∧ SingleLeafTree k (s.freqAt k) t := by
  have hleaf : readNode (leafWork s).node 0 = leafNode k (s.freqAt k) := by
    have hnode := (holdsLeaves_leafWork s).node
    simp only [hk] at hnode
    exact hnode 0 Nat.one_pos
  rcases exec_build_cases herr with ⟨hempty, -⟩ | ⟨-, hb⟩ | ⟨hmany, -⟩
  · simp [hk] at hempty
  · refine ⟨_, hb, herr, rfl, rfl, rfl, ?_, ?_⟩
    · exact (readNode_synthesiseRoot_zero _).trans hleaf
    · refine (readNode_synthesiseRoot_one _).trans ?_
      rw [hleaf, leafNode]
  · simp [hk] at hmany

/-! ### What reads a tree -/

section
variable {s : State} (herr : s.err = .noFault) (htree : s.treeValid = true)
include herr htree

theorem exec_gencodes_of_tree : exec .gencodes s = respond 0 (generateCodes s) :=
  unlessFaulted_requires_of_true (body := fun s => respond 0 (generateCodes s)) herr htree

theorem exec_decStart_of_tree :
    exec .decStart s = respond 0 { s with decState := .run, decPtr := s.root, decOut := [] } :=
  unlessFaulted_requires_of_true
    (body := fun s => respond 0 { s with decState := .run, decPtr := s.root, decOut := [] }) herr htree

end

theorem generateCodes_err (s : State) : (generateCodes s).err = s.err := by rw [generateCodes_frame]

/-- A bit with no child to move to (spec/44_decoder.md R190). -/
theorem exec_decBit_of_absent {s : State} {b : Bool} (herr : s.err = .noFault) (hrun : s.decState = .run)
    (hchild : childOf (s.nodeAt s.decPtr) b = Config.nullIdx) : exec (.decBit b) s = raiseBadPath b s := by
  have hdeliver : deliver b s = none := by
    rcases deliver_cases b s with ⟨hn, -⟩ | ⟨-, -, hd⟩ | ⟨-, hc, -⟩
    · exact absurd hrun hn
    · exact hd
    · exact absurd hchild hc
  have hbusy : (s.decState != .idle) = true := by rw [hrun]; rfl
  exact (unlessFaulted_requires_of_true herr hbusy).trans (by rw [hdeliver])

/-- Settles O24: BUILD makes the one-leaf tree; in such a tree the walk gives its symbol the code 0, and the root has no
child for a 1. -/
theorem singleEntryMapGetsASynthesisedRoot : Obligations.SingleEntryMapGetsASynthesisedRoot := by
  intro s k herr hkeys
  have hk : k < 257 := (mem_presentKeys.1 (hkeys ▸ List.mem_singleton_self k)).1
  obtain ⟨t, hbuild, hterr, htree⟩ := exec_build_of_single herr hkeys
  have hstarted := exec_decStart_of_tree hterr htree.treeValid
  have habsent : childOf (t.nodeAt t.root) true = Config.nullIdx := by
    rw [htree.root, htree.inner]
    rfl
  exact ⟨t, _, _, _, hbuild, hterr, htree.nnodes, htree.root, htree.leaf, htree.inner,
    exec_gencodes_of_tree hterr htree.treeValid, (generateCodes_err t).trans hterr, htree.codeAt_generateCodes hk,
    hstarted, hterr, exec_decBit_of_absent hterr rfl habsent, rfl, rfl⟩

end Sys2Proof.Machine
end

section
/-! GENCODES (spec/42_code_table_gen.md R150, R155): the explicit stack and the recursive walk write the same table, and
the walk over an arena of R27's shape ends within the model's bound on the turns. -/

namespace Sys2Proof.Machine

/-! ### The recursive walk (R150) -/

section
variable {t : Table NodeEntry} {i : Idx} (p : List Bool) (code : Table CodeEntry)

theorem walk_of_absent (fuel : Nat) (hi : i = Config.nullIdx) : walk t fuel i p code = code := by
  cases fuel with
  | zero => rfl
  | succ fuel => exact if_pos hi

theorem walk_of_leaf (fuel : Nat) (hi : i ≠ Config.nullIdx) (hleaf : (readNode t i.toNat).sym ≠ Config.internalSym) :
    walk t (fuel + 1) i p code =
      Table.write codeUnlisted Config.nsym code (readNode t i.toNat).sym.toNat (storePath p) :=
  (if_neg hi).trans (if_pos hleaf)

theorem walk_of_internal (fuel : Nat) (hi : i ≠ Config.nullIdx)
    (hinner : (readNode t i.toNat).sym = Config.internalSym) :
    walk t (fuel + 1) i p code = walk t fuel (readNode t i.toNat).one (p ++ [true])
      (walk t fuel (readNode t i.toNat).zero (p ++ [false]) code) :=
  (if_neg hi).trans (if_neg (not_not_intro hinner))

end

/-! ### How many turns the explicit stack takes -/

/-- The pops of the loop of R155 for what `walk` visits from node `i` in `fuel` levels. -/
def walkTurns (t : Table NodeEntry) : Nat → Idx → Nat
  | 0, _ => 1
  | fuel + 1, i =>
    if i = Config.nullIdx ∨ (readNode t i.toNat).sym ≠ Config.internalSym then 1
    else walkTurns t fuel (readNode t i.toNat).zero + walkTurns t fuel (readNode t i.toNat).one + 1

theorem walkTurns_of_absent (t : Table NodeEntry) (fuel : Nat) : walkTurns t fuel Config.nullIdx = 1 := by
  cases fuel with
  | zero => rfl
  | succ fuel => exact if_pos (.inl rfl)

theorem walkTurns_of_leaf {t : Table NodeEntry} {i : Idx} (fuel : Nat)
    (hleaf : (readNode t i.toNat).sym ≠ Config.internalSym) : walkTurns t fuel i = 1 := by
  cases fuel with
  | zero => rfl
  | succ fuel => exact if_pos (.inr hleaf)

theorem walkTurns_of_internal {t : Table NodeEntry} {i : Idx} (fuel : Nat) (hi : i ≠ Config.nullIdx)
    (hinner : (readNode t i.toNat).sym = Config.internalSym) : walkTurns t (fuel + 1) i =
      walkTurns t fuel (readNode t i.toNat).zero + walkTurns t fuel (readNode t i.toNat).one + 1 :=
  if_neg (not_or_intro hi (not_not_intro hinner))

theorem walkTurns_le_succ (t : Table NodeEntry) (fuel : Nat) (i : Idx) :
    walkTurns t fuel i ≤ walkTurns t (fuel + 1) i := by
  induction fuel generalizing i with
  | zero => rw [walkTurns, walkTurns]; split <;> omega
  | succ fuel ih =>
    rw [walkTurns, walkTurns]
    split
    · exact le_rfl
    · exact Nat.succ_le_succ (Nat.add_le_add (ih _) (ih _))

/-- The turns of a node, by its index as a number. -/
def turnsAt (t : Table NodeEntry) (fuel i : Nat) : Nat := walkTurns t fuel (BitVec.ofNat 10 i)

theorem turnsAt_toNat (t : Table NodeEntry) (fuel : Nat) (i : Idx) : turnsAt t fuel i.toNat = walkTurns t fuel i := by
  rw [turnsAt, BitVec.ofNat_toNat, BitVec.setWidth_eq]

/-- A node costs at most two turns, its own and that of an absent child, beside those of the nodes it owns. -/
theorem turnsAt_le_ownedBy (t : Table NodeEntry) (fuel : Nat) {i : Nat} (hi : i < 1024) :
    turnsAt t fuel i ≤ 2 + ((ownedBy t i).map (turnsAt t fuel)).sum := by
  have hindex : (BitVec.ofNat 10 i).toNat = i := toNat_ofNat_ten hi
  have howned : walkTurns t fuel (readNode t i).zero + walkTurns t fuel (readNode t i).one + 1 ≤
      2 + ((ownedBy t i).map (turnsAt t fuel)).sum := by
    rw [ownedBy, List.map_cons, List.sum_cons, turnsAt_toNat]
    by_cases hone : (readNode t i).one = Config.nullIdx
    · rw [if_pos hone, hone, walkTurns_of_absent]
      omega
    · rw [if_neg hone, List.map_singleton, List.sum_singleton, turnsAt_toNat]
      omega
  refine (walkTurns_le_succ t fuel _).trans ?_
  rw [walkTurns, hindex]
  split
  · omega
  · exact howned

/-- The bound of `turnsAt_le_ownedBy`, summed over the arena: what internal nodes own is counted on the right. -/
theorem sum_turnsAt_le {t : Table NodeEntry} {l n : Nat} (fuel : Nat) (hln : l ≤ n) (hn : n ≤ 1024)
    (hleaf : ∀ i < l, (readNode t i).sym ≠ Config.internalSym) :
    ((List.range n).map (turnsAt t fuel)).sum ≤ 2 * n + ((childSlots t l n).map (turnsAt t fuel)).sum := by
  induction n, hln using Nat.le_induction with
  | base =>
    have hone : (List.range l).map (turnsAt t fuel) = (List.range l).map (fun _ => 1) := by
      refine List.map_congr_left fun i hi => walkTurns_of_leaf fuel ?_
      have hil := List.mem_range.1 hi
      rw [toNat_ofNat_ten (by omega)]
      exact hleaf i hil
    rw [hone, List.map_const', List.sum_replicate, List.length_range]
    simp only [smul_eq_mul]
    omega
  | succ n hln ih =>
    have hnode := turnsAt_le_ownedBy t fuel (i := n) (by omega)
    have hrest := ih (by omega)
    rw [List.range_succ, childSlots_succ t hln]
    simp only [List.map_append, List.sum_append, List.map_singleton, List.sum_singleton]
    omega

/-! ### An arena of R27's shape -/

section
variable {t : Table NodeEntry} {n : Nat} {root : Idx} (h : TreeShape t n root)
include h

theorem TreeShape.index_le_sym {i : Nat} (hi : i < leafCount t n) : i ≤ (readNode t i).sym.toNat := by
  induction i with
  | zero => exact Nat.zero_le _
  | succ i ih =>
    have hlt := BitVec.lt_def.1 (h.leaves_ascending i (by omega))
    have := ih (by omega)
    omega

theorem TreeShape.leafCount_le : leafCount t n ≤ 257 := by
  have hpos := h.some_leaf
  have hlast : leafCount t n - 1 < leafCount t n := by omega
  have hindex := h.index_le_sym hlast
  have hsym := (h.leaf_form _ hlast).1
  rw [Config.nsym] at hsym
  omega

theorem TreeShape.size_le : n ≤ 513 := by
  have hle := h.leafCount_le
  rcases Nat.lt_or_ge 1 (leafCount t n) with hmany | hone
  · have hn := (h.many_leaves hmany).1
    omega
  · have hn := (h.one_leaf (Nat.le_antisymm hone h.some_leaf)).1
    omega

/-- Every node but the root is owned once, so its turns on the two sides of `sum_turnsAt_le` cancel. -/
theorem TreeShape.walkTurns_root_le (fuel : Nat) : walkTurns t fuel root ≤ 2 * n := by
  have hroot := h.root_last
  have hsize := h.size_le
  have hleaves : leafCount t n ≤ n := (List.length_filter_le _ _).trans List.length_range.le
  have hsum := sum_turnsAt_le fuel hleaves (by omega) fun i hi => (h.leaves_first i (by omega)).2 hi
  have howned := (h.owned_once.map (turnsAt t fuel)).sum_eq
  have hlast : List.range n = List.range (n - 1) ++ [root.toNat] := by
    rw [← hroot, Nat.add_sub_cancel, List.range_succ]
  rw [howned, hlast, List.map_append, List.sum_append, List.map_singleton, List.sum_singleton, turnsAt_toNat] at hsum
  omega

/-- A child is absent or comes before its parent (R27 item 2). -/
theorem TreeShape.child_below {i : Nat} (hi : i < n) (hinner : (readNode t i).sym = Config.internalSym) (b : Bool) :
    childOf (readNode t i) b = Config.nullIdx ∨ (childOf (readNode t i) b).toNat < i := by
  have hleaf : leafCount t n ≤ i := Nat.le_of_not_lt fun hlt => (h.leaves_first i hi).2 hlt hinner
  obtain ⟨hzero, hone⟩ := h.children_below i hi hleaf
  cases b with
  | false => exact .inr hzero
  | true => exact hone

end

/-! ### The simulation -/

/-- From an entry on top of the stack, the loop does what `walk` does and goes on with the rest of the stack. The
levels bound the index, since children come before their parent. -/
theorem TreeShape.walkLoop_eq_walk {t : Table NodeEntry} {n : Nat} {root : Idx} (h : TreeShape t n root)
    (fuel turns : Nat) {s : State} {i : Idx} {p : List Bool} {rest : List (Idx × List Bool)} (hnode : s.node = t)
    (hstack : s.walkStack = (i, p) :: rest) (hi : i = Config.nullIdx ∨ i.toNat < n ∧ i.toNat < fuel) :
    ∃ q, walkLoop (turns + walkTurns t fuel i) s =
      walkLoop turns { s with code := walk t fuel i p s.code, walkStack := rest, walkPath := q } := by
  induction fuel generalizing turns s i p rest with
  | zero =>
    have habsent : i = Config.nullIdx := hi.resolve_right fun hlt => Nat.not_lt_zero _ hlt.2
    exact ⟨p, walkLoop_of_absent turns hstack habsent⟩
  | succ fuel ih =>
    subst hnode
    by_cases habsent : i = Config.nullIdx
    · refine ⟨p, ?_⟩
      rw [walk_of_absent p s.code _ habsent, habsent, walkTurns_of_absent]
      exact walkLoop_of_absent turns hstack habsent
    by_cases hinner : (readNode s.node i.toNat).sym = Config.internalSym
    · obtain ⟨hin, hfuel⟩ := hi.resolve_left habsent
      have hchild (b : Bool) := (h.child_below hin hinner b).imp_right fun hlt =>
        And.intro (hlt.trans hin) (Nat.lt_of_lt_of_le hlt (Nat.le_of_lt_succ hfuel))
      obtain ⟨q, hzero⟩ := ih (turns + walkTurns s.node fuel (readNode s.node i.toNat).one) (s := { s with
        walkStack := ((s.nodeAt i).zero, p ++ [false]) :: ((s.nodeAt i).one, p ++ [true]) :: rest, walkPath := p })
        rfl rfl (hchild false)
      obtain ⟨r, hone⟩ := ih turns (s := { s with
        code := walk s.node fuel (s.nodeAt i).zero (p ++ [false]) s.code
        walkStack := ((s.nodeAt i).one, p ++ [true]) :: rest, walkPath := q }) rfl rfl (hchild true)
      refine ⟨r, ?_⟩
      rw [walk_of_internal p s.code fuel habsent hinner, walkTurns_of_internal fuel habsent hinner,
        Nat.add_comm (walkTurns s.node fuel (readNode s.node i.toNat).zero), ← Nat.add_assoc, ← Nat.add_assoc]
      exact (walkLoop_of_internal _ hstack habsent hinner).trans (hzero.trans hone)
    · refine ⟨p, ?_⟩
      rw [walk_of_leaf p s.code _ habsent hinner, walkTurns_of_leaf _ hinner]
      exact walkLoop_of_leaf turns hstack habsent hinner

theorem generateCodes_eq_walk {s : State} (h : TreeShape s.node s.nnodes.toNat s.root) :
    generateCodes s = { s with
      encState := .idle, code := walk s.node Config.nnodeMax s.root [] [], codesValid := true
      walkStack := [], walkPath := [] } := by
  have hroot := h.root_last
  have hsize := h.size_le
  have hturns := h.walkTurns_root_le Config.nnodeMax
  have hbound : 2 * 513 ≤ Config.walkFuel := by decide
  have hlevels : Config.nnodeMax = 513 := rfl
  obtain ⟨spare, hfuel⟩ := Nat.exists_eq_add_of_le' (hturns.trans (show _ ≤ Config.walkFuel by omega))
  obtain ⟨q, hloop⟩ := h.walkLoop_eq_walk Config.nnodeMax spare (s := walkStart s) rfl rfl (.inr ⟨by omega, by omega⟩)
  rw [← hfuel] at hloop
  exact congrArg (fun u : State => { u with walkStack := [], walkPath := [], codesValid := true })
    (hloop.trans (walkLoop_of_nil spare rfl))

/-- Settles O29: the walk ends within the bound, where the explicit stack has done what the recursive walk does. -/
theorem gencodesWritesTheRecursiveWalk : Obligations.GencodesWritesTheRecursiveWalk := fun s herr =>
  ⟨fun htree hshape => (exec_gencodes_of_tree herr htree).trans (by rw [generateCodes_eq_walk hshape, respond_eq]),
    unlessFaulted_requires_of_false herr⟩

end Sys2Proof.Machine
end

section
/-! CODE_LEN and CODE_BITS (spec/42_code_table_gen.md R158, R159). -/

namespace Sys2Proof.Machine

/-! ### A command with a Requires condition and a symbol operand (spec/60_exceptions.md R222) -/

section
variable {s : State} {ok : Bool} {op : BitVec 8} {a : Idx} {body : State → Result} (herr : s.err = .noFault)
  (hok : ok = true)
include herr hok

theorem unlessFaulted_requires_symInRange_of_le (ha : a.toNat ≤ 256) :
    unlessFaulted (requires ok op (keyInRange (symInRange a) a body)) s = body s :=
  (unlessFaulted_requires_of_true herr hok).trans (by rw [(symInRange_iff a).2 ha, keyInRange_true])

theorem unlessFaulted_requires_symInRange_of_gt (ha : 256 < a.toNat) :
    unlessFaulted (requires ok op (keyInRange (symInRange a) a body)) s = raise .badKey (a.zeroExtend 32) s :=
  (unlessFaulted_requires_of_true herr hok).trans (by rw [(symInRange_eq_false_iff a).2 ha, keyInRange_false])

end

/-- Settles O33: one prologue lemma per clause. -/
theorem codeLenReadsTheLength : Obligations.CodeLenReadsTheLength := fun _ _ herr =>
  ⟨unlessFaulted_requires_symInRange_of_le herr, unlessFaulted_requires_of_false herr,
    unlessFaulted_requires_symInRange_of_gt herr⟩

/-! ### The bits of a stored code (R150, R159) -/

theorem getMsbD_topBit (b : Bool) (i : Nat) :
    (if b then BitVec.twoPow 256 255 else 0 : CodeBits).getMsbD i = (b && decide (i = 0)) := by
  cases b with
  | false => simp
  | true =>
    rw [if_pos rfl, BitVec.getMsbD_eq_getLsbD, BitVec.getLsbD_twoPow, Bool.true_and, ← Bool.decide_and,
      ← Bool.decide_and]
    exact decide_eq_decide.2 (by omega)

/-- `store(p)` is left-aligned: bit `255 - i` is path bit `i`, and 0 at or beyond the end of the path (R150). -/
theorem getMsbD_storeBits (p : List Bool) {i : Nat} (hi : i < 256) : (storeBits p).getMsbD i = p.getD i false := by
  induction p generalizing i with
  | nil => exact BitVec.getMsbD_zero
  | cons b p ih =>
    have hcons : storeBits (b :: p) = (storeBits p >>> 1) ||| (if b then BitVec.twoPow 256 255 else 0) := rfl
    rw [hcons, BitVec.getMsbD_or, BitVec.getMsbD_ushiftRight, getMsbD_topBit]
    cases i with
    | zero => simp
    | succ i => simp [hi, ih (Nat.lt_of_succ_lt hi)]

theorem CodesLeftAligned.getMsbD_codeAt {s : State} (h : CodesLeftAligned s) {k i : Nat} (hk : k ≤ 256) (hi : i < 256) :
    (s.codeAt k).bits.getMsbD i = (s.pathOf k).getD i false := by
  rw [← (h k (Nat.lt_succ_of_le hk)).2]
  exact getMsbD_storeBits _ hi

/-- The chunk in a response, the earliest bit in response bit 31 (R159). -/
theorem getLsbD_selectChunk (b : CodeBits) (k : BitVec 3) {i : Nat} (hi : i < 32) :
    ((selectChunk b k).zeroExtend 64).getLsbD (31 - i) = b.getLsbD (255 - 32 * k.toNat - i) := by
  have hk := k.isLt
  rw [selectChunk, BitVec.getLsbD_setWidth, BitVec.getLsbD_extractLsb', decide_eq_true (by omega : 31 - i < 64),
    decide_eq_true (by omega : 31 - i < 32), Bool.true_and, Bool.true_and,
    show 224 - 32 * k.toNat + (31 - i) = 255 - 32 * k.toNat - i by omega]

theorem extractLsb'_zeroExtend_high (v : BitVec 32) : (v.zeroExtend 64).extractLsb' 32 32 = 0 := by
  ext i hi
  simp

/-- Settles O34: the response is the chunk's bits; a left-aligned code holds its path bits there. -/
theorem codeBitsReadsOneChunk : Obligations.CodeBitsReadsOneChunk := by
  intro s a k herr
  refine ⟨fun hcodes ha => ?_, unlessFaulted_requires_of_false herr, unlessFaulted_requires_symInRange_of_gt herr⟩
  refine ⟨_, unlessFaulted_requires_symInRange_of_le herr hcodes ha, ?_, fun i hi => getLsbD_selectChunk _ k hi,
    fun haligned i hi => ?_⟩
  · exact extractLsb'_zeroExtend_high _
  · have hk := k.isLt
    rw [getLsbD_selectChunk _ k hi, ← CodesLeftAligned.getMsbD_codeAt haligned ha (by omega),
      BitVec.getMsbD_eq_getLsbD, decide_eq_true (by omega : 32 * k.toNat + i < 256), Bool.true_and, Nat.sub_sub]

end Sys2Proof.Machine
end

section
/-! ENC_START, ENC_SYM, ENC_END and GET_BITCNT (spec/43_encoder.md R166 to R174). -/

namespace Sys2Proof.Machine

/-- Settles O35: the two outcomes of the Requires condition. -/
theorem encStartOpensARun : Obligations.EncStartOpensARun := fun _ _ herr =>
  ⟨unlessFaulted_requires_of_true herr, unlessFaulted_requires_of_false herr⟩

/-- Settles O38: the command has no check of its own. -/
theorem getBitcntReadsTheCount : Obligations.GetBitcntReadsTheCount := fun _ herr =>
  unlessFaulted_of_noFault (body := fun s => respond s.encBitcnt s) herr

/-! ### A command that needs a run and a code (R169, R170, R172) -/

section
variable {s : State} {op : BitVec 8} {k : Nat} {body : State → Result} (herr : s.err = .noFault)
include herr

theorem unlessFaulted_requires_run_of_not_run (hrun : s.encState ≠ .run) :
    unlessFaulted (requires (s.encState == .run) op body) s = raise .seq (op.zeroExtend 32) s :=
  unlessFaulted_requires_of_false herr (beq_eq_false_iff_ne.2 hrun)

theorem unlessFaulted_requires_run_needsCode_of_hasCode (hrun : s.encState = .run) (hcode : s.hasCode k) :
    unlessFaulted (requires (s.encState == .run) op (needsCode k body)) s = body s :=
  (unlessFaulted_requires_of_true herr (beq_iff_eq.2 hrun)).trans (if_neg hcode)

theorem unlessFaulted_requires_run_needsCode_of_not_hasCode (hrun : s.encState = .run) (hcode : ¬ s.hasCode k) :
    unlessFaulted (requires (s.encState == .run) op (needsCode k body)) s = raise .noCode (BitVec.ofNat 32 k) s :=
  (unlessFaulted_requires_of_true herr (beq_iff_eq.2 hrun)).trans (if_pos (not_not.1 hcode))

end

/-! ### Emitting a code, and flushing after it (R167, R171) -/

@[simp] theorem emitCode_encDry (k : Nat) (s : State) : (emitCode k s).encDry = s.encDry := by rw [emitCode_frame]

/-- What a code does to the trace, the count and the packer; `emitCode_frame` says what it leaves unchanged. -/
theorem emitCode_spec (k : Nat) (s : State) : ∃ new,
    (emitCode k s).encTrace = s.encTrace ++ s.pathOf k ∧
    (emitCode k s).encBitcnt = s.encBitcnt + (s.codeAt k).len.zeroExtend 64 ∧
    (emitCode k s).encOut = s.encOut ++ new ∧ (emitCode k s).encPort = s.encPort ++ new ∧
    (s.encDry = false → bitsOf new ++ pendingBits (emitCode k s) = pendingBits s ++ s.pathOf k) ∧
    (s.encDry = true → new = [] ∧ (emitCode k s).encAcc = s.encAcc ∧ (emitCode k s).encNbits = s.encNbits) := by
  obtain ⟨new, htrace, hcount, hout, hport, hpack, hdry, -⟩ := putBits_spec (codePath (s.codeAt k)) s
  rw [codePath_length, BitVec.ofNat_toNat] at hcount
  exact ⟨new, htrace, hcount, hout, hport, hpack, hdry⟩

/-- Fewer than eight pending bits and a code of at most 256 bits complete at most 32 bytes. -/
theorem length_le_of_packed {s t : State} {k : Nat} {new : List Byte}
    (hpack : bitsOf new ++ pendingBits t = pendingBits s ++ s.pathOf k) (hlen : (s.codeAt k).len.toNat ≤ 256) :
    new.length ≤ 32 := by
  have hbits := congrArg List.length hpack
  rw [List.length_append, List.length_append, bitsOf_length, pendingBits_length, pendingBits_length, State.pathOf,
    codePath_length] at hbits
  have hpending : s.encNbits.toNat < 8 := s.encNbits.isLt
  omega

/-- The code and the flush after it: together they output the pending bits, the code and the pad bits (R171, R172). -/
theorem flush_emitCode_output (k : Nat) (s : State) : ∃ new,
    (flush (emitCode k s)).encOut = s.encOut ++ new ∧ (flush (emitCode k s)).encPort = s.encPort ++ new ∧
    (s.encDry = false → ∃ pad, pad < 8 ∧ bitsOf new = pendingBits s ++ s.pathOf k ++ List.replicate pad false) ∧
    (s.encDry = true → new = []) := by
  obtain ⟨new, -, -, hout, hport, hpack, hdry⟩ := emitCode_spec k s
  obtain ⟨last, hflushOut, hflushPort, hpad, hflushDry, -⟩ := flush_spec (emitCode k s)
  rw [emitCode_encDry] at hpad hflushDry
  refine ⟨new ++ last, ?_, ?_, fun hwet => ?_, fun hd => ?_⟩
  · rw [hflushOut, hout, List.append_assoc]
  · rw [hflushPort, hport, List.append_assoc]
  · obtain ⟨pad, hlt, hlast⟩ := hpad hwet
    exact ⟨pad, hlt, by rw [bitsOf_append, hlast, ← List.append_assoc, hpack hwet]⟩
  · rw [(hdry hd).1, hflushDry hd, List.append_nil]

/-! ### ENC_SYM (R169) -/

/-- Settles O36: the three outcomes of the checks; the one that emits is `emitCode_spec` with `emitCode_frame`. -/
theorem encSymEmitsTheCode : Obligations.EncSymEmitsTheCode := by
  intro s b herr
  refine ⟨fun hrun hcode => ?_, unlessFaulted_requires_run_of_not_run herr, fun hrun hcode => ?_⟩
  · obtain ⟨new, htrace, hcount, hout, hport, hpack, hdry⟩ := emitCode_spec b.toNat s
    refine ⟨sendResponse ⟨false, 0⟩ (emitCode b.toNat s), new,
      unlessFaulted_requires_run_needsCode_of_hasCode herr hrun hcode, htrace, hcount, hout, hport, hpack, hdry,
      fun hlen => ?_, congrArg (sendResponse _) (emitCode_frame b.toNat s)⟩
    cases hd : s.encDry with
    | false => exact length_le_of_packed (hpack hd) hlen
    | true => rw [(hdry hd).1]; exact Nat.zero_le 32
  · have hinfo : b.zeroExtend 32 = BitVec.ofNat 32 b.toNat := (BitVec.ofNat_toNat 32 b).symm
    rw [hinfo]
    exact unlessFaulted_requires_run_needsCode_of_not_hasCode herr hrun hcode

/-! ### ENC_END (R172) -/

/-- What ENC_END leaves of a run, before its response. -/
def endRun (s : State) : State := { flush (emitCode 256 s) with encState := .done }

theorem endRun_frame (s : State) : endRun s =
    { s with encState := .done, encTrace := (emitCode 256 s).encTrace, encBitcnt := (emitCode 256 s).encBitcnt
             encOut := (flush (emitCode 256 s)).encOut, encPort := (flush (emitCode 256 s)).encPort
             encAcc := 0, encNbits := 0 } := by
  rw [endRun, flush_frame, emitCode_frame]

/-- Settles O37: the three outcomes of the checks; the one that emits is `endRun`. -/
theorem encEndEmitsTheEndCodeAndFlushes : Obligations.EncEndEmitsTheEndCodeAndFlushes := by
  intro s herr
  refine ⟨fun hrun hcode => ?_, unlessFaulted_requires_run_of_not_run herr,
    unlessFaulted_requires_run_needsCode_of_not_hasCode herr⟩
  obtain ⟨-, htrace, hcount, -⟩ := emitCode_spec 256 s
  obtain ⟨new, hout, hport, hpad, hdry⟩ := flush_emitCode_output 256 s
  have hend : exec .encEnd s = respond 0 (endRun s) :=
    unlessFaulted_requires_run_needsCode_of_hasCode (body := fun s => respond 0 (endRun s)) herr hrun hcode
  rw [hend, endRun_frame]
  exact ⟨_, new, rfl, htrace, hcount, hout, hport, hpad, hdry, rfl, rfl, rfl⟩

end Sys2Proof.Machine
end

section
/-! DEC_START, DEC_BIT, DEC_BYTE and DEC_EOD (spec/44_decoder.md R188 to R194). -/

namespace Sys2Proof.Machine

/-! ### DEC_START (R188) -/

/-- Settles O40: the two outcomes of the Requires condition. -/
theorem decStartPointsAtTheRoot : Obligations.DecStartPointsAtTheRoot := fun _ herr =>
  ⟨exec_decStart_of_tree herr, unlessFaulted_requires_of_false herr⟩

/-! ### A command that needs a decode run (R189, R192, R194) -/

section
variable {s : State} {op : BitVec 8} {body : State → Result} (herr : s.err = .noFault)
include herr

theorem unlessFaulted_requires_decoding_of_idle (hidle : s.decState = .idle) :
    unlessFaulted (requires (s.decState != .idle) op body) s = raise .seq (op.zeroExtend 32) s :=
  unlessFaulted_requires_of_false herr (bne_eq_false_iff_eq.2 hidle)

theorem unlessFaulted_requires_decoding_of_not_idle (hbusy : s.decState ≠ .idle) :
    unlessFaulted (requires (s.decState != .idle) op body) s = body s :=
  unlessFaulted_requires_of_true herr (bne_iff_ne.2 hbusy)

end

/-! ### DEC_EOD (R194) -/

/-- Settles O45: one clause for each decoder state. -/
theorem decEodEndsOrTruncates : Obligations.DecEodEndsOrTruncates := by
  intro s herr
  refine ⟨fun hdone => ?_, fun hrun => ?_, unlessFaulted_requires_decoding_of_idle herr⟩
  · have hbusy : s.decState ≠ .idle := ne_of_eq_of_ne hdone nofun
    have hnotRun : s.decState ≠ .run := ne_of_eq_of_ne hdone nofun
    exact (unlessFaulted_requires_decoding_of_not_idle herr hbusy).trans (if_neg hnotRun)
  · have hbusy : s.decState ≠ .idle := ne_of_eq_of_ne hrun nofun
    exact (unlessFaulted_requires_decoding_of_not_idle herr hbusy).trans (if_pos hrun)

/-! ### One bit (R189, R190) -/

theorem arriveAt_of_internal {nxt : Idx} {s : State} (hinner : (s.nodeAt nxt).sym = Config.internalSym) :
    arriveAt nxt s = { s with decPtr := nxt } := if_pos hinner

theorem arriveAt_of_eof {nxt : Idx} {s : State} (heof : (s.nodeAt nxt).sym = Config.eofSym) :
    arriveAt nxt s = { s with decPtr := nxt, decState := .done } := by
  have hleaf : (s.nodeAt nxt).sym ≠ Config.internalSym := ne_of_eq_of_ne heof (by decide)
  exact (if_neg hleaf).trans (if_pos heof)

theorem arriveAt_of_literal {nxt : Idx} {s : State} (hleaf : (s.nodeAt nxt).sym ≠ Config.internalSym)
    (hliteral : (s.nodeAt nxt).sym ≠ Config.eofSym) :
    arriveAt nxt s = { outputDec ((s.nodeAt nxt).sym.truncate 8) s with decPtr := s.root } :=
  (if_neg hleaf).trans (if_neg hliteral)

theorem exec_decBit_of_deliver {s t : State} {b : Bool} (herr : s.err = .noFault) (hbusy : s.decState ≠ .idle)
    (hdeliver : deliver b s = some t) : exec (.decBit b) s = respond 0 t :=
  (unlessFaulted_requires_decoding_of_not_idle herr hbusy).trans (by rw [hdeliver])

/-- A bit with a child to move to (R190). -/
theorem exec_decBit_of_child {s : State} {b : Bool} (herr : s.err = .noFault) (hrun : s.decState = .run)
    (hchild : childOf (s.nodeAt s.decPtr) b ≠ Config.nullIdx) :
    exec (.decBit b) s = respond 0 (arriveAt (childOf (s.nodeAt s.decPtr) b) s) := by
  have hdeliver : deliver b s = some (arriveAt (childOf (s.nodeAt s.decPtr) b) s) :=
    (if_pos hrun).trans (if_neg hchild)
  exact exec_decBit_of_deliver herr (ne_of_eq_of_ne hrun nofun) hdeliver

/-- A bit after the end-of-stream symbol (R191). -/
theorem exec_decBit_of_done {s : State} {b : Bool} (herr : s.err = .noFault) (hdone : s.decState = .done) :
    exec (.decBit b) s = respond 0 s :=
  exec_decBit_of_deliver herr (ne_of_eq_of_ne hdone nofun) (deliver_of_not_run (ne_of_eq_of_ne hdone nofun) b)

/-- Settles O41: the decoder state, then the child on the bit, then the kind of node arrived at. -/
theorem decBitTakesOneTransition : Obligations.DecBitTakesOneTransition := by
  intro s b herr
  refine ⟨unlessFaulted_requires_decoding_of_idle herr, fun hrun habsent => ?_, fun hrun hchild hinner => ?_,
    fun hrun hchild heof => ?_, fun hrun hchild hleaf hliteral => ?_, exec_decBit_of_done herr⟩
  · have hinfo : (BitVec.ofBool b).zeroExtend 32 = if b then 1 else 0 := by cases b <;> rfl
    rw [exec_decBit_of_absent herr hrun habsent, raiseBadPath, hinfo]
    rfl
  · exact (exec_decBit_of_child herr hrun hchild).trans (congrArg (respond 0) (arriveAt_of_internal hinner))
  · exact (exec_decBit_of_child herr hrun hchild).trans (congrArg (respond 0) (arriveAt_of_eof heof))
  · exact (exec_decBit_of_child herr hrun hchild).trans (congrArg (respond 0) (arriveAt_of_literal hleaf hliteral))

/-- A DEC_BIT that succeeds has delivered its bit. -/
theorem deliver_of_exec_decBit {s t : State} {b : Bool} (h : exec (.decBit b) s = .next t) (hok : t.err = .noFault) :
    s.err = .noFault ∧ ∃ u, deliver b s = some u ∧ t = sendResponse ⟨false, 0⟩ u := by
  rcases unlessFaulted_next h with ⟨herr, hreq⟩ | ⟨herr, href⟩
  · rcases requires_next hreq with ⟨-, hbody⟩ | ⟨-, hseq⟩
    · refine ⟨herr, ?_⟩
      cases hd : deliver b s with
      | none => rw [hd] at hbody; cases hbody; cases hok
      | some u => rw [hd] at hbody; cases hbody; exact ⟨u, rfl, rfl⟩
    · cases hseq; cases hok
  · cases href; exact absurd hok herr

/-! ### Responses make no difference to the decoder -/

/-- The same end with another state. -/
def FeedEnd.map (f : State → State) : FeedEnd → FeedEnd
  | .fed s => .fed (f s)
  | .absent b s => .absent b (f s)

theorem arriveAt_sendResponse (nxt : Idx) (r : Response) (s : State) :
    arriveAt nxt (sendResponse r s) = sendResponse r (arriveAt nxt s) := by
  by_cases hinner : (s.nodeAt nxt).sym = Config.internalSym
  · rw [arriveAt_of_internal hinner, arriveAt_of_internal (s := sendResponse r s) hinner]; rfl
  · by_cases heof : (s.nodeAt nxt).sym = Config.eofSym
    · rw [arriveAt_of_eof heof, arriveAt_of_eof (s := sendResponse r s) heof]; rfl
    · rw [arriveAt_of_literal hinner heof, arriveAt_of_literal (s := sendResponse r s) hinner heof]; rfl

theorem deliver_sendResponse (b : Bool) (r : Response) (s : State) :
    deliver b (sendResponse r s) = (deliver b s).map (sendResponse r) := by
  rcases deliver_cases b s with ⟨hrun, hd⟩ | ⟨hrun, hchild, hd⟩ | ⟨hrun, hchild, hd⟩
  · rw [hd]; exact if_neg hrun
  · rw [hd]; exact (if_pos hrun).trans (if_pos hchild)
  · rw [hd, Option.map_some, ← arriveAt_sendResponse]; exact (if_pos hrun).trans (if_neg hchild)

theorem feedBits_sendResponse (p : List Bool) (r : Response) (s : State) :
    feedBits p (sendResponse r s) = (feedBits p s).map (sendResponse r) := by
  induction p generalizing s with
  | nil => rfl
  | cons b p ih =>
    simp only [feedBits, deliver_sendResponse]
    cases deliver b s with
    | none => rfl
    | some t => exact ih t

/-! ### DEC_BYTE against its DEC_BITs (R191, R192) -/

/-- Only the responses tell DEC_BITs that end without a fault from the bits fed in one command (R192). -/
theorem feedBits_of_runCommands {p : List Bool} {s u : State} (h : runCommands (p.map .decBit) s = some u)
    (hok : u.err = .noFault) : s.err = .noFault ∧ ∃ t, feedBits p s = .fed t ∧ u = { t with rsp := u.rsp } := by
  induction p generalizing s with
  | nil => cases h; exact ⟨hok, u, rfl, rfl⟩
  | cons b p ih =>
    obtain ⟨t, hexec⟩ := exec_answersNext (.decBit b) s
    rw [List.map_cons, runCommands, hexec] at h
    obtain ⟨hterr, v, hfed, hu⟩ := ih h
    obtain ⟨herr, w, hdeliver, rfl⟩ := deliver_of_exec_decBit hexec hterr
    refine ⟨herr, ?_⟩
    rw [feedBits_sendResponse] at hfed
    simp only [feedBits, hdeliver]
    cases hw : feedBits p w with
    | absent c x => rw [hw] at hfed; cases hfed
    | fed x => rw [hw] at hfed; cases hfed; exact ⟨x, rfl, hu⟩

/-- Outside state RUN every bit is discarded (R191). -/
theorem feedBits_of_not_run {s : State} (hrun : s.decState ≠ .run) (p : List Bool) : feedBits p s = .fed s := by
  induction p with
  | nil => rfl
  | cons b p ih => rw [feedBits, deliver_of_not_run hrun b]; exact ih

/-- The bits after those that left state RUN make no difference (R191). -/
theorem feedBits_of_take {p : List Bool} {n : Nat} {s t : State} (hfed : feedBits (p.take n) s = .fed t)
    (hrun : t.decState ≠ .run) : feedBits p s = .fed t := by
  rw [← List.take_append_drop n p, feedBits_append, hfed]
  exact feedBits_of_not_run hrun _

theorem take_byteBits_congr {v w : Byte} {n : Nat} (hn : n ≤ 8) (h : ∀ i < n, v.getLsbD (7 - i) = w.getLsbD (7 - i)) :
    (byteBits v).take n = (byteBits w).take n := by
  rw [byteBits, byteBits, ← List.map_take, ← List.map_take, List.take_range, Nat.min_eq_left hn]
  exact List.map_congr_left fun i hi => h i (List.mem_range.1 hi)

theorem exec_decByte_of_fed {s t : State} {v : Byte} (herr : s.err = .noFault) (hbusy : s.decState ≠ .idle)
    (hfed : feedBits (byteBits v) s = .fed t) : exec (.decByte v) s = respond 0 t :=
  (unlessFaulted_requires_decoding_of_not_idle herr hbusy).trans (by rw [hfed])

/-- A byte whose first bits reach state DONE: the rest is discarded. -/
theorem exec_decByte_of_take_done {s t : State} {v : Byte} {n : Nat} (herr : s.err = .noFault)
    (hfed : feedBits ((byteBits v).take n) s = .fed t) (hdone : t.decState = .done) :
    exec (.decByte v) s = respond 0 t := by
  have hbusy : s.decState ≠ .idle := by
    intro hidle
    rw [feedBits_of_not_run (ne_of_eq_of_ne hidle nofun)] at hfed
    cases hfed
    exact nomatch hidle.symm.trans hdone
  exact exec_decByte_of_fed herr hbusy (feedBits_of_take hfed (ne_of_eq_of_ne hdone nofun))

/-- Settles O42: in DONE nothing is interpreted; and a byte whose first bits reach DONE ends where they do, by
`exec_decByte_of_take_done`, for the state that `feedBits_of_runCommands` finds. -/
theorem bitsAfterTheEndAreDiscarded : Obligations.BitsAfterTheEndAreDiscarded := by
  refine ⟨fun s herr hdone =>
    ⟨fun b => exec_decBit_of_done herr hdone, fun v => exec_decByte_of_take_done (n := 0) herr rfl hdone⟩, ?_⟩
  intro s u v v' n herr hn hbits hrun hok hdone
  obtain ⟨-, t, hfed, hu⟩ := feedBits_of_runCommands hrun hok
  have htdone : t.decState = .done := by rw [hu] at hdone; exact hdone
  have hv := exec_decByte_of_take_done herr hfed htdone
  have hv' := exec_decByte_of_take_done (v := v') herr (take_byteBits_congr hn hbits ▸ hfed) htdone
  refine ⟨hv.trans hv'.symm, ?_⟩
  have hrsp : t.rsp = s.rsp := by rw [(feedBits_frame _ s).1 t hfed]
  rw [hv, respond_eq, hrsp, hu]

end Sys2Proof.Machine
end

section
/-! CLEAR and GET_STATUS (spec/45_system.md R206, R207): what each answers in every state, and where each field stands
in the status word (spec/10_state.md R49). -/

namespace Sys2Proof.Machine

/-! ### CLEAR (R206) -/

/-- The mask test of R88, for a word whose opcode's row is known. -/
theorem decode_of_find?_eq_some {w : Word} {r : OpRow} (h : opRows.find? (fun r => r.op == opField w) = some r) :
    decode w = if w &&& r.fixedMask = r.fixedBits then .cmd (r.make (aField w) (dField w))
      else .illegal .mustBeZero := by
  rw [decode, h]

/-- CLEAR uses no operand, so its row fixes every bit of the word. -/
theorem decode_of_opField_clear {w : Word} (hop : opField w = 0x01) :
    decode w = if w = 0x0100000000000000 then .cmd .clear else .illegal .mustBeZero := by
  have hrow : opRows.find? (fun r => r.op == opField w) =
      some ⟨0x01, BitVec.allOnes 64, 0x0100000000000000, fun _ _ => .clear⟩ := by rw [hop]; rfl
  rw [decode_of_find?_eq_some hrow, BitVec.and_allOnes]

/-- Settles O15: CLEAR is `clearBlock`, which leaves the ports, and a response; its row fixes the whole word. -/
theorem clearRestoresTheResetValues : Obligations.ClearRestoresTheResetValues :=
  ⟨fun s => ⟨_, exec_clear_eq s, (hasResetValues_clearBlock s).sendResponse _, rfl, rfl, rfl, rfl⟩,
    (decode_of_opField_clear rfl).trans (if_pos rfl),
    fun _ hop hne => (decode_of_opField_clear hop).trans (if_neg hne)⟩

/-! ### GET_STATUS (R207, R49) -/

/-- Settles O16: GET_STATUS sends `ERR_INFO ++ STATUS`. The bits of an appended word below the width of its lower part
are those of the lower part, the others those of the upper part: this finds each field of R49. (`-index`: the widths of
the words are sums, which the simplifier's index does not see through.) -/
theorem getStatusReadsTheStatusWord : Obligations.GetStatusReadsTheStatusWord := by
  intro s
  refine ⟨s.errInfo ++ s.status, exec_getStatus_eq s, ?_⟩
  unfold State.status
  and_intros <;>
    simp -index (disch := decide) only [BitVec.extractLsb'_append_eq_of_le, BitVec.extractLsb'_append_eq_of_add_le,
      BitVec.getLsbD_append, if_pos, if_neg, BitVec.extractLsb'_eq_self, BitVec.getLsbD_ofBool, decide_true,
      Bool.true_and]

end Sys2Proof.Machine
end

section
/-! The order of the checks (spec/60_exceptions.md R222) and the refusal of a faulted block (R221), once for every
command: `exec` is `requiresHolds`, then `indexInRange`, then `afterChecks`, unless the block is faulted. -/

namespace Sys2Proof.Machine

/-! ### Every command as its checks and the rest -/

/-- What a command does once its Requires condition and its index range hold (R222 step 5). -/
def afterChecks : Instr → State → Result
  | .clear, s => execClear s
  | .getStatus, s => execGetStatus s
  | .freqPut a d, s => respond 0 (s.setFreq a.toNat d)
  | .freqGet a, s => respond ((s.freqAt a.toNat).zeroExtend 64) s
  | .build, s => buildTree (dropDerived s)
  | .nodeGet a f, s => respond (selectField (s.nodeAt a) f) s
  | .release, s => respond 0
      { s with treeValid := false, nnodes := 0, root := Config.nullIdx, decState := .idle, decPtr := Config.nullIdx }
  | .gencodes, s => respond 0 (generateCodes s)
  | .codeLen a, s => respond ((s.codeAt a.toNat).len.zeroExtend 64) s
  | .codeBits a k, s => respond ((selectChunk (s.codeAt a.toNat).bits k).zeroExtend 64) s
  | .encStart dry, s => respond 0
      { s with encState := .run, encDry := dry, encAcc := 0, encNbits := 0, encBitcnt := 0, encOut := []
               encTrace := [] }
  | .encSym b, s => needsCode b.toNat (fun s => respond 0 (emitCode b.toNat s)) s
  | .encEnd, s => needsCode 256 (fun s => respond 0 (endRun s)) s
  | .getBitcnt, s => respond s.encBitcnt s
  | .decStart, s => respond 0 { s with decState := .run, decPtr := s.root, decOut := [] }
  | .decBit b, s =>
    match deliver b s with
    | none => raiseBadPath b s
    | some t => respond 0 t
  | .decByte v, s =>
    match feedBits (byteBits v) s with
    | .absent b t => raiseBadPath b t
    | .fed t => respond 0 t
  | .decEod, s => if s.decState = .run then raise .trunc (s.decPtr.zeroExtend 32) s else respond 0 s

/-- The checks of R222 steps 3 and 4, then the rest of the command. -/
def runChecks (i : Instr) (s : State) : Result :=
  requires (requiresHolds i s) i.opcode (keyInRange (indexInRange i s) i.aOperand (afterChecks i)) s

theorem symInRange_eq_decide (a : Idx) : symInRange a = decide (a.toNat ≤ 256) :=
  Bool.eq_iff_iff.2 ((symInRange_iff a).trans decide_eq_true_iff.symm)

/-- Every command but the two that run in a faulted block too is its checks behind step 1 of R222. -/
theorem exec_eq_unlessFaulted {i : Instr} (hclear : i ≠ .clear) (hstatus : i ≠ .getStatus) (s : State) :
    exec i s = unlessFaulted (runChecks i) s := by
  cases i with
  | clear => exact absurd rfl hclear
  | getStatus => exact absurd rfl hstatus
  | freqPut a d => rw [exec, execFreqPut, symInRange_eq_decide]; rfl
  | freqGet a => rw [exec, execFreqGet, symInRange_eq_decide]; rfl
  | codeLen a => rw [exec, execCodeLen, symInRange_eq_decide]; rfl
  | codeBits a k => rw [exec, execCodeBits, symInRange_eq_decide]; rfl
  | build | nodeGet | release | gencodes | encStart | encSym | encEnd | getBitcnt | decStart | decBit | decByte
  | decEod => rfl

/-- In a faulted block every command but CLEAR and GET_STATUS is refused (R221). -/
theorem exec_of_fault {i : Instr} {s : State} (hclear : i ≠ .clear) (hstatus : i ≠ .getStatus)
    (herr : s.err ≠ .noFault) : exec i s = refuse s := by
  rw [exec_eq_unlessFaulted hclear hstatus, unlessFaulted_of_fault herr]

theorem runWord_of_fault {w : Word} {s : State} (herr : s.err ≠ .noFault) (hclear : decode w ≠ .cmd .clear)
    (hstatus : decode w ≠ .cmd .getStatus) : runWord w s = refuse s := by
  cases hd : decode w with
  | cmd i =>
    rw [hd, ne_eq, Decoded.cmd.injEq] at hclear hstatus
    rw [runWord_of_cmd hd, exec_of_fault hclear hstatus herr]
  | illegal why => rw [runWord_of_illegal hd, execIllegal_of_fault w herr, refuse_eq]

/-- Settles O9: the refusal of commands and that of illegal words are both step 1 of R222. -/
theorem faultedBlockRefuses : Obligations.FaultedBlockRefuses := fun _ herr =>
  ⟨fun _ hclear hstatus => exec_of_fault hclear hstatus herr,
    fun w _ hw => (congrFun (runWord_of_illegal hw) _).trans (execIllegal_of_fault w herr)⟩

section
variable {i : Instr} {s : State} (herr : s.err = .noFault)
include herr

/-- CLEAR and GET_STATUS have no checks to pass. -/
theorem exec_eq_runChecks : exec i s = runChecks i s := by
  by_cases hclear : i = .clear
  · subst hclear; rfl
  by_cases hstatus : i = .getStatus
  · subst hstatus; rfl
  rw [exec_eq_unlessFaulted hclear hstatus, unlessFaulted_of_noFault herr]

theorem exec_of_not_requiresHolds (hreq : requiresHolds i s = false) :
    exec i s = raise .seq (i.opcode.zeroExtend 32) s := by
  rw [exec_eq_runChecks herr, runChecks, hreq, requires_false]

variable (hreq : requiresHolds i s = true)
include hreq

theorem exec_of_not_indexInRange (hidx : indexInRange i s = false) :
    exec i s = raise .badKey (i.aOperand.zeroExtend 32) s := by
  rw [exec_eq_runChecks herr, runChecks, hreq, requires_true, hidx, keyInRange_false]

theorem exec_eq_afterChecks (hidx : indexInRange i s = true) : exec i s = afterChecks i s := by
  rw [exec_eq_runChecks herr, runChecks, hreq, requires_true, hidx, keyInRange_true]

end

/-! ### The faults after the checks (R236) -/

/-- A fault that command `i`, run in `s`, raises after the checks: its code and its detail, and the state that `raise`
finds, which is not `s` for BUILD and DEC_BYTE (R220). -/
inductive LateFault (s : State) : Instr → ErrCode → BitVec 32 → State → Prop
  | freqEmpty : LateFault s .build .freqEmpty 0 (dropDerived s)
  | countOvf (n : Nat) (nodes : Table NodeEntry) :
    LateFault s .build .countOvf (BitVec.ofNat 32 n) { dropDerived s with node := nodes }
  | noCodeSym (b : Byte) : LateFault s (.encSym b) .noCode (BitVec.ofNat 32 b.toNat) s
  | noCodeEnd : LateFault s .encEnd .noCode 256 s
  | badPathBit (b : Bool) : LateFault s (.decBit b) .badPath ((BitVec.ofBool b).zeroExtend 32) s
  | badPathByte (v : Byte) {n : Nat} {u : State} (hn : n < 8) (hfed : feedBits ((byteBits v).take n) s = .fed u) :
    LateFault s (.decByte v) .badPath ((BitVec.ofBool (v.getLsbD (7 - n))).zeroExtend 32) u
  | trunc : LateFault s .decEod .trunc (s.decPtr.zeroExtend 32) s

/-- Command `i`, run in `s`, ended with no fault recorded, or raised one of its late faults. -/
def SucceedsOrFaultsLate (i : Instr) (s : State) (r : Result) : Prop :=
  (∃ t, r = .next t ∧ t.err = .noFault) ∨ ∃ e info u, LateFault s i e info u ∧ r = raise e info u

theorem respond_outcome {i : Instr} {s u : State} (v : Word) (herr : u.err = .noFault) :
    SucceedsOrFaultsLate i s (respond v u) := .inl ⟨_, rfl, herr⟩

theorem LateFault.outcome {i : Instr} {s u : State} {e : ErrCode} {info : BitVec 32} (h : LateFault s i e info u) :
    SucceedsOrFaultsLate i s (raise e info u) := .inr ⟨e, info, u, h, rfl⟩

theorem needsCode_outcome {i : Instr} {s : State} {k : Nat} {body : State → Result}
    (hnoCode : LateFault s i .noCode (BitVec.ofNat 32 k) s) (hbody : SucceedsOrFaultsLate i s (body s)) :
    SucceedsOrFaultsLate i s (needsCode k body s) := by
  unfold needsCode
  split
  · exact hnoCode.outcome
  · exact hbody

theorem getElem?_byteBits (v : Byte) {n : Nat} (hn : n < 8) : (byteBits v)[n]? = some (v.getLsbD (7 - n)) := by
  simp [byteBits, hn]

section
variable {s : State} (herr : s.err = .noFault)
include herr

theorem afterChecks_build_cases : SucceedsOrFaultsLate .build s (afterChecks .build s) := by
  rw [← exec_eq_afterChecks herr rfl rfl]
  rcases exec_build_cases herr with ⟨-, hb⟩ | ⟨-, hb⟩ | ⟨-, w, -, ⟨-, hb⟩ | ⟨-, -, -, -, hb⟩⟩ <;> rw [hb]
  · exact LateFault.freqEmpty.outcome
  · exact respond_outcome 0 herr
  · exact respond_outcome 0 herr
  · exact (LateFault.countOvf w.n w.node).outcome

theorem afterChecks_decByte_cases (v : Byte) : SucceedsOrFaultsLate (.decByte v) s (afterChecks (.decByte v) s) := by
  rw [afterChecks]
  cases hf : feedBits (byteBits v) s with
  | absent b t =>
    obtain ⟨n, hn, hb, hfed, -⟩ := feedBits_absent hf
    rw [byteBits_length] at hn
    obtain rfl := Option.some.inj ((getElem?_byteBits v hn).symm.trans hb)
    exact (LateFault.badPathByte v hn hfed).outcome
  | fed t =>
    have hterr : t.err = .noFault := by rw [(feedBits_frame _ s).1 t hf]; exact herr
    exact respond_outcome 0 hterr

theorem afterChecks_cases (i : Instr) : SucceedsOrFaultsLate i s (afterChecks i s) := by
  cases i with
  | clear => exact respond_outcome 0 rfl
  | build => exact afterChecks_build_cases herr
  | decByte v => exact afterChecks_decByte_cases herr v
  | gencodes => exact respond_outcome 0 ((generateCodes_err s).trans herr)
  | encSym b =>
    rw [afterChecks]
    refine needsCode_outcome (.noCodeSym b) ?_
    rw [emitCode_frame]; exact respond_outcome 0 herr
  | encEnd =>
    rw [afterChecks]
    refine needsCode_outcome .noCodeEnd ?_
    rw [endRun_frame]; exact respond_outcome 0 herr
  | decBit b =>
    rw [afterChecks]
    cases hd : deliver b s with
    | none => exact (LateFault.badPathBit b).outcome
    | some t => rw [deliver_frame hd]; exact respond_outcome 0 herr
  | decEod =>
    rw [afterChecks]
    split
    · exact LateFault.trunc.outcome
    · exact respond_outcome 0 herr
  | getStatus | freqPut | freqGet | nodeGet | release | codeLen | codeBits | encStart | getBitcnt | decStart =>
    exact respond_outcome _ herr

end

/-- What a command can do in a block with no fault: fail a check, or go on to succeed or to a late fault. -/
theorem exec_cases {i : Instr} {s : State} (herr : s.err = .noFault) :
    (requiresHolds i s = false ∧ exec i s = raise .seq (i.opcode.zeroExtend 32) s) ∨
    (indexInRange i s = false ∧ exec i s = raise .badKey (i.aOperand.zeroExtend 32) s) ∨
    (requiresHolds i s = true ∧ SucceedsOrFaultsLate i s (exec i s)) := by
  cases hreq : requiresHolds i s
  · exact .inl ⟨rfl, exec_of_not_requiresHolds herr hreq⟩
  cases hidx : indexInRange i s
  · exact .inr (.inl ⟨rfl, exec_of_not_indexInRange herr hreq hidx⟩)
  · exact .inr (.inr ⟨rfl, exec_eq_afterChecks herr hreq hidx ▸ afterChecks_cases herr i⟩)

theorem LateFault.code_ne {i : Instr} {s u : State} {e : ErrCode} {info : BitVec 32} (h : LateFault s i e info u) :
    e ≠ .illegalCmd ∧ e ≠ .seq ∧ e ≠ .badKey := by
  cases h <;> decide

/-- Settles O13: one clause for each check, in `runChecks`'s order; past them only a late fault is left. -/
theorem checksComeInOrder : Obligations.ChecksComeInOrder := by
  refine ⟨fun w s herr hclear hstatus => ?_, fun w why s herr hd => ?_, fun w i s herr hd hreq => ?_,
    fun w i s herr hd hreq hidx => ?_, fun w i s t herr hd hreq hidx ht => ?_, fun w i s hd => ?_⟩
  · rw [runWord_of_fault herr hclear hstatus, refuse_eq]
  · rw [runWord_of_illegal hd, execIllegal_of_noFault w herr]
  · obtain ⟨hop, -⟩ := (wellFormedFieldsDecodeToTheirOperands w).2 i hd
    rw [runWord_of_cmd hd, exec_of_not_requiresHolds herr hreq, hop]; rfl
  · obtain ⟨-, ha, -⟩ := (wellFormedFieldsDecodeToTheirOperands w).2 i hd
    rw [runWord_of_cmd hd, exec_of_not_indexInRange herr hreq hidx, ha]; rfl
  · rw [runWord_of_cmd hd, exec_eq_afterChecks herr hreq hidx] at ht
    rcases afterChecks_cases herr i with ⟨u, hu, hok⟩ | ⟨e, info, u, hlate, hu⟩
    · cases hu.symm.trans ht
      rw [hok]; decide
    · cases hu.symm.trans ht
      exact hlate.code_ne
  · rw [runWord_of_cmd hd]

end Sys2Proof.Machine
end

section
/-! The way out of a fault (spec/60_exceptions.md R224): what a step does to a faulted block, by the host's next
event. -/

namespace Sys2Proof.Machine

theorem step_of_no_input {s : State} (h : s.inputs = []) : step s = .next s := by
  rw [step, takeInput, h]

theorem step_of_rst {s : State} {rest : List HostEvent} (h : s.inputs = .rst :: rest) :
    step s = hardwareReset { s with inputs := rest } := by
  rw [step, takeInput, h]

theorem step_of_cmd {s : State} {w : Word} {rest : List HostEvent} (h : s.inputs = .cmd w :: rest) :
    step s = runWord w { s with inputs := rest } := by
  rw [step, takeInput, h]

/-- A word other than CLEAR's keeps the fault recorded. -/
theorem runWord_keeps_fault {w : Word} {s t : State} (herr : s.err ≠ .noFault) (hclear : decode w ≠ .cmd .clear)
    (ht : runWord w s = .next t) : t.err = s.err ∧ t.errInfo = s.errInfo := by
  by_cases hstatus : decode w = .cmd .getStatus
  · rw [runWord_of_cmd hstatus, exec_getStatus_eq] at ht
    cases ht
    exact ⟨rfl, rfl⟩
  · rw [runWord_of_fault herr hclear hstatus] at ht
    cases ht
    exact ⟨rfl, rfl⟩

/-- Settles O10: `rst` and CLEAR leave `clearBlock`'s state, no event leaves the state as it is, and every other word
keeps the fault. -/
theorem onlyClearOrResetLeavesTheFault : Obligations.OnlyClearOrResetLeavesTheFault := by
  intro s t herr ht
  refine ⟨?_, fun hrst hclear => ?_⟩
  · rintro (⟨rest, hin⟩ | ⟨w, rest, hin, hd⟩)
    · rw [step_of_rst hin, hardwareReset_eq] at ht
      cases ht
      exact hasResetValues_clearBlock _
    · rw [step_of_cmd hin, runWord_of_cmd hd, exec_clear_eq] at ht
      cases ht
      exact (hasResetValues_clearBlock _).sendResponse _
  · rcases hin : s.inputs with _ | ⟨w | _, rest⟩
    · rw [step_of_no_input hin] at ht
      cases ht
      exact ⟨rfl, rfl⟩
    · rw [step_of_cmd hin] at ht
      exact runWord_keeps_fault (s := { s with inputs := rest }) herr (fun hd => hclear ⟨w, rest, hin, hd⟩) ht
    · exact absurd ⟨rest, hin⟩ hrst

end Sys2Proof.Machine
end

section
/-! What a faulting command changes (spec/60_exceptions.md R220): for a DEC_BYTE, what the DEC_BITs of the bits before
the faulting one change (spec/44_decoder.md R192). -/

namespace Sys2Proof.Machine

theorem arriveAt_decState (nxt : Idx) (s : State) :
    (arriveAt nxt s).decState = s.decState ∨ (arriveAt nxt s).decState = .done := by
  unfold arriveAt
  dsimp only
  split
  · exact .inl rfl
  · split
    · exact .inr rfl
    · exact .inl rfl

/-- A delivered bit does not end a decode run in IDLE. -/
theorem deliver_decState_ne_idle {b : Bool} {s t : State} (hbusy : s.decState ≠ .idle) (h : deliver b s = some t) :
    t.decState ≠ .idle := by
  rcases deliver_cases b s with ⟨-, hd⟩ | ⟨-, -, hd⟩ | ⟨-, -, hd⟩ <;> cases hd.symm.trans h
  · exact hbusy
  · rcases arriveAt_decState (childOf (s.nodeAt s.decPtr) b) s with hkept | hdone
    · rwa [hkept]
    · rw [hdone]; nofun

/-- The bits fed in one command, sent as DEC_BITs: only the responses differ (R192); `feedBits_of_runCommands` is the
converse. -/
theorem runCommands_of_feedBits {p : List Bool} {s t : State} (herr : s.err = .noFault) (hbusy : s.decState ≠ .idle)
    (hfed : feedBits p s = .fed t) : ∃ rsp, runCommands (p.map .decBit) s = some { t with rsp := rsp } := by
  induction p generalizing s t with
  | nil => cases hfed; exact ⟨s.rsp, rfl⟩
  | cons b p ih =>
    simp only [feedBits] at hfed
    cases hd : deliver b s with
    | none => rw [hd] at hfed; cases hfed
    | some u =>
      rw [hd] at hfed
      change feedBits p u = .fed t at hfed
      have huerr : u.err = .noFault := by rw [deliver_frame hd]; exact herr
      have hubusy : u.decState ≠ .idle := deliver_decState_ne_idle hbusy hd
      have hsent : feedBits p (sendResponse ⟨false, 0⟩ u) = .fed (sendResponse ⟨false, 0⟩ t) := by
        rw [feedBits_sendResponse, hfed, FeedEnd.map]
      rw [List.map_cons, runCommands, exec_decBit_of_deliver herr hbusy hd]
      exact ih (s := sendResponse ⟨false, 0⟩ u) (t := sendResponse ⟨false, 0⟩ t) huerr hubusy hsent

/-- Settles O11: a failed check and every late fault but BUILD's and DEC_BYTE's is raised in `s` itself, BUILD's after
step 0, and DEC_BYTE's in the state that its first bits, sent as DEC_BITs, leave. -/
theorem faultChangesOnlyTheFaultRegisters : Obligations.FaultChangesOnlyTheFaultRegisters := by
  intro i s t herr ht hfault
  rcases exec_cases herr with ⟨hreq, hx⟩ | ⟨hidx, hx⟩ | ⟨hreq, ⟨u, hu, hok⟩ | ⟨e, info, u, hlate, hx⟩⟩
  · cases hx.symm.trans ht
    have hbuild : i ≠ .build := by rintro rfl; cases hreq
    exact ⟨fun _ _ => rfl, fun h => absurd h hbuild, nofun⟩
  · cases hx.symm.trans ht
    have hbuild : i ≠ .build := by rintro rfl; cases hidx
    exact ⟨fun _ _ => rfl, fun h => absurd h hbuild, nofun⟩
  · cases hu.symm.trans ht
    exact absurd hok hfault
  · cases hx.symm.trans ht
    cases hlate with
    | freqEmpty | countOvf => exact ⟨fun hne => absurd rfl hne, fun _ => rfl, nofun⟩
    | noCodeSym | noCodeEnd | badPathBit | trunc => exact ⟨fun _ _ => rfl, nofun, nofun⟩
    | @badPathByte v n _ hn hfed =>
      refine ⟨fun _ hne => absurd rfl (hne rfl v), nofun, ?_⟩
      intro _ hv _
      cases hv
      have hbusy : s.decState ≠ .idle := bne_iff_ne.1 hreq
      obtain ⟨rsp, hrun⟩ := runCommands_of_feedBits herr hbusy hfed
      have hframe := (feedBits_frame _ s).1 u hfed
      have huerr : u.err = .noFault := by rw [hframe]; exact herr
      have hursp : u.rsp = s.rsp := by rw [hframe]
      exact ⟨n, _, hn, hrun, huerr, by rw [← hursp]; rfl⟩

end Sys2Proof.Machine
end

section
/-! The encoder and the decoder are inverse to each other (spec/30_encoding.md R86 to R89). -/

namespace Sys2Proof

open Machine (decode_of_find?_eq_some)

theorem fieldsOf_packFields (c : CmdFields) : fieldsOf (packFields c) = c := by
  obtain ⟨op, rsv, a, d⟩ := c
  simp only [fieldsOf, opField, rsvField, aField, dField, packFields, CmdFields.mk.injEq]
  and_intros <;>
    simp -index (disch := decide) only [BitVec.extractLsb'_append_eq_of_le, BitVec.extractLsb'_append_eq_of_add_le,
      BitVec.extractLsb'_eq_self]

theorem nodeFieldOf_nodeFieldBits (f : NodeField) : nodeFieldOf (nodeFieldBits f) = f := by
  cases f <;> rfl

theorem extractLsb'_zeroExtend {n : Nat} (v : BitVec n) (hn : n ≤ 32) : (v.zeroExtend 32).extractLsb' 0 n = v := by
  refine BitVec.eq_of_getLsbD_eq fun i hi => ?_
  simp [hi, hi.trans_le hn]

/-- The row of a command's opcode makes the command back from its operands. -/
theorem exists_row (i : Instr) :
    ∃ r, opRows.find? (fun r => r.op == i.opcode) = some r ∧ r.make i.aOperand i.dOperand = i := by
  cases i with
  | nodeGet a f => exact ⟨_, rfl, congrArg (Instr.nodeGet a)
      ((congrArg nodeFieldOf (extractLsb'_zeroExtend (nodeFieldBits f) (by decide))).trans
        (nodeFieldOf_nodeFieldBits f))⟩
  | codeBits a k => exact ⟨_, rfl, congrArg (Instr.codeBits a) (extractLsb'_zeroExtend k (by decide))⟩
  | encSym b => exact ⟨_, rfl, congrArg Instr.encSym (extractLsb'_zeroExtend b (by decide))⟩
  | decByte v => exact ⟨_, rfl, congrArg Instr.decByte (extractLsb'_zeroExtend v (by decide))⟩
  | encStart dry => exact ⟨_, rfl, by cases dry <;> rfl⟩
  | decBit b => exact ⟨_, rfl, by cases b <;> rfl⟩
  | clear | getStatus | freqPut | freqGet | build | release | gencodes | codeLen | encEnd | getBitcnt | decStart
  | decEod => exact ⟨_, rfl, rfl⟩

/-- The fields of every command's word meet R87. -/
theorem fields_wellFormed (i : Instr) : i.fields.wellFormed = true := by
  cases i with
  | clear => exact Laws.Encodes.clear
  | getStatus => exact Laws.Encodes.getStatus
  | freqPut a d => exact Laws.Encodes.freqPut a d
  | freqGet a => exact Laws.Encodes.freqGet a
  | build => exact Laws.Encodes.build
  | nodeGet a f => exact Laws.Encodes.nodeGet a f
  | release => exact Laws.Encodes.release
  | gencodes => exact Laws.Encodes.gencodes
  | codeLen a => exact Laws.Encodes.codeLen a
  | codeBits a k => exact Laws.Encodes.codeBits a k
  | encStart dry => exact Laws.Encodes.encStart dry
  | encSym b => exact Laws.Encodes.encSym b
  | encEnd => exact Laws.Encodes.encEnd
  | getBitcnt => exact Laws.Encodes.getBitcnt
  | decStart => exact Laws.Encodes.decStart
  | decBit b => exact Laws.Encodes.decBit b
  | decByte v => exact Laws.Encodes.decByte v
  | decEod => exact Laws.Encodes.decEod

/-- Settles O2: the word's fields are the command's, so they find its row, pass the row's mask test, and give the row
the operands it makes the command from. -/
theorem decodeInvertsEncode : Obligations.DecodeInvertsEncode := by
  intro i
  have hfields : fieldsOf (encode i) = i.fields := fieldsOf_packFields i.fields
  obtain ⟨hop, -, ha, hd⟩ := CmdFields.mk.inj hfields
  obtain ⟨r, hfind, hmake⟩ := exists_row i
  have hrow : r.op = opField (encode i) := by
    rw [hop]
    simpa using List.find?_some hfind
  rw [← hop] at hfind
  have hmask := (masked_eq_iff_wellFormed (List.mem_of_find?_eq_some hfind) hrow).2 (hfields ▸ fields_wellFormed i)
  rw [decode_of_find?_eq_some hfind, if_pos hmask, ha, hd, hmake]

/-- Settles O3: a command keeps the fields of the word it was decoded from, and a word is what its fields pack to. -/
theorem encodeInvertsDecode : Obligations.EncodeInvertsDecode := fun w _ h => by
  rw [encode, fields_of_decode h, packFields_fieldsOf]

/-- Settles O1, by evaluating the decoder on the ten words. -/
theorem decodesWrittenOutWords : Obligations.DecodesWrittenOutWords := by
  unfold Obligations.DecodesWrittenOutWords
  decide

end Sys2Proof
end

section
/-! One step by the host's next event (spec/30_encoding.md R85, spec/70_reset_and_hazards.md R245), and the faults each
command can raise (spec/60_exceptions.md R236). -/

namespace Sys2Proof.Machine

/-- Settles O6: `step_of_cmd`, then `runWord_of_cmd`. -/
theorem stepRunsTheDecodedCommand : Obligations.StepRunsTheDecodedCommand := fun _ _ _ hin =>
  ⟨fun _ hd => by rw [step_of_cmd hin, runWord_of_cmd hd], step_of_cmd hin⟩

/-- Settles O7: with no event the state stays, and `rst` is `clearBlock`, which leaves the ports. -/
theorem resetPulseAndIdleStep : Obligations.ResetPulseAndIdleStep :=
  ⟨fun _ hin => step_of_no_input hin, fun s rest hin =>
    ⟨clearBlock { s with inputs := rest }, (step_of_rst hin).trans (hardwareReset_eq _), hasResetValues_clearBlock _,
      rfl, rfl, rfl, rfl⟩⟩

theorem seq_mem_faultsOf {i : Instr} {s : State} (h : requiresHolds i s = false) : .seq ∈ faultsOf i := by
  cases i with
  | clear | getStatus | freqPut | freqGet | build | release | getBitcnt => cases h
  | nodeGet | gencodes | codeLen | codeBits | encStart | encSym | encEnd | decStart | decBit | decByte | decEod =>
    exact List.mem_cons_self

theorem badKey_mem_faultsOf {i : Instr} {s : State} (h : indexInRange i s = false) : .badKey ∈ faultsOf i := by
  cases i with
  | freqPut | freqGet => exact List.mem_cons_self
  | nodeGet | codeLen | codeBits => exact List.mem_cons_of_mem _ List.mem_cons_self
  | clear | getStatus | build | release | gencodes | encStart | encSym | encEnd | getBitcnt | decStart | decBit
  | decByte | decEod => cases h

theorem LateFault.mem_faultsOf {i : Instr} {s u : State} {e : ErrCode} {info : BitVec 32}
    (h : LateFault s i e info u) : e ∈ faultsOf i := by
  cases h <;> simp [faultsOf]

/-- Settles O12: a check that fails is one the command has, and a late fault is one that R236 lists. -/
theorem commandsRaiseOnlyTheirFaults : Obligations.CommandsRaiseOnlyTheirFaults := by
  intro i s t herr ht hfault
  rcases exec_cases herr with ⟨hreq, hx⟩ | ⟨hidx, hx⟩ | ⟨-, ⟨u, hu, hok⟩ | ⟨e, info, u, hlate, hx⟩⟩
  · cases hx.symm.trans ht
    exact seq_mem_faultsOf hreq
  · cases hx.symm.trans ht
    exact badKey_mem_faultsOf hidx
  · cases hu.symm.trans ht
    exact absurd hok hfault
  · cases hx.symm.trans ht
    exact hlate.mem_faultsOf

end Sys2Proof.Machine
end

section
/-! BUILD's outcome by the total of the counts (spec/41_tree_builder.md R132, R137), its frame (R130), and the structure
of the tree it leaves (spec/10_state.md R27). -/

namespace Sys2Proof.Machine

/-! ### The outcome by the total (R132, R137) -/

theorem totalCount_pos_iff {s : State} : 1 ≤ totalCount s ↔ 1 ≤ (presentKeys s).length := by
  rw [Nat.one_le_iff_ne_zero, Nat.one_le_iff_ne_zero, ne_eq, ne_eq, not_iff_not, ← sum_presentKeys,
    List.sum_eq_zero_iff, List.length_eq_zero_iff]
  constructor
  · intro h
    refine List.eq_nil_iff_forall_not_mem.2 fun k hk => (mem_presentKeys.1 hk).2 ?_
    exact BitVec.eq_of_toNat_eq (h _ (List.mem_map_of_mem hk))
  · intro h
    simp [h]

/-- Counts of two members of `PQ` that do not fit make a total that does not. -/
theorem MergeInv.le_totalCount_of_overflow {s : State} {w : BuildWork} {x y : Nat} (h : MergeInv (leafWork s) w)
    (hleast : TwoLeast w.node w.pq x y) (hover : 2 ^ 32 ≤ countOf w.node x + countOf w.node y) :
    2 ^ 32 ≤ totalCount s := by
  have hsum := h.sum_erase_two hleast
  rw [h.total, leafWork_n, sum_countOf_leaves (holdsLeaves_leafWork s).node] at hsum
  omega

theorem build_success_total_lt {s t : State} (herr : s.err = .noFault) (h : exec .build s = .next t)
    (hok : t.err = .noFault) : totalCount s < 2 ^ 32 := by
  rw [← (build_treeOfMap herr h hok).root_count]
  exact BitVec.isLt _

/-- Settles O19: the total is 0 exactly if no symbol is present; the root's count is the total, so a BUILD that succeeds
has one that fits; and where a merge does not fit, the counts in `PQ`, which add up to the total, are too large. -/
theorem buildSucceedsExactlyBelowTwoPow32 : Obligations.BuildSucceedsExactlyBelowTwoPow32 := by
  intro s herr
  have hpos := totalCount_pos_iff (s := s)
  have hsuccess {w : BuildWork} (hlen : 1 ≤ (presentKeys s).length)
      (hb : exec .build s = respond 0 (installTree w (dropDerived s))) :
      1 ≤ totalCount s ∧ totalCount s < 2 ^ 32 :=
    ⟨hpos.2 hlen, build_success_total_lt herr hb herr⟩
  rcases exec_build_cases herr with ⟨hempty, hb⟩ | ⟨hone, hb⟩ | ⟨hmany, w, hinv, ⟨-, hb⟩ | ⟨x, y, hleast, hover, hb⟩⟩
  · have htotal : totalCount s = 0 := by
      rw [hempty, List.length_nil] at hpos
      omega
    exact ⟨_, hb, fun _ => rfl, fun _ => ⟨rfl, rfl, rfl⟩, by omega, by omega⟩
  · have htotal := hsuccess hone.ge hb
    exact ⟨_, hb, fun _ => rfl, by omega, fun _ _ => ⟨herr, rfl, rfl⟩, by omega⟩
  · have htotal := hsuccess (by omega) hb
    exact ⟨_, hb, fun _ => rfl, by omega, fun _ _ => ⟨herr, rfl, rfl⟩, by omega⟩
  · have htotal := hinv.le_totalCount_of_overflow hleast hover
    have hle := hinv.le
    have hroom := hinv.room hleast (leafWork_n_le s)
    have htwo := hinv.length_erase_two hleast
    have hsize := hinv.size
    rw [leafWork_n] at hle hsize
    have hinfo : (BitVec.ofNat 32 w.n).toNat = w.n := (BitVec.toNat_ofNat w.n 32).trans (Nat.mod_eq_of_lt (by omega))
    refine ⟨_, hb, fun _ => rfl, by omega, by omega, fun _ => ⟨rfl, rfl, ?_⟩⟩
    change _ ≤ (BitVec.ofNat 32 w.n).toNat ∧ (BitVec.ofNat 32 w.n).toNat + 1 < _
    omega

/-! ### The frame (R130) -/

/-- Settles O26: each outcome writes over `dropDerived`, the tree or the fault registers only. -/
theorem buildChangesOnlyTheTreeAndItsDependants : Obligations.BuildChangesOnlyTheTreeAndItsDependants := by
  intro s t herr h
  rcases exec_build_cases herr with ⟨-, hb⟩ | ⟨-, hb⟩ | ⟨-, w, -, ⟨-, hb⟩ | ⟨x, y, -, -, hb⟩⟩ <;>
    cases hb.symm.trans h
  · exact ⟨rfl, fun _ => ⟨rfl, rfl, rfl⟩⟩
  · exact ⟨rfl, fun hfault => absurd herr hfault⟩
  · exact ⟨rfl, fun hfault => absurd herr hfault⟩
  · exact ⟨rfl, fun _ => ⟨rfl, rfl, rfl⟩⟩

/-! ### The structure of the tree (R27) -/

/-- The part of R27 that the leaves do not fix. -/
structure InnerShape (t : Table NodeEntry) (l n : Nat) : Prop where
  children_below : ∀ i < n, l ≤ i → (readNode t i).zero.toNat < i ∧
    ((readNode t i).one = Config.nullIdx ∨ (readNode t i).one.toNat < i)
  many_leaves : 2 ≤ l → ∀ i < n, l ≤ i → (readNode t i).one ≠ Config.nullIdx ∧
    countOf t i = countOf t (readNode t i).zero.toNat + countOf t (readNode t i).one.toNat
  one_leaf : l = 1 → readNode t 1 = ⟨Config.internalSym, (readNode t 0).count, 0, Config.nullIdx⟩
  owned_once : (childSlots t l n).Perm (List.range (n - 1))

theorem TreeOfMap.treeShape {s : State} {t : Table NodeEntry} {n : Nat} {root : Idx}
    (h : TreeOfMap s t n root.toNat) (hinner : InnerShape t (presentKeys s).length n) (hlast : root.toNat + 1 = n) :
    TreeShape t n root := by
  have hcount := h.leafCount_eq
  have hpos := h.pos
  have hone := h.n_one
  have hmany := h.n_many
  rw [← hcount] at hpos hone hmany hinner
  have hlt {i : Nat} (hi : i < leafCount t n) : i < (presentKeys s).length := hcount ▸ hi
  refine ⟨hpos, fun i hi => ?_, fun i hi => ?_, fun i hi => ?_, hinner.children_below,
    fun htwo => ⟨hmany htwo, hinner.many_leaves htwo⟩, fun hl => ⟨hone hl, hinner.one_leaf hl⟩, hinner.owned_once,
    hlast, h.inner _ (by omega) h.root_lt⟩
  · constructor
    · intro hleaf
      exact Nat.lt_of_not_le fun hle => hleaf (h.inner i (hcount ▸ hle) hi)
    · exact fun hi => h.sym_ne_internal (hlt hi)
  · have hkey := mem_presentKeys.1 (List.getElem_mem (hlt hi))
    refine ⟨h.sym_toNat (hlt hi) ▸ hkey.1, ?_⟩
    rw [h.leaves i (hlt hi)]
    exact ⟨hkey.2, rfl, rfl⟩
  · exact (h.sym_lt_sym_iff (hlt (by omega)) (hlt (by omega))).2 (Nat.lt_succ_self i)

theorem innerShape_synthesiseRoot (w : BuildWork) : InnerShape (synthesiseRoot w).node 1 2 where
  children_below i hi hl := by
    obtain rfl : i = 1 := by omega
    rw [readNode_synthesiseRoot_one]
    exact ⟨Nat.one_pos, .inl rfl⟩
  many_leaves h := by omega
  one_leaf _ := by rw [readNode_synthesiseRoot_one, readNode_synthesiseRoot_zero]
  owned_once := by
    rw [childSlots_succ _ le_rfl, childSlots_self, ownedBy, readNode_synthesiseRoot_one, if_pos rfl]
    exact List.Perm.refl _

theorem ne_nullIdx_of_lt {i : Idx} {n : Nat} (hi : i.toNat < n) (hn : n ≤ 1023) : i ≠ Config.nullIdx := by
  rintro rfl
  change 1023 < n at hi
  omega

theorem length_childSlots {t : Table NodeEntry} {l n : Nat} (hln : l ≤ n)
    (htwo : ∀ i, l ≤ i → i < n → (readNode t i).one ≠ Config.nullIdx) : (childSlots t l n).length = 2 * (n - l) := by
  induction n, hln using Nat.le_induction with
  | base => rw [childSlots_self, Nat.sub_self]; rfl
  | succ n hln ih =>
    have howned : (ownedBy t n).length = 2 := by rw [ownedBy, if_neg (htwo n hln (Nat.lt_succ_self n))]; rfl
    rw [childSlots_succ t hln, List.length_append, howned, ih fun i hl hi => htwo i hl (hi.trans (Nat.lt_succ_self n))]
    omega

section
variable {w₀ w : BuildWork} {r : Nat} (h : MergeInv w₀ w) (hmany : 2 ≤ w₀.n) (hl : w₀.n ≤ 257) (hpq : w.pq = [r])
include h hmany hl hpq

theorem MergeInv.n_eq : w.n = 2 * w₀.n - 1 := by
  have hsize := h.size
  rw [hpq, List.length_singleton] at hsize
  omega

/-- The last node made is free, so it is the one node left. -/
theorem MergeInv.last_eq : r + 1 = w.n := by
  have hn := h.n_eq hmany hl hpq
  obtain ⟨m, hm⟩ : ∃ m, w.n = m + 1 := ⟨w.n - 1, by omega⟩
  have hmerged := h.merged
  have hfree := h.pq
  rw [hm] at hmerged hfree
  have hlast : m ∈ w.pq :=
    hfree ▸ mem_freeBefore.2 ⟨Nat.lt_succ_self m, last_not_mem_childSlots (by omega) hmerged⟩
  rw [hpq, List.mem_singleton] at hlast
  rw [hm, hlast]

theorem MergeInv.innerShape : InnerShape w.node w₀.n w.n := by
  have hn := h.n_eq hmany hl hpq
  have hlast := h.last_eq hmany hl hpq
  have hone : ∀ i, w₀.n ≤ i → i < w.n → (readNode w.node i).one ≠ Config.nullIdx := fun i hli hin =>
    ne_nullIdx_of_lt (h.merged i hli hin).one_lt (by omega)
  refine ⟨fun i hin hli => ⟨(h.merged i hli hin).zero_lt, .inr (h.merged i hli hin).one_lt⟩,
    fun _ i hin hli => ⟨hone i hli hin, (h.merged i hli hin).count⟩, by omega, ?_⟩
  have hsub : List.range (w.n - 1) ⊆ childSlots w.node w₀.n w.n := fun j hj => by
    have hjn := List.mem_range.1 hj
    by_contra hfree
    have hjq : j ∈ w.pq := h.pq ▸ mem_freeBefore.2 ⟨by omega, hfree⟩
    rw [hpq, List.mem_singleton] at hjq
    omega
  refine ((List.subperm_of_subset List.nodup_range hsub).perm_of_length_le ?_).symm
  rw [length_childSlots h.le hone, List.length_range]
  omega

end

/-- The node counts and indices of a merged arena fit their registers. -/
theorem MergeInv.toNat_ofNat {s : State} {w : BuildWork} (h : MergeInv (leafWork s) w) {i : Nat} (hi : i ≤ w.n) :
    (BitVec.ofNat 10 i).toNat = i := by
  have hsize := h.size
  have hl := leafWork_n_le s
  exact toNat_ofNat_ten (by omega)

/-- Settles O20: the leaves are those of the frequency map, and the inner nodes are the synthesised root or what the
merge loop's invariant says of them. -/
theorem buildMakesAnArenaTree : Obligations.BuildMakesAnArenaTree := by
  intro s t herr h hok
  have htree := build_treeOfMap herr h hok
  obtain ⟨w, rfl, ⟨hone, rfl⟩ | ⟨hmany, hinv, hlast⟩⟩ := build_success_cases herr h hok
  · refine ⟨rfl, htree.treeShape ?_ rfl⟩
    rw [← leafWork_n, hone]
    exact innerShape_synthesiseRoot _
  · obtain ⟨r, hpq⟩ := List.length_eq_one_iff.1 hlast
    have hl := leafWork_n_le s
    have hnnodes : (BitVec.ofNat 10 w.n).toNat = w.n := hinv.toNat_ofNat le_rfl
    have hr := hinv.last_eq hmany hl hpq
    refine ⟨rfl, htree.treeShape ?_ ?_⟩
    · rw [← leafWork_n]
      change InnerShape w.node _ (BitVec.ofNat 10 w.n).toNat
      rw [hnnodes]
      exact hinv.innerShape hmany hl hpq
    · change (BitVec.ofNat 10 (w.pq.headD 0)).toNat + 1 = (BitVec.ofNat 10 w.n).toNat
      rw [hnnodes, hpq, List.headD_cons, hinv.toNat_ofNat (by omega), hr]

/-- In a tree of two or more leaves every inner node was a merge of the two least. -/
theorem build_mergedAt {s t : State} (herr : s.err = .noFault) (h : exec .build s = .next t) (hok : t.err = .noFault)
    (hmany : 2 ≤ (presentKeys s).length) {i : Nat} (hli : (presentKeys s).length ≤ i) (hin : i < t.nnodes.toNat) :
    MergedAt t.node (presentKeys s).length i := by
  rw [← leafWork_n] at hmany hli ⊢
  obtain ⟨w, rfl, ⟨hone, -⟩ | ⟨-, hinv, -⟩⟩ := build_success_cases herr h hok
  · omega
  · have hnnodes : (BitVec.ofNat 10 w.n).toNat = w.n := hinv.toNat_ofNat le_rfl
    exact hinv.merged i hli (hnnodes ▸ hin)

end Sys2Proof.Machine
end

section
/-! BUILD reads the frequency table only (spec/41_tree_builder.md R138): two blocks' leaves read alike, and so does what
is merged from them. -/

namespace Sys2Proof.Machine

/-- The two works differ only at entries that no node has. -/
structure SameWork (w₁ w₂ : BuildWork) : Prop where
  n : w₁.n = w₂.n
  pq : w₁.pq = w₂.pq
  node : ∀ j < w₁.n, readNode w₁.node j = readNode w₂.node j

/-- Both ends are of the same kind, with works that differ only at entries that no node has. -/
inductive SameEnd : MergeEnd → MergeEnd → Prop
  | tree {w₁ w₂ : BuildWork} (h : SameWork w₁ w₂) : SameEnd (.tree w₁) (.tree w₂)
  | overflow {w₁ w₂ : BuildWork} (h : SameWork w₁ w₂) : SameEnd (.overflow w₁) (.overflow w₂)

theorem SameEnd.exists_works {m₁ m₂ : MergeEnd} (h : SameEnd m₁ m₂) :
    (∃ w₁ w₂, m₁ = .tree w₁ ∧ m₂ = .tree w₂ ∧ SameWork w₁ w₂) ∨
    ∃ w₁ w₂, m₁ = .overflow w₁ ∧ m₂ = .overflow w₂ ∧ SameWork w₁ w₂ := by
  cases h with
  | tree h => exact .inl ⟨_, _, rfl, rfl, h⟩
  | overflow h => exact .inr ⟨_, _, rfl, rfl, h⟩

theorem argMin_congr {t₁ t₂ : Table NodeEntry} {q : List Nat} (h : ∀ j ∈ q, countOf t₁ j = countOf t₂ j) :
    argMin t₁ q = argMin t₂ q := by
  induction q with
  | nil => rfl
  | cons i q ih =>
    rw [argMin, argMin, ← ih fun j hj => h j (List.mem_cons_of_mem i hj)]
    cases hm : argMin t₁ q with
    | none => rfl
    | some j =>
      have hj := h j (List.mem_cons_of_mem i (argMin_spec hm).1)
      have hbelow : keyBelow t₁ j i = keyBelow t₂ j i := by rw [keyBelow, keyBelow, hj, h i List.mem_cons_self]
      dsimp only
      rw [hbelow]

theorem SameWork.merge {w₁ w₂ : BuildWork} {x y : Nat} (h : SameWork w₁ w₂) (hroom : w₁.n < 513) (hx : x < w₁.n)
    (hy : y < w₁.n) : SameWork (w₁.merge x y) (w₂.merge x y) where
  n := by rw [BuildWork.merge_n, BuildWork.merge_n, h.n]
  pq := by rw [BuildWork.merge_pq, BuildWork.merge_pq, h.n, h.pq]
  node j hj := by
    rw [BuildWork.merge_n] at hj
    rcases Nat.lt_succ_iff_lt_or_eq.1 hj with hlt | rfl
    · rw [BuildWork.readNode_merge_of_lt x y hlt, BuildWork.readNode_merge_of_lt x y (h.n ▸ hlt), h.node j hlt]
    · have hself := BuildWork.readNode_merge_self x y (h.n ▸ hroom)
      rw [← h.n, ← countOf_congr (h.node x hx), ← countOf_congr (h.node y hy)] at hself
      rw [BuildWork.readNode_merge_self x y hroom, hself]

/-- The merge loop takes the same turns on both works; the invariant of the first keeps its members below `n`. -/
theorem SameWork.mergeLoop {w₀ w₁ w₂ : BuildWork} (h : SameWork w₁ w₂) (hinv : MergeInv w₀ w₁) (hl : w₀.n ≤ 257)
    (fuel : Nat) : SameEnd (mergeLoop fuel w₁) (mergeLoop fuel w₂) := by
  induction fuel generalizing w₁ w₂ with
  | zero => exact .tree h
  | succ fuel ih =>
    have hcount : ∀ j ∈ w₁.pq, countOf w₁.node j = countOf w₂.node j := fun j hj =>
      countOf_congr (h.node j (hinv.lt_of_mem_pq hj))
    rw [Machine.mergeLoop, Machine.mergeLoop, ← h.pq, ← argMin_congr hcount]
    cases hx : argMin w₁.node w₁.pq with
    | none => exact .tree h
    | some x =>
      dsimp only
      rw [← argMin_congr fun j hj => hcount j (List.mem_of_mem_erase hj)]
      cases hy : argMin w₁.node (w₁.pq.erase x) with
      | none => exact .tree h
      | some y =>
        have hleast := twoLeast_of_argMin hinv.pq_nodup hx hy
        dsimp only
        rw [← hcount x hleast.zero_mem, ← hcount y hleast.one_mem]
        by_cases hover : 2 ^ 32 ≤ countOf w₁.node x + countOf w₁.node y
        · rw [if_pos hover, if_pos hover]
          exact .overflow ⟨h.n, rfl, h.node⟩
        · have hmerge := h.merge (hinv.room hleast hl) (hinv.lt_of_mem_pq hleast.zero_mem)
            (hinv.lt_of_mem_pq hleast.one_mem)
          have hnext := ih hmerge (hinv.merge hleast hl (Nat.lt_of_not_le hover))
          rw [if_neg hover, if_neg hover, h.pq, hcount x hleast.zero_mem, hcount y hleast.one_mem]
          rw [BuildWork.merge, BuildWork.merge, h.pq, hcount x hleast.zero_mem, hcount y hleast.one_mem] at hnext
          exact hnext

theorem SameWork.synthesiseRoot {w₁ w₂ : BuildWork} (h : SameWork w₁ w₂) (hn : w₁.n = 1) :
    SameWork (synthesiseRoot w₁) (synthesiseRoot w₂) where
  n := rfl
  pq := rfl
  node j hj := by
    have hzero := h.node 0 (by omega)
    obtain rfl | rfl : j = 0 ∨ j = 1 := by
      change j < 2 at hj
      omega
    · rw [readNode_synthesiseRoot_zero, readNode_synthesiseRoot_zero, hzero]
    · rw [readNode_synthesiseRoot_one, readNode_synthesiseRoot_one, hzero]

section
variable {s₁ s₂ : State} (hfreq : ∀ k < 257, s₁.freqAt k = s₂.freqAt k)
include hfreq

theorem presentKeys_congr : presentKeys s₁ = presentKeys s₂ :=
  List.filter_congr fun k hk => by rw [hfreq k (List.mem_range.1 hk)]

theorem sameWork_leafWork : SameWork (leafWork s₁) (leafWork s₂) where
  n := by rw [leafWork_n, leafWork_n, presentKeys_congr hfreq]
  pq := by rw [leafWork_pq, leafWork_pq, leafWork_n, leafWork_n, presentKeys_congr hfreq]
  node j hj := by
    have hkeys := presentKeys_congr hfreq
    have hj₁ : j < (presentKeys s₁).length := leafWork_n s₁ ▸ hj
    have hj₂ : j < (presentKeys s₂).length := hkeys ▸ hj₁
    have hkey : (presentKeys s₁)[j] = (presentKeys s₂)[j] := by simp only [hkeys]
    rw [(holdsLeaves_leafWork s₁).node j hj₁, (holdsLeaves_leafWork s₂).node j hj₂, ← hkey,
      hfreq _ (presentKeys_lt s₁ j hj₁)]

theorem sameEnd_mergeAll : SameEnd (mergeAll (leafWork s₁)) (mergeAll (leafWork s₂)) := by
  have hsame := sameWork_leafWork hfreq
  by_cases hone : (leafWork s₁).n = 1
  · rw [mergeAll_of_one hone, mergeAll_of_one (hsame.n ▸ hone)]
    exact .tree (hsame.synthesiseRoot hone)
  · rw [mergeAll_of_ne_one hone, mergeAll_of_ne_one (hsame.n ▸ hone), ← hsame.pq]
    exact hsame.mergeLoop (mergeInv_start (leafWork_pq s₁)) (leafWork_n_le s₁) _

end

/-! ### `buildTree` by the end of the merge loop -/

section
variable {s : State} {w : BuildWork}

theorem buildTree_dropDerived_of_empty (hn : (leafWork s).n = 0) :
    buildTree (dropDerived s) = raise .freqEmpty 0 (dropDerived s) := by
  rcases buildTree_dropDerived_cases s with ⟨-, hb⟩ | ⟨hne, -⟩
  · exact hb
  · exact absurd hn hne

theorem buildTree_dropDerived_of_tree (hn : (leafWork s).n ≠ 0) (hend : mergeAll (leafWork s) = .tree w) :
    buildTree (dropDerived s) = respond 0 (installTree w (dropDerived s)) := by
  rcases buildTree_dropDerived_cases s with ⟨h0, -⟩ | ⟨-, ⟨w', hw, hb⟩ | ⟨w', hw, hb⟩⟩
  · exact absurd h0 hn
  · cases hend.symm.trans hw
    exact hb
  · cases hend.symm.trans hw

theorem buildTree_dropDerived_of_overflow (hn : (leafWork s).n ≠ 0) (hend : mergeAll (leafWork s) = .overflow w) :
    buildTree (dropDerived s) =
      raise .countOvf (BitVec.ofNat 32 w.n) { dropDerived s with node := w.node, pq := w.pq } := by
  rcases buildTree_dropDerived_cases s with ⟨h0, -⟩ | ⟨-, ⟨w', hw, hb⟩ | ⟨w', hw, hb⟩⟩
  · exact absurd h0 hn
  · cases hend.symm.trans hw
  · cases hend.symm.trans hw
    exact hb

end

/-- Settles O25: the leaves read alike, so the merges end alike. -/
theorem buildDependsOnFreqAlone : Obligations.BuildDependsOnFreqAlone := by
  intro s₁ s₂ t₁ t₂ herr₁ herr₂ hfreq h₁ h₂
  have hleaves := (sameWork_leafWork hfreq).n
  rw [exec_build_of_noFault herr₁] at h₁
  rw [exec_build_of_noFault herr₂] at h₂
  by_cases hn₁ : (leafWork s₁).n = 0
  · cases (buildTree_dropDerived_of_empty hn₁).symm.trans h₁
    cases (buildTree_dropDerived_of_empty (hleaves ▸ hn₁)).symm.trans h₂
    exact ⟨rfl, fun _ => rfl, rfl, rfl, rfl, fun i hi => absurd hi (Nat.not_lt_zero i)⟩
  have hn₂ : (leafWork s₂).n ≠ 0 := hleaves ▸ hn₁
  rcases (sameEnd_mergeAll hfreq).exists_works with ⟨w₁, w₂, hw₁, hw₂, hsame⟩ | ⟨w₁, w₂, hw₁, hw₂, hsame⟩
  · cases (buildTree_dropDerived_of_tree hn₁ hw₁).symm.trans h₁
    cases (buildTree_dropDerived_of_tree hn₂ hw₂).symm.trans h₂
    have hnnodes : BitVec.ofNat 10 w₁.n = BitVec.ofNat 10 w₂.n := congrArg _ hsame.n
    have hroot : BitVec.ofNat 10 (w₁.pq.headD 0) = BitVec.ofNat 10 (w₂.pq.headD 0) := by rw [hsame.pq]
    refine ⟨herr₁.trans herr₂.symm, fun hfault => absurd herr₁ hfault, rfl, hnnodes, hroot, fun i hi => ?_⟩
    exact hsame.node i (lt_of_lt_of_le hi ((BitVec.toNat_ofNat w₁.n 10).trans_le (Nat.mod_le _ _)))
  · cases (buildTree_dropDerived_of_overflow hn₁ hw₁).symm.trans h₁
    cases (buildTree_dropDerived_of_overflow hn₂ hw₂).symm.trans h₂
    have hinfo : BitVec.ofNat 32 w₁.n = BitVec.ofNat 32 w₂.n := congrArg _ hsame.n
    exact ⟨rfl, fun _ => hinfo, rfl, rfl, rfl, fun i hi => absurd hi (Nat.not_lt_zero i)⟩

end Sys2Proof.Machine
end

section
/-! The laws of the code table that GENCODES makes from a tree (spec/42_code_table_gen.md R150, R151, R154): each entry
is the path to its symbol's leaf, and so no code begins with another. -/

namespace Sys2Proof.Machine

/-! ### Paths in an arena -/

section
variable {t : Table NodeEntry} {i j : Idx} {b : Bool} {p : List Bool}

theorem follow_nil_eq_some : follow t i [] = some j ↔ i ≠ Config.nullIdx ∧ i = j := by
  rw [follow]
  split <;> simp_all

theorem follow_cons_eq_some : follow t i (b :: p) = some j ↔ i ≠ Config.nullIdx ∧
    (readNode t i.toNat).sym = Config.internalSym ∧ follow t (childOf (readNode t i.toNat) b) p = some j := by
  rw [follow]
  split
  · simp_all
  · split <;> simp_all

/-- No path starts at an absent node. -/
theorem ne_nullIdx_of_follow (h : follow t i p = some j) : i ≠ Config.nullIdx := by
  cases p with
  | nil => exact (follow_nil_eq_some.1 h).1
  | cons b p => exact (follow_cons_eq_some.1 h).1

theorem follow_append_eq_some {q : List Bool} :
    follow t i (p ++ q) = some j ↔ ∃ m, follow t i p = some m ∧ follow t m q = some j := by
  induction p generalizing i with
  | nil =>
    simp only [List.nil_append, follow_nil_eq_some]
    constructor
    · exact fun h => ⟨i, ⟨ne_nullIdx_of_follow h, rfl⟩, h⟩
    · rintro ⟨m, ⟨-, rfl⟩, h⟩
      exact h
  | cons b p ih =>
    simp only [List.cons_append, follow_cons_eq_some, ih]
    constructor
    · rintro ⟨hi, hinner, m, hm, hq⟩
      exact ⟨m, ⟨hi, hinner, hm⟩, hq⟩
    · rintro ⟨m, ⟨hi, hinner, hm⟩, hq⟩
      exact ⟨hi, hinner, m, hm, hq⟩

theorem follow_singleton_eq_some : follow t i [b] = some j ↔ i ≠ Config.nullIdx ∧
    (readNode t i.toNat).sym = Config.internalSym ∧ childOf (readNode t i.toNat) b ≠ Config.nullIdx ∧
    childOf (readNode t i.toNat) b = j := by
  rw [follow_cons_eq_some, follow_nil_eq_some]

/-- No path goes past a leaf. -/
theorem eq_nil_of_follow_of_leaf (hleaf : (readNode t i.toNat).sym ≠ Config.internalSym)
    (h : follow t i p = some j) : p = [] ∧ i = j := by
  cases p with
  | nil => exact ⟨rfl, (follow_nil_eq_some.1 h).2⟩
  | cons b p => exact absurd (follow_cons_eq_some.1 h).2.1 hleaf

end

/-- Path `q` leads from node `i` to a leaf of symbol `k`. -/
def LeadsToLeaf (t : Table NodeEntry) (i : Idx) (q : List Bool) (k : Nat) : Prop :=
  ∃ j, follow t i q = some j ∧ (readNode t j.toNat).sym ≠ Config.internalSym ∧ (readNode t j.toNat).sym.toNat = k

theorem not_leadsToLeaf_of_absent {t : Table NodeEntry} {i : Idx} (hi : i = Config.nullIdx) (q : List Bool) (k : Nat) :
    ¬ LeadsToLeaf t i q k := by
  rintro ⟨j, hj, -⟩
  exact ne_nullIdx_of_follow hj hi

theorem leadsToLeaf_of_leaf {t : Table NodeEntry} {i : Idx} (hi : i ≠ Config.nullIdx)
    (hleaf : (readNode t i.toNat).sym ≠ Config.internalSym) (q : List Bool) (k : Nat) :
    LeadsToLeaf t i q k ↔ q = [] ∧ (readNode t i.toNat).sym.toNat = k := by
  constructor
  · rintro ⟨j, hj, -, hk⟩
    obtain ⟨rfl, rfl⟩ := eq_nil_of_follow_of_leaf hleaf hj
    exact ⟨rfl, hk⟩
  · rintro ⟨rfl, hk⟩
    exact ⟨i, follow_nil_eq_some.2 ⟨hi, rfl⟩, hleaf, hk⟩

/-- From an internal node every path to a leaf goes through a child. -/
theorem leadsToLeaf_of_internal {t : Table NodeEntry} {i : Idx} (hi : i ≠ Config.nullIdx)
    (hinner : (readNode t i.toNat).sym = Config.internalSym) (q : List Bool) (k : Nat) :
    LeadsToLeaf t i q k ↔ ∃ b p, q = b :: p ∧ LeadsToLeaf t (childOf (readNode t i.toNat) b) p k := by
  constructor
  · rintro ⟨j, hj, hleaf, hk⟩
    cases q with
    | nil =>
      obtain ⟨-, rfl⟩ := follow_nil_eq_some.1 hj
      exact absurd hinner hleaf
    | cons b p => exact ⟨b, p, rfl, j, (follow_cons_eq_some.1 hj).2.2, hleaf, hk⟩
  · rintro ⟨b, p, rfl, j, hj, hleaf, hk⟩
    exact ⟨j, follow_cons_eq_some.2 ⟨hi, hinner, hj⟩, hleaf, hk⟩

/-! ### Paths in a tree of R27's shape -/

theorem leafCount_le_size (t : Table NodeEntry) (n : Nat) : leafCount t n ≤ n :=
  (List.length_filter_le _ _).trans List.length_range.le

section
variable {t : Table NodeEntry} {n : Nat} {root : Idx} (h : TreeShape t n root)
include h

theorem TreeShape.leaf_iff {i : Nat} (hi : i < n) :
    (readNode t i).sym ≠ Config.internalSym ↔ i < leafCount t n := h.leaves_first i hi

theorem TreeShape.sym_lt_sym {i j : Nat} (hij : i < j) (hj : j < leafCount t n) :
    (readNode t i).sym.toNat < (readNode t j).sym.toNat := by
  induction j, hij using Nat.le_induction with
  | base => exact h.leaves_ascending i (by omega)
  | succ j hij ih => exact (ih (by omega)).trans (h.leaves_ascending j (by omega))

/-- Different leaves have different symbols. -/
theorem TreeShape.eq_of_sym_eq {i j : Nat} (hi : i < leafCount t n) (hj : j < leafCount t n)
    (hsym : (readNode t i).sym.toNat = (readNode t j).sym.toNat) : i = j := by
  rcases Nat.lt_trichotomy i j with hlt | heq | hgt
  · exact absurd hsym (h.sym_lt_sym hlt hj).ne
  · exact heq
  · exact absurd hsym (h.sym_lt_sym hgt hi).ne'

theorem TreeShape.ne_nullIdx {i : Idx} (hi : i.toNat < n) : i ≠ Config.nullIdx :=
  ne_nullIdx_of_lt hi (h.size_le.trans (by decide))

theorem TreeShape.root_lt : root.toNat < n := by
  have := h.root_last
  omega

/-- Every node but the root is the child of a later internal node (R27 item 5). -/
theorem TreeShape.exists_parent {j : Nat} (hj : j + 1 < n) : ∃ (i : Nat) (b : Bool), j < i ∧ i < n ∧
    (readNode t i).sym = Config.internalSym ∧ (childOf (readNode t i) b).toNat = j := by
  have hsize := h.size_le
  have howned : j ∈ childSlots t (leafCount t n) n := h.owned_once.mem_iff.2 (List.mem_range.2 (by omega))
  have hleaves := leafCount_le_size t n
  obtain ⟨i, hli, hin, hji⟩ := (mem_childSlots hleaves).1 howned
  have hinner : (readNode t i).sym = Config.internalSym := by
    by_contra hleaf
    exact absurd ((h.leaf_iff hin).1 hleaf) (by omega)
  have hchild : ∃ b, (childOf (readNode t i) b).toNat = j := by
    rw [ownedBy] at hji
    rcases List.mem_cons.1 hji with hzero | hone
    · exact ⟨false, hzero.symm⟩
    · split at hone
      · exact absurd hone List.not_mem_nil
      · exact ⟨true, (List.mem_singleton.1 hone).symm⟩
  obtain ⟨b, hb⟩ := hchild
  refine ⟨i, b, ?_, hin, hinner, hb⟩
  rcases h.child_below hin hinner b with habsent | hlt
  · exact absurd habsent (ne_nullIdx_of_lt (n := 513) (by omega) (by decide))
  · exact hb ▸ hlt

/-- Every node is reached from the root. -/
theorem TreeShape.exists_path {j : Nat} (hj : j < n) : ∃ q, follow t root q = some (BitVec.ofNat 10 j) := by
  have hsize := h.size_le
  have hroot := h.root_last
  rcases Nat.lt_or_ge (j + 1) n with hlt | hge
  · obtain ⟨i, b, hji, hin, hinner, hchild⟩ := h.exists_parent hlt
    obtain ⟨q, hq⟩ := TreeShape.exists_path hin
    have hindex : (BitVec.ofNat 10 i).toNat = i := toNat_ofNat_ten (by omega)
    have heq : childOf (readNode t i) b = BitVec.ofNat 10 j := by rw [← hchild, BitVec.ofNat_toNat, BitVec.setWidth_eq]
    refine ⟨q ++ [b], follow_append_eq_some.2 ⟨_, hq, follow_singleton_eq_some.2 ?_⟩⟩
    rw [hindex]
    exact ⟨h.ne_nullIdx (by omega), hinner, h.ne_nullIdx (by omega), heq⟩
  · obtain rfl : root.toNat = j := by omega
    refine ⟨[], follow_nil_eq_some.2 ⟨h.ne_nullIdx h.root_lt, ?_⟩⟩
    rw [BitVec.ofNat_toNat, BitVec.setWidth_eq]
termination_by n - j

/-- A path goes down, by one index at least for each bit, and leaves the internal nodes with its last bit. -/
theorem TreeShape.follow_bounds {i j : Idx} {q : List Bool} (hi : i.toNat < n) (hq : follow t i q = some j) :
    j.toNat ≤ i.toNat ∧ q.length ≤ i.toNat + 1 - leafCount t n := by
  induction q generalizing i with
  | nil =>
    obtain ⟨-, rfl⟩ := follow_nil_eq_some.1 hq
    exact ⟨le_rfl, Nat.zero_le _⟩
  | cons b q ih =>
    obtain ⟨-, hinner, hrest⟩ := follow_cons_eq_some.1 hq
    have hli : leafCount t n ≤ i.toNat := Nat.le_of_not_lt fun hlt => (h.leaf_iff hi).2 hlt hinner
    rcases h.child_below hi hinner b with habsent | hlt
    · exact absurd habsent (ne_nullIdx_of_follow hrest)
    · obtain ⟨hj, hlen⟩ := ih (hlt.trans hi) hrest
      rw [List.length_cons]
      omega

/-- `MAXLEN` (spec/00_scope.md R8). -/
theorem TreeShape.length_le_maxLen {j : Idx} {q : List Bool} (hq : follow t root q = some j) : q.length ≤ 256 := by
  obtain ⟨-, hlen⟩ := h.follow_bounds h.root_lt hq
  have hroot := h.root_last
  have hpos := h.some_leaf
  have hle := h.leafCount_le
  rcases Nat.lt_or_ge 1 (leafCount t n) with hmany | hone
  · have hn := (h.many_leaves hmany).1
    omega
  · have hn := (h.one_leaf (by omega)).1
    omega

/-- A path from the root to a leaf. -/
theorem TreeShape.leaf_of_leadsToLeaf {q : List Bool} {k : Nat} (hq : LeadsToLeaf t root q k) :
    ∃ i, i < leafCount t n ∧ (readNode t i).sym.toNat = k ∧ follow t root q = some (BitVec.ofNat 10 i) ∧ q ≠ [] := by
  obtain ⟨j, hj, hleaf, hk⟩ := hq
  have hjn := lt_of_le_of_lt (h.follow_bounds h.root_lt hj).1 h.root_lt
  refine ⟨j.toNat, (h.leaf_iff hjn).1 hleaf, hk, ?_, ?_⟩
  · rw [hj, BitVec.ofNat_toNat, BitVec.setWidth_eq]
  · rintro rfl
    obtain ⟨-, rfl⟩ := follow_nil_eq_some.1 hj
    exact hleaf h.root_internal

theorem TreeShape.leadsToLeaf_iff {q : List Bool} {i : Nat} (hi : i < leafCount t n) :
    LeadsToLeaf t root q (readNode t i).sym.toNat ↔ follow t root q = some (BitVec.ofNat 10 i) := by
  constructor
  · intro hq
    obtain ⟨j, hj, hsym, hfollow, -⟩ := h.leaf_of_leadsToLeaf hq
    rw [hfollow, h.eq_of_sym_eq hj hi hsym]
  · intro hq
    have hleaves := leafCount_le_size t n
    have hsize := h.size_le
    have hindex : (BitVec.ofNat 10 i).toNat = i := toNat_ofNat_ten (by omega)
    exact ⟨_, hq, by rw [hindex]; exact ⟨(h.leaf_iff (by omega)).2 hi, rfl⟩⟩

/-! ### What the recursive walk writes (R150) -/

/-- The walk from node `i` at path `p` writes, for each symbol with a leaf below `i`, the path to one of its leaves, and
leaves every other entry. -/
theorem TreeShape.read_walk (fuel : Nat) {i : Idx} (p : List Bool) (code : Table CodeEntry) (k : Nat)
    (hi : i = Config.nullIdx ∨ i.toNat < n ∧ i.toNat < fuel) :
    (∃ q, LeadsToLeaf t i q k ∧ Table.read codeUnlisted (walk t fuel i p code) k = storePath (p ++ q)) ∨
    ((∀ q, ¬ LeadsToLeaf t i q k) ∧
      Table.read codeUnlisted (walk t fuel i p code) k = Table.read codeUnlisted code k) := by
  induction fuel generalizing i p code with
  | zero =>
    have habsent : i = Config.nullIdx := hi.resolve_right fun hlt => Nat.not_lt_zero _ hlt.2
    exact .inr ⟨fun q => not_leadsToLeaf_of_absent habsent q k, rfl⟩
  | succ fuel ih =>
    by_cases habsent : i = Config.nullIdx
    · exact .inr ⟨fun q => not_leadsToLeaf_of_absent habsent q k, by rw [walk_of_absent p code _ habsent]⟩
    obtain ⟨hin, hfuel⟩ := hi.resolve_left habsent
    by_cases hinner : (readNode t i.toNat).sym = Config.internalSym
    · have hchild (b : Bool) := (h.child_below hin hinner b).imp_right fun hlt =>
        And.intro (hlt.trans hin) (Nat.lt_of_lt_of_le hlt (Nat.le_of_lt_succ hfuel))
      have hleads := leadsToLeaf_of_internal habsent hinner (k := k)
      rw [walk_of_internal p code fuel habsent hinner]
      rcases ih (p ++ [true]) (walk t fuel (readNode t i.toNat).zero (p ++ [false]) code) (hchild true) with
        ⟨q, hq, hread⟩ | ⟨hone, hread⟩
      · refine .inl ⟨true :: q, (hleads _).2 ⟨true, q, rfl, hq⟩, ?_⟩
        rw [List.append_cons p true q]
        exact hread
      rcases ih (p ++ [false]) code (hchild false) with ⟨q, hq, hzero⟩ | ⟨hnone, hzero⟩
      · refine .inl ⟨false :: q, (hleads _).2 ⟨false, q, rfl, hq⟩, ?_⟩
        rw [List.append_cons p false q]
        exact hread.trans hzero
      · refine .inr ⟨fun q hq => ?_, hread.trans hzero⟩
        obtain ⟨b, r, rfl, hr⟩ := (hleads q).1 hq
        cases b with
        | false => exact hnone r hr
        | true => exact hone r hr
    · have hsym := (h.leaf_form _ ((h.leaf_iff hin).1 hinner)).1
      have hleads := leadsToLeaf_of_leaf habsent hinner (k := k)
      rw [walk_of_leaf p code fuel habsent hinner, Table.read_write]
      by_cases hk : (readNode t i.toNat).sym.toNat = k
      · exact .inl ⟨[], (hleads []).2 ⟨rfl, hk⟩, by rw [if_pos ⟨hk.symm, hsym⟩, List.append_nil]⟩
      · exact .inr ⟨fun q hq => hk ((hleads q).1 hq).2, if_neg fun hc => hk hc.1.symm⟩

end

/-! ### A stored path (R150) -/

theorem storePath_len {p : List Bool} (hp : p.length ≤ 256) : (storePath p).len.toNat = p.length :=
  (BitVec.toNat_ofNat p.length 9).trans (Nat.mod_eq_of_lt (by omega))

theorem codePath_storePath {p : List Bool} (hp : p.length ≤ 256) : codePath (storePath p) = p := by
  rw [codePath, storePath_len hp]
  refine List.ext_getElem (by simp) fun i _ hi => ?_
  rw [List.getElem_map, List.getElem_range]
  exact (getMsbD_storeBits p (by omega)).trans (List.getD_eq_getElem p false hi)

/-! ### The table of a tree -/

/-- Each entry of `CODE` is what the walk over the tree of `s` writes into an empty table. -/
def CodesFromTree (s : State) : Prop :=
  ∀ k, (∃ q, LeadsToLeaf s.node s.root q k ∧ s.codeAt k = storePath q) ∨
    ((∀ q, ¬ LeadsToLeaf s.node s.root q k) ∧ s.codeAt k = storePath [])

theorem codesFromTree_generateCodes {s : State} (h : TreeShape s.node s.nnodes.toNat s.root) :
    CodesFromTree (generateCodes s) := by
  rw [generateCodes_eq_walk h]
  have hsize := h.size_le
  have hroot := h.root_lt
  have hfuel : s.root.toNat < Config.nnodeMax := hroot.trans_le hsize
  exact fun k => h.read_walk Config.nnodeMax [] [] k (.inr ⟨hroot, hfuel⟩)

section
variable {s : State} (h : TreeShape s.node s.nnodes.toNat s.root)
include h

theorem codesLeftAligned_of_codesFromTree (hcodes : CodesFromTree s) : CodesLeftAligned s := by
  intro k _
  have hstored : ∃ q : List Bool, q.length ≤ 256 ∧ s.codeAt k = storePath q := by
    rcases hcodes k with ⟨q, ⟨j, hj, -⟩, hcode⟩ | ⟨-, hcode⟩
    · exact ⟨q, h.length_le_maxLen hj, hcode⟩
    · exact ⟨[], Nat.zero_le _, hcode⟩
  obtain ⟨q, hlen, hcode⟩ := hstored
  rw [State.pathOf, hcode, codePath_storePath hlen, storePath_len hlen]
  exact ⟨hlen, rfl⟩

theorem codesMatchTree_of_codesFromTree (hcodes : CodesFromTree s) : CodesMatchTree s := by
  refine ⟨fun i hi => ?_, fun k _ hk => ?_⟩
  · have hleaves := leafCount_le_size s.node s.nnodes.toNat
    rcases hcodes (readNode s.node i).sym.toNat with ⟨q, hq, hcode⟩ | ⟨hnone, -⟩
    · obtain ⟨-, -, -, -, hne⟩ := h.leaf_of_leadsToLeaf hq
      have hfollow := (h.leadsToLeaf_iff hi).1 hq
      have hlen := h.length_le_maxLen hfollow
      refine ⟨fun hzero => hne (List.length_eq_zero_iff.1 ?_), ?_⟩
      · rw [← storePath_len hlen, ← hcode, hzero]
        rfl
      · rw [State.pathOf, hcode, codePath_storePath hlen, hfollow]
    · obtain ⟨q, hq⟩ := h.exists_path (hi.trans_le hleaves)
      exact absurd ((h.leadsToLeaf_iff hi).2 hq) (hnone q)
  · rcases hcodes k with ⟨q, hq, -⟩ | ⟨-, hcode⟩
    · obtain ⟨i, hi, hsym, -⟩ := h.leaf_of_leadsToLeaf hq
      exact ⟨i, hi, hsym⟩
    · exact absurd (by rw [hcode]; rfl) hk

/-- The code of a symbol leads to the leaf of the symbol. -/
theorem exists_leaf_of_hasCode (hmatch : CodesMatchTree s) {k : Nat} (hk : k < 257) (hcode : s.hasCode k) :
    ∃ j : Idx, follow s.node s.root (s.pathOf k) = some j ∧ (s.nodeAt j).sym ≠ Config.internalSym ∧
      (s.nodeAt j).sym.toNat = k := by
  obtain ⟨i, hi, rfl⟩ := hmatch.2 k hk hcode
  exact (h.leadsToLeaf_iff hi).2 (hmatch.1 i hi).2

/-- Of codes that lead to leaves none begins with another: past its leaf a code goes nowhere. -/
theorem codesPrefixFree_of_codesMatchTree (hmatch : CodesMatchTree s) : CodesPrefixFree s := by
  intro j hj k hk hne hprefix
  simp only [codedSymbols, List.mem_filter, List.mem_range, decide_eq_true_eq] at hj hk
  obtain ⟨x, hx, hleaf, hxj⟩ := exists_leaf_of_hasCode h hmatch hj.1 hj.2
  obtain ⟨y, hy, -, hyk⟩ := exists_leaf_of_hasCode h hmatch hk.1 hk.2
  obtain ⟨r, hr⟩ := hprefix
  rw [← hr] at hy
  obtain ⟨m, hm, hrest⟩ := follow_append_eq_some.1 hy
  obtain rfl := Option.some.inj (hx.symm.trans hm)
  obtain ⟨-, rfl⟩ := eq_nil_of_follow_of_leaf hleaf hrest
  exact hne (hxj.symm.trans hyk)

end

/-- What a GENCODES on a tree leaves, but for its response. -/
theorem eq_of_exec_gencodes {s t : State} (herr : s.err = .noFault) (htree : s.treeValid = true)
    (ht : exec .gencodes s = .next t) : t = sendResponse ⟨false, 0⟩ (generateCodes s) := by
  rw [exec_gencodes_of_tree herr htree] at ht
  cases ht
  rfl

theorem treeShape_generateCodes {s : State} (h : TreeShape s.node s.nnodes.toNat s.root) :
    TreeShape (generateCodes s).node (generateCodes s).nnodes.toNat (generateCodes s).root := by
  rw [generateCodes_frame]
  exact h

/-- Settles O30: GENCODES leaves the table of the walk, whose entries are the paths to the leaves. -/
theorem gencodesRecordsEachLeafPath : Obligations.GencodesRecordsEachLeafPath := by
  intro s t herr htree h ht
  have hshape := treeShape_generateCodes h
  have hcodes := codesFromTree_generateCodes h
  rw [eq_of_exec_gencodes herr htree ht]
  exact ⟨codesMatchTree_of_codesFromTree hshape hcodes, codesLeftAligned_of_codesFromTree hshape hcodes⟩

/-- Settles O31: each code leads to its symbol's leaf, and no path goes past a leaf. -/
theorem gencodesMakesAPrefixCode : Obligations.GencodesMakesAPrefixCode := by
  intro s t herr htree h ht
  obtain ⟨hmatch, -⟩ := gencodesRecordsEachLeafPath s t herr htree h ht
  rw [eq_of_exec_gencodes herr htree ht] at hmatch ⊢
  exact codesPrefixFree_of_codesMatchTree (treeShape_generateCodes h) hmatch

end Sys2Proof.Machine
end

section
/-! Code length monotonicity (spec/42_code_table_gen.md R154 item 3). Nodes leave `PQ` in the order of their keys, and
parents are made in that order, so a path to a node with a higher key is never the longer one. -/

namespace Sys2Proof.Machine

/-! ### The keys of merged nodes -/

theorem countOf_le_of_nodeKey_lt {t : Table NodeEntry} {i j : Nat} (h : nodeKey t i < nodeKey t j) :
    countOf t i ≤ countOf t j := by
  rw [nodeKey, nodeKey, Prod.Lex.toLex_lt_toLex] at h
  rcases h with hlt | ⟨heq, -⟩
  · exact hlt.le
  · exact heq.le

theorem nodeKey_lt_of_countOf_lt {t : Table NodeEntry} {i j : Nat} (h : countOf t i < countOf t j) :
    nodeKey t i < nodeKey t j := by
  rw [nodeKey, nodeKey, Prod.Lex.toLex_lt_toLex]
  exact .inl h

theorem nodeKey_lt_of_le_of_lt {t : Table NodeEntry} {i j : Nat} (hcount : countOf t i ≤ countOf t j) (hij : i < j) :
    nodeKey t i < nodeKey t j := by
  rcases hcount.lt_or_eq with hlt | heq
  · exact nodeKey_lt_of_countOf_lt hlt
  · rw [nodeKey, nodeKey, Prod.Lex.toLex_lt_toLex]
    exact .inr ⟨heq, hij⟩

/-- An arena of `n` entries whose nodes from `l` on were all merged from the two least. -/
structure MergedArena (t : Table NodeEntry) (l n : Nat) : Prop where
  size : n ≤ 513
  merged : ∀ i, l ≤ i → i < n → MergedAt t l i

section
variable {t : Table NodeEntry} {l n : Nat} (h : MergedArena t l n)
include h

theorem MergedArena.ownedBy_eq {i : Nat} (hli : l ≤ i) (hin : i < n) :
    ownedBy t i = [(readNode t i).zero.toNat, (readNode t i).one.toNat] := by
  have hone : (readNode t i).one ≠ Config.nullIdx :=
    ne_nullIdx_of_lt (n := 513) ((h.merged i hli hin).one_lt.trans (hin.trans_le h.size)) (by decide)
  rw [ownedBy, if_neg hone]

theorem MergedArena.child_mem_freeBefore {i : Nat} (hli : l ≤ i) (hin : i < n) (b : Bool) :
    (childOf (readNode t i) b).toNat ∈ freeBefore t l i := by
  cases b with
  | false => exact (h.merged i hli hin).least.zero_mem
  | true => exact (h.merged i hli hin).least.one_mem

/-- What is free when node `i` is made, and is not taken then, has a higher key than both that are. -/
theorem MergedArena.child_lt_of_passed {i z : Nat} (hli : l ≤ i) (hin : i < n) (hz : z ∈ freeBefore t l i)
    (hnot : z ∉ ownedBy t i) (b : Bool) : nodeKey t (childOf (readNode t i) b).toNat < nodeKey t z := by
  rw [h.ownedBy_eq hli hin, List.mem_cons, List.mem_singleton, not_or] at hnot
  have hleast := (h.merged i hli hin).least
  have hone := hleast.one_lt_rest z hz hnot.1 hnot.2
  cases b with
  | false => exact hleast.zero_lt_one.trans hone
  | true => exact hone

/-- A child's key is below its parent's. -/
theorem MergedArena.child_lt {i : Nat} (hli : l ≤ i) (hin : i < n) (b : Bool) :
    nodeKey t (childOf (readNode t i) b).toNat < nodeKey t i := by
  have hi := h.merged i hli hin
  have hcount := hi.count
  cases b with
  | false => exact nodeKey_lt_of_le_of_lt (hcount ▸ Nat.le_add_right _ _) hi.zero_lt
  | true => exact nodeKey_lt_of_le_of_lt (hcount ▸ Nat.le_add_left _ _) hi.one_lt

/-- The node made after `i` has at least the count of `i`: each of its children is `i` or was passed over by `i`. -/
theorem MergedArena.countOf_le_succ {i : Nat} (hli : l ≤ i) (hin : i + 1 < n) : countOf t i ≤ countOf t (i + 1) := by
  have hi := h.merged i hli (by omega)
  have hnext := h.merged (i + 1) (by omega) hin
  have hatLeast : ∀ z ∈ freeBefore t l (i + 1), ∀ b, countOf t (childOf (readNode t i) b).toNat ≤ countOf t z := by
    intro z hz b
    obtain ⟨hzlt, hzfree⟩ := mem_freeBefore.1 hz
    rw [childSlots_succ t hli, List.mem_append, not_or] at hzfree
    rcases Nat.lt_succ_iff_lt_or_eq.1 hzlt with hlt | rfl
    · exact countOf_le_of_nodeKey_lt
        (h.child_lt_of_passed hli (by omega) (mem_freeBefore.2 ⟨hlt, hzfree.1⟩) hzfree.2 b)
    · exact countOf_le_of_nodeKey_lt (h.child_lt hli (by omega) b)
  rw [hi.count, hnext.count]
  exact Nat.add_le_add (hatLeast _ hnext.least.zero_mem false) (hatLeast _ hnext.least.one_mem true)

/-- Internal nodes are made in the order of their keys. -/
theorem MergedArena.nodeKey_le_of_le {i j : Nat} (hli : l ≤ i) (hij : i ≤ j) (hjn : j < n) :
    nodeKey t i ≤ nodeKey t j := by
  induction j, hij using Nat.le_induction with
  | base => exact le_rfl
  | succ j hij ih =>
    have hcount := h.countOf_le_succ (hli.trans hij) hjn
    exact (ih (by omega)).trans (nodeKey_lt_of_le_of_lt hcount (Nat.lt_succ_self j)).le

/-- Nodes get their parents in the order of their keys. -/
theorem MergedArena.parent_le_of_child_le {u v : Nat} {b c : Bool} (hlu : l ≤ u) (hun : u < n) (hlv : l ≤ v)
    (hvn : v < n) (hle : nodeKey t (childOf (readNode t u) b).toNat ≤ nodeKey t (childOf (readNode t v) c).toNat) :
    u ≤ v := by
  by_contra hvu
  rw [Nat.not_le] at hvu
  obtain ⟨hxu, hxfree⟩ := mem_freeBefore.1 (h.child_mem_freeBefore hlu hun b)
  have hslots {z : Nat} (hz : z ∈ ownedBy t v) : z ∈ childSlots t l u := (mem_childSlots hlu).2 ⟨v, hlv, hvu, hz⟩
  rcases Nat.lt_or_ge (childOf (readNode t u) b).toNat v with hlt | hge
  · have hfree : (childOf (readNode t u) b).toNat ∈ freeBefore t l v := by
      refine mem_freeBefore.2 ⟨hlt, fun hx => hxfree ?_⟩
      obtain ⟨i, hli, hiv, hxi⟩ := (mem_childSlots hlv).1 hx
      exact (mem_childSlots hlu).2 ⟨i, hli, hiv.trans hvu, hxi⟩
    exact absurd hle (not_le_of_gt (h.child_lt_of_passed hlv hvn hfree (fun hx => hxfree (hslots hx)) c))
  · have hkey := h.nodeKey_le_of_le hlv hge (hxu.trans hun)
    exact absurd hle (not_le_of_gt ((h.child_lt hlv hvn c).trans_le hkey))

end

/-! ### The lengths of paths -/

/-- The node before the last bit of a path in a tree. -/
theorem TreeShape.exists_parent_of_follow {t : Table NodeEntry} {n : Nat} {root j : Idx} {q : List Bool} {b : Bool}
    (h : TreeShape t n root) (hq : follow t root (q ++ [b]) = some j) : ∃ m : Idx, follow t root q = some m ∧
      leafCount t n ≤ m.toNat ∧ m.toNat < n ∧ childOf (readNode t m.toNat) b = j := by
  obtain ⟨m, hm, hlast⟩ := follow_append_eq_some.1 hq
  obtain ⟨-, hinner, -, hchild⟩ := follow_singleton_eq_some.1 hlast
  have hmn := lt_of_le_of_lt (h.follow_bounds h.root_lt hm).1 h.root_lt
  exact ⟨m, hm, Nat.le_of_not_lt fun hlt => (h.leaf_iff hmn).2 hlt hinner, hmn, hchild⟩

/-- A path to a node with a key at least as high is not longer. -/
theorem TreeShape.length_le_of_nodeKey_le {t : Table NodeEntry} {n : Nat} {root x y : Idx} {p q : List Bool}
    (h : TreeShape t n root) (harena : MergedArena t (leafCount t n) n) (hp : follow t root p = some x)
    (hq : follow t root q = some y) (hle : nodeKey t x.toNat ≤ nodeKey t y.toNat) : q.length ≤ p.length := by
  induction q using List.reverseRecOn generalizing p x y with
  | nil => exact Nat.zero_le _
  | append_singleton q c ih =>
    obtain ⟨v, hv, hlv, hvn, rfl⟩ := h.exists_parent_of_follow hq
    rcases List.eq_nil_or_concat p with rfl | ⟨p, b, rfl⟩
    · obtain ⟨-, rfl⟩ := follow_nil_eq_some.1 hp
      have hroot := h.root_last
      have hkey := harena.nodeKey_le_of_le hlv (show v.toNat ≤ root.toNat by omega) h.root_lt
      exact absurd hle (not_le_of_gt ((harena.child_lt hlv hvn c).trans_le hkey))
    · rw [List.concat_eq_append] at hp ⊢
      obtain ⟨u, hu, hlu, hun, rfl⟩ := h.exists_parent_of_follow hp
      have huv := harena.parent_le_of_child_le hlu hun hlv hvn hle
      have hlen := ih hu hv (harena.nodeKey_le_of_le hlu huv hvn)
      rw [List.length_append, List.length_append]
      exact Nat.add_le_add_right hlen 1

/-! ### The codes after BUILD and GENCODES -/

section
variable {s t : State} (herr : s.err = .noFault) (h : exec .build s = .next t) (hok : t.err = .noFault)
include herr h hok

theorem build_mergedArena (hmany : 2 ≤ (presentKeys s).length) :
    MergedArena t.node (leafCount t.node t.nnodes.toNat) t.nnodes.toNat := by
  obtain ⟨-, hshape⟩ := buildMakesAnArenaTree s t herr h hok
  rw [(build_treeOfMap herr h hok).leafCount_eq]
  exact ⟨hshape.size_le, fun i hli hin => build_mergedAt herr h hok hmany hli hin⟩

/-- A present symbol's leaf has its count, and the code leads there. -/
theorem exists_leaf_after_gencodes {k : Nat} (hk : k ∈ presentKeys s) : ∃ j : Idx,
    follow t.node t.root ((generateCodes t).pathOf k) = some j ∧ countOf t.node j.toNat = (s.freqAt k).toNat := by
  obtain ⟨-, hshape⟩ := buildMakesAnArenaTree s t herr h hok
  have hmatch := codesMatchTree_of_codesFromTree (treeShape_generateCodes hshape) (codesFromTree_generateCodes hshape)
  have htree := build_treeOfMap herr h hok
  obtain ⟨i, hi, rfl⟩ := List.mem_iff_getElem.1 hk
  have hsize := hshape.size_le
  have hle := presentKeys_length_le s
  have hindex : (BitVec.ofNat 10 i).toNat = i := toNat_ofNat_ten (by omega)
  have hcode := hmatch.1 i
  rw [generateCodes_frame t] at hcode
  refine ⟨BitVec.ofNat 10 i, ?_, by rw [hindex, countOf, htree.leaves i hi]; rfl⟩
  rw [← htree.sym_toNat hi, generateCodes_frame t]
  exact (hcode (htree.leafCount_eq ▸ hi)).2

end

/-- Settles O32: the higher count is the higher key, and the codes are paths. -/
theorem higherCountNeverLongerCode : Obligations.HigherCountNeverLongerCode := by
  intro s t u j k herr hbuild hok hgen hj hk hpresent hlt
  obtain ⟨hvalid, hshape⟩ := buildMakesAnArenaTree s t herr hbuild hok
  have hkmem : k ∈ presentKeys s := mem_presentKeys.2 ⟨hk, hpresent⟩
  have hjmem : j ∈ presentKeys s := by
    refine mem_presentKeys.2 ⟨hj, fun hzero => ?_⟩
    rw [hzero] at hlt
    exact absurd hlt (Nat.not_lt_zero _)
  have hmany : 2 ≤ (presentKeys s).length := by
    by_contra hfew
    have hpos := List.length_pos_of_mem hkmem
    obtain ⟨a, ha⟩ := List.length_eq_one_iff.1 (show (presentKeys s).length = 1 by omega)
    rw [ha, List.mem_singleton] at hkmem hjmem
    rw [hkmem, hjmem] at hlt
    exact lt_irrefl _ hlt
  obtain ⟨x, hx, hxcount⟩ := exists_leaf_after_gencodes herr hbuild hok hkmem
  obtain ⟨y, hy, hycount⟩ := exists_leaf_after_gencodes herr hbuild hok hjmem
  rw [← hxcount, ← hycount] at hlt
  have hlen := hshape.length_le_of_nodeKey_le (build_mergedArena herr hbuild hok hmany) hx hy
    (nodeKey_lt_of_countOf_lt hlt).le
  rw [State.pathOf, State.pathOf, codePath_length, codePath_length] at hlen
  rw [eq_of_exec_gencodes hok hvalid hgen]
  exact hlen

end Sys2Proof.Machine
end

section
/-! The invariant `Inv`: the reset state has it, and every step keeps it. One lemma for each update of the state, then
one case for each command. -/

namespace Sys2Proof.Machine

/-! ### Reset, responses and faults -/

theorem inv_clearBlock (s : State) : Inv (clearBlock s) where
  freq_wf := rfl
  node_wf := rfl
  code_wf := rfl
  hidden_empty := ⟨rfl, rfl, rfl⟩
  no_tree _ := ⟨rfl, rfl⟩
  tree := nofun
  codes_aligned := nofun
  codes_prefix_free := nofun
  codes_match := nofun
  enc_has_codes h := absurd rfl h
  enc_acc := Nat.one_pos
  enc_dry := nofun
  enc_done := nofun
  enc_count := rfl
  enc_packed _ := ⟨0, by decide, rfl, fun _ => rfl⟩
  dec_idle _ := rfl
  dec_run := nofun
  dec_done := nofun
  no_detail _ := rfl
  enc_port := List.nil_suffix
  dec_port := List.nil_suffix

/-- Settles O52: the reset state is what `clearBlock` leaves of itself. -/
theorem resetMeetsTheInvariant : Obligations.ResetMeetsTheInvariant := inv_clearBlock State.reset

section
variable {s : State} (h : Inv s)
include h

theorem Inv.sendResponse (r : Response) : Inv (sendResponse r s) := { h with }

theorem Inv.setFault {e : ErrCode} (he : e ≠ .noFault) (info : BitVec 32) : Inv { s with err := e, errInfo := info } :=
  { h with no_detail := fun hok => absurd hok he }

theorem Inv.setInputs (inputs : List HostEvent) : Inv { s with inputs := inputs } := { h with }

/-! ### The frequency table and the tree -/

theorem Inv.setFreq (k : Nat) (c : Count) : Inv (s.setFreq k c) :=
  { h with freq_wf := Table.wf_write _ _ _ _ _ h.freq_wf }

/-- With the encoder in IDLE the packed trace may end in pad bits. -/
theorem Inv.packedTrace_idle (hwet : s.encDry = false) : PackedTrace { s with encState := .idle } := by
  obtain ⟨k, hk, hpack, -⟩ := h.enc_packed hwet
  exact ⟨k, hk, hpack, nofun⟩

theorem Inv.dropDerived : Inv (dropDerived s) :=
  { h with
    hidden_empty := ⟨rfl, h.hidden_empty.2⟩
    no_tree := fun _ => ⟨rfl, rfl⟩
    tree := nofun
    codes_aligned := nofun
    codes_prefix_free := nofun
    codes_match := nofun
    enc_has_codes := fun hbusy => absurd rfl hbusy
    enc_done := nofun
    enc_packed := h.packedTrace_idle
    dec_idle := fun _ => rfl
    dec_run := nofun
    dec_done := nofun }

theorem Inv.releaseTree : Inv (releaseTree s) :=
  { h with
    no_tree := fun _ => ⟨rfl, rfl⟩
    tree := nofun
    codes_match := nofun
    dec_idle := fun _ => rfl
    dec_run := nofun
    dec_done := nofun }

end

theorem nodesWf_of_exec_build {s t : State} (herr : s.err = .noFault) (hwf : nodesWf s.node)
    (ht : exec .build s = .next t) : nodesWf t.node := by
  have hmerged : nodesWf (mergeAll (leafWork s)).nodes := nodesWf_mergeAll (nodesWf_makeLeaves s.freq hwf)
  rw [exec_build_of_noFault herr] at ht
  rcases buildTree_dropDerived_cases s with ⟨-, hb⟩ | ⟨-, ⟨w, hw, hb⟩ | ⟨w, hw, hb⟩⟩ <;> cases hb.symm.trans ht
  · exact hwf
  · rw [hw] at hmerged
    exact hmerged
  · rw [hw] at hmerged
    exact hmerged

theorem Inv.build {s t : State} (h : Inv s) (herr : s.err = .noFault) (ht : exec .build s = .next t) : Inv t := by
  have hdrop := h.dropDerived
  have hwf := nodesWf_of_exec_build herr h.node_wf ht
  by_cases hok : t.err = .noFault
  · obtain ⟨hvalid, hshape⟩ := buildMakesAnArenaTree s t herr ht hok
    obtain ⟨w, rfl, -⟩ := build_success_cases herr ht hok
    exact { hdrop with
      node_wf := hwf
      no_tree := nofun
      tree := fun _ => hshape
      codes_aligned := nofun
      codes_prefix_free := nofun
      codes_match := nofun
      dec_run := nofun
      dec_done := nofun }
  · obtain ⟨-, hframe, -⟩ := faultChangesOnlyTheFaultRegisters .build s t herr ht hok
    rw [hframe rfl]
    exact { hdrop with
      node_wf := hwf
      tree := nofun
      codes_aligned := nofun
      codes_prefix_free := nofun
      codes_match := nofun
      dec_run := nofun
      dec_done := nofun
      no_detail := fun hno => absurd hno hok }

/-! ### The code table -/

theorem wf_walk (t : Table NodeEntry) (fuel : Nat) {i : Idx} {p : List Bool} {code : Table CodeEntry}
    (hwf : Table.wf codeUnlisted Config.nsym code = true) :
    Table.wf codeUnlisted Config.nsym (walk t fuel i p code) = true := by
  induction fuel generalizing i p code with
  | zero => exact hwf
  | succ fuel ih =>
    by_cases habsent : i = Config.nullIdx
    · rw [walk_of_absent p code _ habsent]
      exact hwf
    by_cases hinner : (readNode t i.toNat).sym = Config.internalSym
    · rw [walk_of_internal p code fuel habsent hinner]
      exact ih (ih hwf)
    · rw [walk_of_leaf p code fuel habsent hinner]
      exact Table.wf_write _ _ _ _ _ hwf

theorem Inv.generateCodes {s : State} (h : Inv s) (htree : s.treeValid = true) : Inv (generateCodes s) := by
  have hshape := treeShape_generateCodes (h.tree htree)
  have hcodes := codesFromTree_generateCodes (h.tree htree)
  have haligned := codesLeftAligned_of_codesFromTree hshape hcodes
  have hmatch := codesMatchTree_of_codesFromTree hshape hcodes
  have hprefix := codesPrefixFree_of_codesMatchTree hshape hmatch
  rw [generateCodes_eq_walk (h.tree htree)] at haligned hmatch hprefix ⊢
  exact { h with
    code_wf := wf_walk _ _ rfl
    hidden_empty := ⟨h.hidden_empty.1, rfl, rfl⟩
    codes_aligned := fun _ => haligned
    codes_prefix_free := fun _ => hprefix
    codes_match := fun _ _ => hmatch
    enc_has_codes := fun _ => rfl
    enc_done := nofun
    enc_packed := h.packedTrace_idle }

/-! ### The encoder -/

theorem Inv.startEncoder {s : State} (h : Inv s) (hcodes : s.codesValid = true) (dry : Bool) :
    Inv { s with encState := .run, encDry := dry, encAcc := 0, encNbits := 0, encBitcnt := 0, encOut := []
                 encTrace := [] } :=
  { h with
    enc_has_codes := fun _ => hcodes
    enc_acc := Nat.one_pos
    enc_dry := fun _ => ⟨rfl, rfl, rfl⟩
    enc_done := nofun
    enc_count := rfl
    enc_packed := fun _ => ⟨0, by decide, rfl, fun _ => rfl⟩
    enc_port := List.nil_suffix }

theorem shiftIn_lt {acc : Byte} {n : Nat} (hacc : acc.toNat < 2 ^ n) (b : Bool) :
    (shiftIn acc b).toNat < 2 ^ (n + 1) := by
  refine Nat.lt_pow_two_of_testBit _ fun i hi => ?_
  rw [BitVec.testBit_toNat]
  rcases Nat.lt_or_ge i 8 with hlt | hge
  · rw [getLsbD_shiftIn acc b i hlt, if_neg (by omega)]
    exact Nat.testBit_lt_two_pow (hacc.trans_le (Nat.pow_le_pow_right two_pos (by omega)))
  · exact BitVec.getLsbD_of_ge _ i hge

theorem toNat_succ_of_ne_seven : ∀ n : BitVec 3, n ≠ 7 → (n + 1).toNat = n.toNat + 1 := by decide

/-- The packer holds no bits but the pending ones (spec/10_state.md R37). -/
theorem encAcc_lt_putBit {s : State} (h : s.encAcc.toNat < 2 ^ s.encNbits.toNat) (b : Bool) :
    (putBit s b).encAcc.toNat < 2 ^ (putBit s b).encNbits.toNat := by
  cases hd : s.encDry with
  | true =>
    rw [putBit_dry hd]
    exact h
  | false =>
    by_cases hfull : s.encNbits = 7
    · rw [putBit_full hd hfull]
      exact Nat.one_pos
    · rw [putBit_room hd hfull]
      change (shiftIn s.encAcc b).toNat < 2 ^ (s.encNbits + 1).toNat
      rw [toNat_succ_of_ne_seven _ hfull]
      exact shiftIn_lt h b

theorem encAcc_lt_putBits (p : List Bool) {s : State} (h : s.encAcc.toNat < 2 ^ s.encNbits.toNat) :
    (p.foldl putBit s).encAcc.toNat < 2 ^ (p.foldl putBit s).encNbits.toNat := by
  induction p generalizing s with
  | nil => exact h
  | cons b p ih => exact ih (encAcc_lt_putBit h b)

section
variable {s : State} (h : Inv s)
include h

theorem Inv.packed_of_run (hrun : s.encState = .run) (hwet : s.encDry = false) :
    bitsOf s.encOut ++ pendingBits s = s.encTrace := by
  obtain ⟨k, -, hpack, hzero⟩ := h.enc_packed hwet
  rw [hpack, hzero hrun, List.replicate_zero, List.append_nil]

/-- The count after a code is the length of the trace after it. -/
theorem Inv.count_emitCode (k : Nat) : s.encBitcnt + (s.codeAt k).len.zeroExtend 64 =
    BitVec.ofNat 64 (s.encTrace ++ s.pathOf k).length := by
  rw [List.length_append, State.pathOf, codePath_length, BitVec.ofNat_add, ← h.enc_count, BitVec.ofNat_toNat]

theorem Inv.port_append (new : List Byte) : s.encOut ++ new <:+ s.encPort ++ new := by
  obtain ⟨old, hold⟩ := h.enc_port
  exact ⟨old, by rw [← List.append_assoc, hold]⟩

theorem Inv.emitCode (hrun : s.encState = .run) (k : Nat) : Inv (emitCode k s) := by
  obtain ⟨new, htrace, hcount, hout, hport, hpack, hdry⟩ := emitCode_spec k s
  have hacc : (Machine.emitCode k s).encAcc.toNat < 2 ^ (Machine.emitCode k s).encNbits.toNat :=
    encAcc_lt_putBits _ h.enc_acc
  have hpending : s.encDry = false → PackedTrace (Machine.emitCode k s) := fun hwet => by
    refine ⟨0, by decide, ?_, fun _ => rfl⟩
    rw [hout, htrace, bitsOf_append, List.append_assoc, hpack hwet, ← List.append_assoc, h.packed_of_run hrun hwet,
      List.replicate_zero, List.append_nil]
  rw [emitCode_frame] at hpending ⊢
  exact { h with
    enc_acc := hacc
    enc_dry := fun hd => by
      obtain ⟨hacc, hnbits, hnone⟩ := h.enc_dry hd
      obtain ⟨hnew, hkept, hkept'⟩ := hdry hd
      exact ⟨hkept.trans hacc, hkept'.trans hnbits, by rw [hout, hnone, hnew]; rfl⟩
    enc_done := fun hdone => nomatch hrun.symm.trans hdone
    enc_count := by
      rw [hcount, htrace]
      exact h.count_emitCode k
    enc_packed := hpending
    enc_port := by
      rw [hout, hport]
      exact h.port_append new }

theorem Inv.endRun (hrun : s.encState = .run) : Inv (endRun s) := by
  obtain ⟨-, htrace, hcount, -⟩ := emitCode_spec 256 s
  obtain ⟨new, hout, hport, hpad, hdry⟩ := flush_emitCode_output 256 s
  rw [endRun_frame]
  exact { h with
    enc_has_codes := fun _ => h.enc_has_codes (ne_of_eq_of_ne hrun nofun)
    enc_acc := Nat.one_pos
    enc_dry := fun hd => ⟨rfl, rfl, by rw [hout, hdry hd, (h.enc_dry hd).2.2]; rfl⟩
    enc_done := fun _ => ⟨rfl, rfl⟩
    enc_count := by
      rw [hcount, htrace]
      exact h.count_emitCode 256
    enc_packed := fun hwet => by
      obtain ⟨pad, hlt, hnew⟩ := hpad hwet
      refine ⟨pad, hlt, ?_, nofun⟩
      change bitsOf (flush _).encOut ++ [] = (Machine.emitCode 256 s).encTrace ++ _
      rw [hout, htrace, bitsOf_append, hnew, List.append_nil, ← h.packed_of_run hrun hwet]
      simp only [List.append_assoc]
    enc_port := by
      rw [hout, hport]
      exact h.port_append new }

/-! ### The decoder -/

theorem Inv.startDecoder (htree : s.treeValid = true) :
    Inv { s with decState := .run, decPtr := s.root, decOut := [] } :=
  { h with
    dec_idle := nofun
    dec_run := fun _ => ⟨htree, (h.tree htree).root_lt, (h.tree htree).root_internal⟩
    dec_done := nofun
    dec_port := List.nil_suffix }

/-- In RUN the child on a bit, if there is one, is a node. -/
theorem Inv.child_lt (hrun : s.decState = .run) {b : Bool} (hchild : childOf (s.nodeAt s.decPtr) b ≠ Config.nullIdx) :
    (childOf (s.nodeAt s.decPtr) b).toNat < s.nnodes.toNat := by
  obtain ⟨htree, hptr, hinner⟩ := h.dec_run hrun
  exact (((h.tree htree).child_below hptr hinner b).resolve_left hchild).trans hptr

theorem Inv.arriveAt (hrun : s.decState = .run) {nxt : Idx} (hnxt : nxt.toNat < s.nnodes.toNat) :
    Inv (arriveAt nxt s) := by
  obtain ⟨htree, -, -⟩ := h.dec_run hrun
  have hbusy : s.decState ≠ .idle := ne_of_eq_of_ne hrun nofun
  by_cases hinner : (s.nodeAt nxt).sym = Config.internalSym
  · rw [arriveAt_of_internal hinner]
    exact { h with
      dec_idle := fun hidle => absurd hidle hbusy
      dec_run := fun _ => ⟨htree, hnxt, hinner⟩
      dec_done := fun hdone => nomatch hrun.symm.trans hdone }
  by_cases heof : (s.nodeAt nxt).sym = Config.eofSym
  · rw [arriveAt_of_eof heof]
    exact { h with
      dec_idle := nofun
      dec_run := nofun
      dec_done := fun _ => ⟨htree, hnxt, heof⟩ }
  · rw [arriveAt_of_literal hinner heof]
    obtain ⟨old, hold⟩ := h.dec_port
    exact { h with
      dec_idle := fun hidle => absurd hidle hbusy
      dec_run := fun _ => ⟨htree, (h.tree htree).root_lt, (h.tree htree).root_internal⟩
      dec_done := fun hdone => nomatch hrun.symm.trans hdone
      dec_port := ⟨old, by rw [outputDec_decOut, outputDec_decPort, ← List.append_assoc, hold]⟩ }

theorem Inv.deliver {b : Bool} {t : State} (ht : deliver b s = some t) : Inv t := by
  rcases deliver_cases b s with ⟨-, hd⟩ | ⟨-, -, hd⟩ | ⟨hrun, hchild, hd⟩ <;> cases hd.symm.trans ht
  · exact h
  · exact h.arriveAt hrun (h.child_lt hrun hchild)

end

/-- The state in which feeding ends, cut short or not. -/
def FeedEnd.state : FeedEnd → State
  | .fed s => s
  | .absent _ s => s

theorem Inv.feedBits {s : State} (h : Inv s) (p : List Bool) : Inv (feedBits p s).state := by
  induction p generalizing s with
  | nil => exact h
  | cons b p ih =>
    rw [Machine.feedBits]
    cases hd : Machine.deliver b s with
    | none => exact h
    | some t => exact ih (h.deliver hd)

/-! ### Every command and every step -/

/-- What a command that answers does: refuse or fail a check, which writes the fault registers at most, or pass its
checks (spec/60_exceptions.md R222). -/
theorem exec_next_cases {i : Instr} {s t : State} (ht : exec i s = .next t) :
    (∃ e info r, e ≠ .noFault ∧ t = sendResponse r { s with err := e, errInfo := info }) ∨
    (requiresHolds i s = true ∧ (s.err = .noFault ∨ i = .clear ∨ i = .getStatus) ∧ afterChecks i s = .next t) := by
  by_cases hclear : i = .clear
  · subst hclear
    exact .inr ⟨rfl, .inr (.inl rfl), ht⟩
  by_cases hstatus : i = .getStatus
  · subst hstatus
    exact .inr ⟨rfl, .inr (.inr rfl), ht⟩
  by_cases herr : s.err = .noFault
  · rw [exec_eq_runChecks herr] at ht
    rcases requires_next ht with ⟨hreq, ht⟩ | ⟨-, ht⟩
    · rcases keyInRange_next ht with ⟨-, ht⟩ | ⟨-, ht⟩
      · exact .inr ⟨hreq, .inl herr, ht⟩
      · cases ht
        exact .inl ⟨.badKey, _, _, nofun, rfl⟩
    · cases ht
      exact .inl ⟨.seq, _, _, nofun, rfl⟩
  · rw [exec_of_fault hclear hstatus herr] at ht
    cases ht
    exact .inl ⟨s.err, s.errInfo, _, herr, rfl⟩

/-- The invariant holds in the state that a result answers. -/
def KeepsInv (r : Result) : Prop := ∀ t, r = .next t → Inv t

theorem respond_keepsInv {u : State} (h : Inv u) (v : Word) : KeepsInv (respond v u) := by
  rintro t ⟨⟩
  exact h.sendResponse _

theorem raise_keepsInv {u : State} (h : Inv u) {e : ErrCode} (he : e ≠ .noFault) (info : BitVec 32) :
    KeepsInv (raise e info u) := by
  rintro t ⟨⟩
  exact (h.setFault he info).sendResponse _

theorem needsCode_keepsInv {s : State} (h : Inv s) {k : Nat} {body : State → Result} (hbody : KeepsInv (body s)) :
    KeepsInv (needsCode k body s) := by
  unfold needsCode
  split
  · exact raise_keepsInv h (by decide) _
  · exact hbody

theorem Inv.afterChecks {s : State} (h : Inv s) {i : Instr} (hreq : requiresHolds i s = true)
    (herr : s.err = .noFault ∨ i = .clear ∨ i = .getStatus) : KeepsInv (afterChecks i s) := by
  cases i with
  | clear => exact respond_keepsInv (inv_clearBlock s) 0
  | freqPut a d => exact respond_keepsInv (h.setFreq a.toNat d) 0
  | build =>
    intro t ht
    have herr : s.err = .noFault := by simpa using herr
    exact h.build herr ((exec_eq_afterChecks herr rfl rfl).trans ht)
  | release => exact respond_keepsInv h.releaseTree 0
  | gencodes => exact respond_keepsInv (h.generateCodes hreq) 0
  | encStart dry => exact respond_keepsInv (h.startEncoder hreq dry) 0
  | encSym b =>
    have hemit := h.emitCode (beq_iff_eq.1 hreq) b.toNat
    exact needsCode_keepsInv (body := fun s => respond 0 (Machine.emitCode b.toNat s)) h (respond_keepsInv hemit 0)
  | encEnd =>
    have hend := h.endRun (beq_iff_eq.1 hreq)
    exact needsCode_keepsInv (body := fun s => respond 0 (Machine.endRun s)) h (respond_keepsInv hend 0)
  | decStart => exact respond_keepsInv (h.startDecoder hreq) 0
  | decBit b =>
    rw [Machine.afterChecks]
    cases hd : Machine.deliver b s with
    | none => exact raise_keepsInv h (by decide) _
    | some t => exact respond_keepsInv (h.deliver hd) 0
  | decByte v =>
    have hfed := h.feedBits (byteBits v)
    rw [Machine.afterChecks]
    cases hf : Machine.feedBits (byteBits v) s with
    | absent b t => rw [hf] at hfed; exact raise_keepsInv hfed (by decide) _
    | fed t => rw [hf] at hfed; exact respond_keepsInv hfed 0
  | decEod =>
    rw [Machine.afterChecks]
    split
    · exact raise_keepsInv h (by decide) _
    · exact respond_keepsInv h 0
  | getStatus | freqGet | nodeGet | codeLen | codeBits | getBitcnt => exact respond_keepsInv h _

theorem Inv.exec {s t : State} (h : Inv s) {i : Instr} (ht : exec i s = .next t) : Inv t := by
  rcases exec_next_cases ht with ⟨e, info, r, he, rfl⟩ | ⟨hreq, herr, hafter⟩
  · exact (h.setFault he info).sendResponse r
  · exact h.afterChecks hreq herr t hafter

theorem Inv.runWord {s t : State} (h : Inv s) {w : Word} (ht : runWord w s = .next t) : Inv t := by
  rcases hd : decode w with i | why
  · rw [runWord_of_cmd hd] at ht
    exact h.exec ht
  · rw [runWord_of_illegal hd] at ht
    by_cases herr : s.err = .noFault
    · rw [execIllegal_of_noFault w herr] at ht
      cases ht
      exact (h.setFault (e := .illegalCmd) nofun _).sendResponse _
    · rw [execIllegal_of_fault w herr] at ht
      cases ht
      exact h.sendResponse _

/-- Settles O53: no event, a pulse of `rst`, or a command word. -/
theorem stepKeepsTheInvariant : Obligations.StepKeepsTheInvariant := by
  intro s t h ht
  rcases hin : s.inputs with _ | ⟨w | _, rest⟩
  · rw [step_of_no_input hin] at ht
    cases ht
    exact h
  · rw [step_of_cmd hin] at ht
    exact (h.setInputs rest).runWord ht
  · rw [step_of_rst hin] at ht
    cases ht
    exact inv_clearBlock _

end Sys2Proof.Machine
end

section
/-! A finished encode run (spec/43_encoder.md R173): what ENC_START, one ENC_SYM for each byte, and ENC_END leave. -/

namespace Sys2Proof.Machine

/-! ### Lists of commands -/

theorem runCommands_cons {i : Instr} {is : List Instr} {s t : State} (h : exec i s = .next t) :
    runCommands (i :: is) s = runCommands is t := by
  rw [runCommands, h]

theorem runCommands_singleton {i : Instr} {s t : State} (h : exec i s = .next t) : runCommands [i] s = some t :=
  runCommands_cons h

theorem runCommands_append {p q : List Instr} {s t : State} (h : runCommands p s = some t) :
    runCommands (p ++ q) s = runCommands q t := by
  induction p generalizing s with
  | nil => cases h; rfl
  | cons i p ih =>
    obtain ⟨u, hu⟩ := exec_answersNext i s
    rw [runCommands_cons hu] at h
    rw [List.cons_append, runCommands_cons hu, ih h]

/-! ### An open run -/

/-- `t` is `s` in an encode run that has emitted the bits `p`. -/
structure EncodeRun (s : State) (dry : Bool) (p : List Bool) (t : State) : Prop where
  trace : t.encTrace = p
  count : t.encBitcnt = BitVec.ofNat 64 p.length
  packed : dry = false → bitsOf t.encOut ++ pendingBits t = p
  silent : dry = true → t.encOut = []
  frame : t = { s with
    encState := .run, encDry := dry, encTrace := t.encTrace, encBitcnt := t.encBitcnt, encOut := t.encOut
    encPort := t.encPort, encAcc := t.encAcc, encNbits := t.encNbits, rsp := t.rsp }

/-- `t` is `s` after an encode run that has emitted the bits `p`. -/
structure EncodeDone (s : State) (dry : Bool) (p : List Bool) (t : State) : Prop where
  trace : t.encTrace = p
  count : t.encBitcnt = BitVec.ofNat 64 p.length
  padded : dry = false → ∃ pad, pad < 8 ∧ bitsOf t.encOut = p ++ List.replicate pad false
  silent : dry = true → t.encOut = []
  frame : t = { s with
    encState := .done, encDry := dry, encTrace := t.encTrace, encBitcnt := t.encBitcnt, encOut := t.encOut
    encPort := t.encPort, encAcc := t.encAcc, encNbits := t.encNbits, rsp := t.rsp }

theorem exists_encodeRun_encStart {s : State} (herr : s.err = .noFault) (hcodes : s.codesValid = true) (dry : Bool) :
    ∃ t, exec (.encStart dry) s = .next t ∧ EncodeRun s dry [] t :=
  ⟨_, (encStartOpensARun s dry herr).1 hcodes, rfl, rfl, fun _ => rfl, fun _ => rfl, rfl⟩

section
variable {s t : State} {dry : Bool} {p : List Bool} (h : EncodeRun s dry p t)
include h

theorem EncodeRun.encState_eq : t.encState = .run := by rw [h.frame]

theorem EncodeRun.encDry_eq : t.encDry = dry := by rw [h.frame]

theorem EncodeRun.codeAt_eq (k : Nat) : t.codeAt k = s.codeAt k := by rw [State.codeAt, h.frame]; rfl

theorem EncodeRun.err_eq : t.err = s.err := by rw [h.frame]

/-- The count after a code. -/
theorem EncodeRun.count_append (k : Nat) :
    t.encBitcnt + (t.codeAt k).len.zeroExtend 64 = BitVec.ofNat 64 (p ++ s.pathOf k).length := by
  rw [List.length_append, State.pathOf, codePath_length, BitVec.ofNat_add, ← h.count, BitVec.ofNat_toNat, h.codeAt_eq]

variable (herr : s.err = .noFault)
include herr

theorem EncodeRun.exists_encSym {b : Byte} (hcode : s.hasCode b.toNat) :
    ∃ u, exec (.encSym b) t = .next u ∧ EncodeRun s dry (p ++ s.pathOf b.toNat) u := by
  have hpath : t.pathOf b.toNat = s.pathOf b.toNat := congrArg codePath (h.codeAt_eq _)
  have hcode' : t.hasCode b.toNat := by rw [State.hasCode, h.codeAt_eq]; exact hcode
  obtain ⟨u, new, hu, htrace, hcount, hout, -, hpack, hdry, -, hframe⟩ :=
    (encSymEmitsTheCode t b (h.err_eq.trans herr)).1 h.encState_eq hcode'
  rw [hpath] at htrace hpack
  rw [h.encDry_eq] at hpack hdry
  refine ⟨u, hu, ?_, ?_, fun hwet => ?_, fun hd => ?_, ?_⟩
  · rw [htrace, h.trace]
  · rw [hcount, h.count_append]
  · rw [hout, bitsOf_append, List.append_assoc, hpack hwet, ← List.append_assoc, h.packed hwet]
  · rw [hout, h.silent hd, (hdry hd).1, List.append_nil]
  · rw [hframe, h.frame]

theorem EncodeRun.exists_encSyms {bytes : List Byte} (hcodes : ∀ b ∈ bytes, s.hasCode b.toNat) :
    ∃ u, runCommands (bytes.map .encSym) t = some u ∧
      EncodeRun s dry (p ++ bytes.flatMap (fun b => s.pathOf b.toNat)) u := by
  induction bytes generalizing t p with
  | nil => exact ⟨t, rfl, by simpa using h⟩
  | cons b bytes ih =>
    obtain ⟨u, hu, hrun⟩ := h.exists_encSym herr (hcodes b List.mem_cons_self)
    obtain ⟨v, hv, hend⟩ := ih hrun fun c hc => hcodes c (List.mem_cons_of_mem b hc)
    rw [List.append_assoc] at hend
    exact ⟨v, (runCommands_cons hu).trans hv, hend⟩

theorem EncodeRun.exists_encEnd (hcode : s.hasCode 256) :
    ∃ u, exec .encEnd t = .next u ∧ EncodeDone s dry (p ++ s.pathOf 256) u := by
  have hpath : t.pathOf 256 = s.pathOf 256 := congrArg codePath (h.codeAt_eq _)
  have hcode' : t.hasCode 256 := by rw [State.hasCode, h.codeAt_eq]; exact hcode
  obtain ⟨u, new, hu, htrace, hcount, hout, -, hpad, hdry, -, -, hframe⟩ :=
    (encEndEmitsTheEndCodeAndFlushes t (h.err_eq.trans herr)).1 h.encState_eq hcode'
  rw [hpath] at htrace hpad
  rw [h.encDry_eq] at hpad hdry
  refine ⟨u, hu, ?_, ?_, fun hwet => ?_, fun hd => ?_, ?_⟩
  · rw [htrace, h.trace]
  · rw [hcount, h.count_append]
  · obtain ⟨pad, hlt, hnew⟩ := hpad hwet
    refine ⟨pad, hlt, ?_⟩
    rw [hout, bitsOf_append, hnew, ← h.packed hwet]
    simp only [List.append_assoc]
  · rw [hout, h.silent hd, hdry hd, List.append_nil]
  · rw [hframe, h.frame]

end

/-! ### The whole run -/

/-- The bits of a whole run: the codes of the bytes and the end code. -/
def runBits (s : State) (bytes : List Byte) : List Bool := bytes.flatMap (fun b => s.pathOf b.toNat) ++ s.pathOf 256

/-- The run of R173, from any state with a code table that has the codes needed. -/
theorem exists_encodeDone {s : State} {bytes : List Byte} (herr : s.err = .noFault) (hcodes : s.codesValid = true)
    (hbytes : ∀ b ∈ bytes, s.hasCode b.toNat) (hend : s.hasCode 256) (dry : Bool) :
    ∃ t, runCommands (.encStart dry :: bytes.map .encSym ++ [.encEnd]) s = some t ∧
      EncodeDone s dry (runBits s bytes) t := by
  obtain ⟨u, hu, hopen⟩ := exists_encodeRun_encStart herr hcodes dry
  obtain ⟨v, hv, hrun⟩ := hopen.exists_encSyms herr hbytes
  obtain ⟨w, hw, hdone⟩ := hrun.exists_encEnd herr hend
  refine ⟨w, ?_, hdone⟩
  rw [List.cons_append, runCommands_cons hu, runCommands_append hv, runCommands_singleton hw]

/-- Settles O39: the bits of the run are the trace and, with the pad bits, the output, whose length they fix. -/
theorem finishedEncodeRunLaws : Obligations.FinishedEncodeRunLaws := by
  intro s dry bytes herr hcodes hbytes hend
  obtain ⟨t, hrun, hdone⟩ := exists_encodeDone herr hcodes hbytes hend dry
  refine ⟨t, hrun, by rw [hdone.frame]; exact herr, by rw [hdone.frame], hdone.trace, by rw [hdone.trace, hdone.count],
    fun hwet => ?_, hdone.silent⟩
  obtain ⟨pad, hlt, hout⟩ := hdone.padded hwet
  have hlen := congrArg List.length hout
  rw [bitsOf_length, List.length_append, List.length_replicate] at hlen
  rw [hdone.trace]
  refine ⟨by omega, ?_⟩
  rw [hout, show 8 * t.encOut.length - (runBits s bytes).length = pad by omega]

end Sys2Proof.Machine
end

section
/-! DEC_BYTE against its DEC_BITs, and when a bit has no child to move to (spec/44_decoder.md R190, R192). -/

namespace Sys2Proof.Machine

/-! ### DEC_BYTE and its bits (R192) -/

theorem deliver_eq_none_iff {b : Bool} {s : State} :
    deliver b s = none ↔ s.decState = .run ∧ childOf (s.nodeAt s.decPtr) b = Config.nullIdx := by
  rcases deliver_cases b s with ⟨hrun, hd⟩ | ⟨hrun, hchild, hd⟩ | ⟨hrun, hchild, hd⟩
  · simp [hd, hrun]
  · simp [hd, hrun, hchild]
  · simp [hd, hchild]

theorem deliver_of_child {b : Bool} {s : State} (hrun : s.decState = .run)
    (hchild : childOf (s.nodeAt s.decPtr) b ≠ Config.nullIdx) :
    deliver b s = some (arriveAt (childOf (s.nodeAt s.decPtr) b) s) :=
  (if_pos hrun).trans (if_neg hchild)

theorem feedBits_cons {b : Bool} {p : List Bool} {s t : State} (h : deliver b s = some t) :
    feedBits (b :: p) s = feedBits p t := by
  rw [feedBits, h]

theorem feedBits_append_of_fed {p q : List Bool} {s t : State} (h : feedBits p s = .fed t) :
    feedBits (p ++ q) s = feedBits q t := by
  rw [feedBits_append, h]

theorem exec_decByte_of_absent {s t : State} {v : Byte} {b : Bool} (herr : s.err = .noFault)
    (hbusy : s.decState ≠ .idle) (habsent : feedBits (byteBits v) s = .absent b t) :
    exec (.decByte v) s = raiseBadPath b t :=
  (unlessFaulted_requires_decoding_of_not_idle herr hbusy).trans (by rw [habsent])

theorem take_byteBits (v : Byte) {n : Nat} (hn : n ≤ 8) :
    (List.range n).map (fun i => v.getLsbD (7 - i)) = (byteBits v).take n := by
  rw [byteBits, ← List.map_take, List.take_range, Nat.min_eq_left hn]

/-- Settles O43: either all eight bits are fed, or the bits before the one with no child are, and that one, sent as a
DEC_BIT, faults as the DEC_BYTE does. -/
theorem decByteIsEightDecBits : Obligations.DecByteIsEightDecBits := by
  intro s v herr
  refine ⟨fun hbusy => ?_, unlessFaulted_requires_decoding_of_idle herr⟩
  obtain ⟨hframe, hframe'⟩ := feedBits_frame (byteBits v) s
  cases hf : feedBits (byteBits v) s with
  | fed t =>
    obtain ⟨rsp, hrun⟩ := runCommands_of_feedBits herr hbusy hf
    have hterr : t.err = .noFault := by rw [hframe t hf]; exact herr
    have htrsp : t.rsp = s.rsp := by rw [hframe t hf]
    refine ⟨_, 8, _, exec_decByte_of_fed herr hbusy hf, le_rfl, hrun, nofun, .inl hterr, ?_⟩
    rw [if_pos (by exact hterr), ← htrsp]
    rfl
  | absent b t =>
    obtain ⟨n, hn, hb, hfed, hnone⟩ := feedBits_absent hf
    rw [byteBits_length] at hn
    obtain ⟨rsp, hrun⟩ := runCommands_of_feedBits herr hbusy hfed
    have hterr : t.err = .noFault := by rw [hframe' b t hf]; exact herr
    have htrsp : t.rsp = s.rsp := by rw [hframe' b t hf]
    obtain ⟨hdec, hchild⟩ := deliver_eq_none_iff.1 hnone
    have hfault := exec_decBit_of_absent (s := { t with rsp := rsp }) hterr hdec hchild
    have hbits : runCommands (((List.range (n + 1)).map (fun i => v.getLsbD (7 - i))).map .decBit) s =
        some (sendResponse ⟨true, 8⟩
          { t with rsp := rsp, err := .badPath, errInfo := (BitVec.ofBool b).zeroExtend 32 }) := by
      rw [take_byteBits v hn, List.take_add_one, hb, Option.toList_some, List.map_append, runCommands_append hrun]
      exact runCommands_singleton hfault
    refine ⟨_, n + 1, _, exec_decByte_of_absent herr hbusy hf, hn, hbits, fun _ => rfl, .inr rfl, ?_⟩
    rw [← htrsp]
    rfl

/-! ### A bit with no child to move to (R190) -/

/-- Only the root of a one-leaf tree lacks a child, and that is the one for the bit 1. -/
theorem Inv.eq_of_deliver_eq_none {s : State} (h : Inv s) {b : Bool} (hnone : Machine.deliver b s = none) :
    b = true ∧ leafCount s.node s.nnodes.toNat = 1 := by
  obtain ⟨hrun, hchild⟩ := deliver_eq_none_iff.1 hnone
  obtain ⟨htree, hptr, hinner⟩ := h.dec_run hrun
  have hshape := h.tree htree
  have hli : leafCount s.node s.nnodes.toNat ≤ s.decPtr.toNat :=
    Nat.le_of_not_lt fun hlt => (hshape.leaf_iff hptr).2 hlt hinner
  obtain ⟨hzero, -⟩ := hshape.children_below _ hptr hli
  cases b with
  | false => exact absurd hchild (hshape.ne_nullIdx (hzero.trans hptr))
  | true =>
    refine ⟨rfl, le_antisymm (Nat.le_of_not_lt fun hmany => ?_) hshape.some_leaf⟩
    exact ((hshape.many_leaves hmany).2 _ hptr hli).1 hchild

/-- The outcome of delivering bits in `s`: no fault unless the tree has one leaf, and then only ERR_BAD_PATH on a 1. -/
def FaultsOnlyInSingleLeafTree (s : State) (r : Result) : Prop :=
  ∃ t, r = .next t ∧ (leafCount s.node s.nnodes.toNat ≠ 1 → t.err = .noFault ∧ t.rsp = s.rsp ++ [⟨false, 0⟩]) ∧
    (t.err ≠ .noFault → t.err = .badPath ∧ t.errInfo = 1)

section
variable {s u : State} (hframe : u = { s with
  decPtr := u.decPtr, decState := u.decState, decOut := u.decOut, decPort := u.decPort })
include hframe

theorem raiseBadPath_faultsOnlyInSingleLeafTree {b : Bool} (hu : Inv u) (hnone : deliver b u = none) :
    FaultsOnlyInSingleLeafTree s (raiseBadPath b u) := by
  obtain ⟨rfl, hone⟩ := hu.eq_of_deliver_eq_none hnone
  rw [hframe] at hone
  exact ⟨_, rfl, fun hne => absurd hone hne, fun _ => ⟨rfl, rfl⟩⟩

theorem respond_faultsOnlyInSingleLeafTree (herr : s.err = .noFault) :
    FaultsOnlyInSingleLeafTree s (respond 0 u) := by
  rw [hframe]
  exact ⟨_, rfl, fun _ => ⟨herr, rfl⟩, fun hne => absurd herr hne⟩

end

/-- Settles O44: the bit that has no child is delivered in a state that meets the invariant and has the same tree. -/
theorem badPathOnlyInASingleLeafTree : Obligations.BadPathOnlyInASingleLeafTree := by
  intro s i h herr hbusy hi
  change FaultsOnlyInSingleLeafTree s (exec i s)
  rcases hi with ⟨b, rfl⟩ | ⟨v, rfl⟩
  · cases hd : deliver b s with
    | none =>
      obtain ⟨hrun, hchild⟩ := deliver_eq_none_iff.1 hd
      rw [exec_decBit_of_absent herr hrun hchild]
      exact raiseBadPath_faultsOnlyInSingleLeafTree rfl h hd
    | some u =>
      rw [exec_decBit_of_deliver herr hbusy hd]
      exact respond_faultsOnlyInSingleLeafTree (deliver_frame hd) herr
  · have hinv := h.feedBits (byteBits v)
    cases hf : feedBits (byteBits v) s with
    | absent b u =>
      obtain ⟨-, -, -, -, hnone⟩ := feedBits_absent hf
      rw [hf] at hinv
      rw [exec_decByte_of_absent herr hbusy hf]
      exact raiseBadPath_faultsOnlyInSingleLeafTree ((feedBits_frame _ s).2 b u hf) hinv hnone
    | fed u =>
      rw [exec_decByte_of_fed herr hbusy hf]
      exact respond_faultsOnlyInSingleLeafTree ((feedBits_frame _ s).1 u hf) herr

end Sys2Proof.Machine
end

section
/-! The round trip (spec/44_decoder.md R195, R197): the decoder, fed the bits of an encode run, follows each code to its
leaf, outputs the bytes one by one, and reaches the end with the last bit of the end code. -/

namespace Sys2Proof.Machine

/-! ### Following a path -/

/-- A path to an internal node moves the pointer there. -/
theorem feedBits_of_internal {p : List Bool} {s : State} {m : Idx} (hrun : s.decState = .run)
    (hp : follow s.node s.decPtr p = some m) (hm : (s.nodeAt m).sym = Config.internalSym) :
    feedBits p s = .fed { s with decPtr := m } := by
  induction p generalizing s with
  | nil =>
    obtain ⟨-, rfl⟩ := follow_nil_eq_some.1 hp
    rfl
  | cons b p ih =>
    obtain ⟨-, -, hrest⟩ := follow_cons_eq_some.1 hp
    have hinner : (s.nodeAt (childOf (s.nodeAt s.decPtr) b)).sym = Config.internalSym := by
      by_contra hleaf
      obtain ⟨-, rfl⟩ := eq_nil_of_follow_of_leaf hleaf hrest
      exact hleaf hm
    rw [feedBits_cons (deliver_of_child hrun (ne_nullIdx_of_follow hrest)), arriveAt_of_internal hinner]
    exact ih (s := { s with decPtr := childOf (s.nodeAt s.decPtr) b }) hrun hrest hm

/-- All but the last bit of a path leave the decoder at an internal node. -/
theorem exists_feedBits_dropLast {p : List Bool} {s : State} {j : Idx} (hrun : s.decState = .run)
    (hp : follow s.node s.decPtr p = some j) (hne : p ≠ []) : ∃ (m : Idx) (b : Bool),
      p = p.dropLast ++ [b] ∧ feedBits p.dropLast s = .fed { s with decPtr := m } ∧
      childOf (s.nodeAt m) b ≠ Config.nullIdx ∧ childOf (s.nodeAt m) b = j := by
  have hsplit := List.dropLast_append_getLast hne
  rw [← hsplit] at hp
  obtain ⟨m, hm, hlast⟩ := follow_append_eq_some.1 hp
  obtain ⟨-, hinner, hchild⟩ := follow_singleton_eq_some.1 hlast
  exact ⟨m, p.getLast hne, hsplit.symm, feedBits_of_internal hrun hm hinner, hchild⟩

/-- A path to a leaf arrives there. -/
theorem feedBits_of_path {p : List Bool} {s : State} {j : Idx} (hrun : s.decState = .run)
    (hp : follow s.node s.decPtr p = some j) (hne : p ≠ []) : ∃ m : Idx,
    feedBits p s = .fed (arriveAt j { s with decPtr := m }) := by
  obtain ⟨m, b, hsplit, hfed, hchild, rfl⟩ := exists_feedBits_dropLast hrun hp hne
  refine ⟨m, ?_⟩
  rw [hsplit, feedBits_append_of_fed hfed, feedBits_cons (deliver_of_child (s := { s with decPtr := m }) hrun hchild)]
  rfl

/-! ### Decoding codes -/

/-- The decoder of `s` is at the root of a tree that the code table matches. -/
structure ReadyToDecode (s : State) : Prop where
  shape : TreeShape s.node s.nnodes.toNat s.root
  codes : CodesMatchTree s
  run : s.decState = .run
  root : s.decPtr = s.root

/-- The bytes are output and all else stays. -/
def outputBytes (bytes : List Byte) (s : State) : State :=
  { s with decOut := s.decOut ++ bytes, decPort := s.decPort ++ bytes }

theorem pathOf_ne_nil {s : State} {k : Nat} (h : s.hasCode k) : s.pathOf k ≠ [] := fun hnil => h <| by
  rw [State.pathOf, ← List.length_eq_zero_iff, codePath_length] at hnil
  exact BitVec.eq_of_toNat_eq hnil

section
variable {s : State} (h : ReadyToDecode s)
include h

theorem ReadyToDecode.outputBytes (bytes : List Byte) : ReadyToDecode (outputBytes bytes s) := { h with }

/-- The code of a symbol leads from where the decoder is to the symbol's leaf. -/
theorem ReadyToDecode.exists_leaf {k : Nat} (hk : k < 257) (hcode : s.hasCode k) : ∃ j : Idx,
    follow s.node s.decPtr (s.pathOf k) = some j ∧ (s.nodeAt j).sym ≠ Config.internalSym ∧
    (s.nodeAt j).sym.toNat = k := by
  rw [h.root]
  exact exists_leaf_of_hasCode h.shape h.codes hk hcode

/-- A byte's code outputs the byte and leaves the decoder at the root. -/
theorem ReadyToDecode.feedBits_byte {b : Byte} (hcode : s.hasCode b.toNat) :
    feedBits (s.pathOf b.toNat) s = .fed (Machine.outputBytes [b] s) := by
  have hb : b.toNat < 256 := b.isLt
  obtain ⟨j, hj, hleaf, hsym⟩ := h.exists_leaf (by omega) hcode
  obtain ⟨m, hfed⟩ := feedBits_of_path h.run hj (pathOf_ne_nil hcode)
  have hliteral : (s.nodeAt j).sym ≠ Config.eofSym := fun heof => by
    rw [heof] at hsym
    change 256 = b.toNat at hsym
    omega
  have hbyte : (s.nodeAt j).sym.truncate 8 = b := BitVec.eq_of_toNat_eq <| by
    rw [BitVec.toNat_setWidth, hsym, Nat.mod_eq_of_lt hb]
  rw [hfed, arriveAt_of_literal (s := { s with decPtr := m }) hleaf hliteral]
  change FeedEnd.fed { outputDec ((s.nodeAt j).sym.truncate 8) s with decPtr := s.root } = _
  rw [hbyte, ← h.root]
  rfl

theorem ReadyToDecode.feedBits_bytes {bytes : List Byte} (hcodes : ∀ b ∈ bytes, s.hasCode b.toNat) :
    feedBits (bytes.flatMap (fun b => s.pathOf b.toNat)) s = .fed (Machine.outputBytes bytes s) := by
  induction bytes generalizing s with
  | nil => simp [feedBits, Machine.outputBytes]
  | cons b bytes ih =>
    have hrest := ih (h.outputBytes [b]) fun c hc => hcodes c (List.mem_cons_of_mem b hc)
    rw [List.flatMap_cons, feedBits_append_of_fed (h.feedBits_byte (hcodes b List.mem_cons_self))]
    refine hrest.trans ?_
    simp [Machine.outputBytes]

/-- The end code ends the run. -/
theorem ReadyToDecode.feedBits_end (hcode : s.hasCode 256) :
    ∃ j : Idx, feedBits (s.pathOf 256) s = .fed { s with decPtr := j, decState := .done } := by
  obtain ⟨j, hj, hleaf, hsym⟩ := h.exists_leaf (by decide) hcode
  obtain ⟨m, hfed⟩ := feedBits_of_path h.run hj (pathOf_ne_nil hcode)
  have heof : (s.nodeAt j).sym = Config.eofSym := BitVec.eq_of_toNat_eq hsym
  exact ⟨j, by rw [hfed, arriveAt_of_eof (s := { s with decPtr := m }) heof]⟩

/-- The whole run, with whatever follows it. -/
theorem ReadyToDecode.feedBits_runBits {bytes : List Byte} (hcodes : ∀ b ∈ bytes, s.hasCode b.toNat)
    (hcode : s.hasCode 256) (rest : List Bool) : ∃ j : Idx, feedBits (runBits s bytes ++ rest) s =
      .fed { Machine.outputBytes bytes s with decPtr := j, decState := .done } := by
  obtain ⟨j, hend⟩ := (h.outputBytes bytes).feedBits_end hcode
  refine ⟨j, ?_⟩
  rw [runBits, List.append_assoc, feedBits_append_of_fed (h.feedBits_bytes hcodes)]
  exact (feedBits_append_of_fed hend).trans (feedBits_of_not_run (show UnitState.done ≠ .run by decide) rest)

/-- Without its last bit the run does not end. -/
theorem ReadyToDecode.feedBits_dropLast_runBits {bytes : List Byte} (hcodes : ∀ b ∈ bytes, s.hasCode b.toNat)
    (hcode : s.hasCode 256) : ∃ m : Idx, feedBits (runBits s bytes).dropLast s =
      .fed { Machine.outputBytes bytes s with decPtr := m } := by
  have hnext := h.outputBytes bytes
  obtain ⟨j, hj, -⟩ := hnext.exists_leaf (by decide) hcode
  obtain ⟨m, -, -, hfed, -⟩ := exists_feedBits_dropLast hnext.run hj (pathOf_ne_nil hcode)
  refine ⟨m, ?_⟩
  rw [runBits, List.dropLast_append_of_ne_nil (pathOf_ne_nil hcode), feedBits_append_of_fed (h.feedBits_bytes hcodes)]
  exact hfed

end

/-! ### Parts of a decode run -/

theorem feedBits_decState_ne_idle {p : List Bool} {s t : State} (hbusy : s.decState ≠ .idle)
    (h : feedBits p s = .fed t) : t.decState ≠ .idle := by
  induction p generalizing s with
  | nil => cases h; exact hbusy
  | cons b p ih =>
    rw [feedBits] at h
    cases hd : deliver b s with
    | none => rw [hd] at h; cases h
    | some u => rw [hd] at h; exact ih (deliver_decState_ne_idle hbusy hd) h

/-- A delivered bit only adds to the output. -/
theorem deliver_output {b : Bool} {s t : State} (h : deliver b s = some t) :
    s.decOut <+: t.decOut ∧ s.decPort <+: t.decPort := by
  rcases deliver_cases b s with ⟨-, hd⟩ | ⟨-, -, hd⟩ | ⟨-, -, hd⟩ <;> cases hd.symm.trans h
  · exact ⟨List.prefix_rfl, List.prefix_rfl⟩
  · unfold arriveAt
    dsimp only
    split
    · exact ⟨List.prefix_rfl, List.prefix_rfl⟩
    · split
      · exact ⟨List.prefix_rfl, List.prefix_rfl⟩
      · exact ⟨List.prefix_append _ _, List.prefix_append _ _⟩

theorem feedBits_output (p : List Bool) (s : State) :
    s.decOut <+: (feedBits p s).state.decOut ∧ s.decPort <+: (feedBits p s).state.decPort := by
  induction p generalizing s with
  | nil => exact ⟨List.prefix_rfl, List.prefix_rfl⟩
  | cons b p ih =>
    rw [feedBits]
    cases hd : deliver b s with
    | none => exact ⟨List.prefix_rfl, List.prefix_rfl⟩
    | some t =>
      obtain ⟨hout, hport⟩ := deliver_output hd
      obtain ⟨hout', hport'⟩ := ih t
      exact ⟨hout.trans hout', hport.trans hport'⟩

/-- What the first part of a sequence of bits that ends in RUN does. -/
theorem feedBits_of_prefix {p q : List Bool} {s t : State} (hprefix : q <+: p) (h : feedBits p s = .fed t)
    (hrun : t.decState = .run) :
    ∃ u, feedBits q s = .fed u ∧ u.decState = .run ∧ u.decOut <+: t.decOut := by
  obtain ⟨r, rfl⟩ := hprefix
  cases hq : feedBits q s with
  | absent b u =>
    rw [feedBits_append, hq] at h
    cases h
  | fed u =>
    rw [feedBits_append_of_fed hq] at h
    refine ⟨u, rfl, ?_, ?_⟩
    · by_contra hended
      rw [feedBits_of_not_run hended] at h
      cases h
      exact hended hrun
    · have hout := (feedBits_output r u).1
      rw [h] at hout
      exact hout

/-- DEC_BYTEs feed the bits of their bytes; only the responses tell. -/
theorem runCommands_decBytes {bytes : List Byte} {s t : State} (herr : s.err = .noFault) (hbusy : s.decState ≠ .idle)
    (hfed : feedBits (bitsOf bytes) s = .fed t) :
    ∃ rsp, runCommands (bytes.map .decByte) s = some { t with rsp := rsp } := by
  induction bytes generalizing s t with
  | nil => cases hfed; exact ⟨s.rsp, rfl⟩
  | cons v bytes ih =>
    have hbits : bitsOf (v :: bytes) = byteBits v ++ bitsOf bytes := rfl
    rw [hbits] at hfed
    cases hv : feedBits (byteBits v) s with
    | absent b u =>
      rw [feedBits_append, hv] at hfed
      cases hfed
    | fed u =>
      rw [feedBits_append_of_fed hv] at hfed
      have huerr : u.err = .noFault := by rw [(feedBits_frame _ s).1 u hv]; exact herr
      have hsent : feedBits (bitsOf bytes) (sendResponse ⟨false, 0⟩ u) = .fed (sendResponse ⟨false, 0⟩ t) := by
        rw [feedBits_sendResponse, hfed, FeedEnd.map]
      have hubusy : u.decState ≠ .idle := feedBits_decState_ne_idle hbusy hv
      rw [List.map_cons, runCommands_cons (exec_decByte_of_fed herr hbusy hv)]
      exact ih (s := sendResponse ⟨false, 0⟩ u) (t := sendResponse ⟨false, 0⟩ t) huerr hubusy hsent

/-- A decode run whose bytes are all fed ends as its DEC_EOD does. -/
theorem exists_runCommands_decode {s t u : State} {bytes : List Byte} (hstart : exec .decStart s = .next t)
    (herr : t.err = .noFault) (hrun : t.decState = .run) (hfed : feedBits (bitsOf bytes) t = .fed u) :
    ∃ rsp, ∀ v, exec .decEod { u with rsp := rsp } = .next v →
      runCommands (.decStart :: bytes.map .decByte ++ [.decEod]) s = some v := by
  obtain ⟨rsp, hbytes⟩ := runCommands_decBytes herr (ne_of_eq_of_ne hrun nofun) hfed
  refine ⟨rsp, fun v hv => ?_⟩
  rw [List.cons_append, runCommands_cons hstart, runCommands_append hbytes, runCommands_singleton hv]

/-! ### Encode, then decode -/

/-- Where DEC_START leaves a block that has just encoded. -/
theorem EncodeDone.exists_decStart {s t : State} {dry : Bool} {p : List Bool} (h : EncodeDone s dry p t) (hinv : Inv s)
    (herr : s.err = .noFault) (htree : s.treeValid = true) (hcodes : s.codesValid = true) :
    ∃ u, exec .decStart t = .next u ∧ ReadyToDecode u ∧ u.err = .noFault ∧ u.decOut = [] ∧ u.code = s.code := by
  have hterr : t.err = .noFault := by rw [h.frame]; exact herr
  have httree : t.treeValid = true := by rw [h.frame]; exact htree
  have hshape : TreeShape t.node t.nnodes.toNat t.root := by rw [h.frame]; exact hinv.tree htree
  have hmatch : CodesMatchTree t := by rw [h.frame]; exact hinv.codes_match hcodes htree
  exact ⟨_, exec_decStart_of_tree hterr httree, ⟨hshape, hmatch, rfl, rfl⟩, hterr, rfl, by rw [h.frame]; rfl⟩

theorem runBits_congr {s t : State} (h : t.code = s.code) (bytes : List Byte) : runBits t bytes = runBits s bytes := by
  simp only [runBits, State.pathOf, State.codeAt, h]

section
variable {s : State} {bytes : List Byte} (hinv : Inv s) (herr : s.err = .noFault) (htree : s.treeValid = true)
  (hcodes : s.codesValid = true) (hbytes : ∀ b ∈ bytes, s.hasCode b.toNat) (hend : s.hasCode 256)
include hinv herr htree hcodes hbytes hend

/-- What both laws start from: the encode run, its payload, and the decoder at the root, which has the same codes. -/
theorem exists_payload : ∃ t u pad,
    runCommands (.encStart false :: bytes.map .encSym ++ [.encEnd]) s = some t ∧ t.err = .noFault ∧
    pad < 8 ∧ bitsOf t.encOut = runBits u bytes ++ List.replicate pad false ∧
    exec .decStart t = .next u ∧ ReadyToDecode u ∧ u.err = .noFault ∧ u.decOut = [] ∧
    (∀ b ∈ bytes, u.hasCode b.toNat) ∧ u.hasCode 256 := by
  obtain ⟨t, hrun, hdone⟩ := exists_encodeDone herr hcodes hbytes hend false
  obtain ⟨u, hu, hready, huerr, hout, hcode⟩ := hdone.exists_decStart hinv herr htree hcodes
  obtain ⟨pad, hlt, hpayload⟩ := hdone.padded rfl
  have hhas (k : Nat) (hk : s.hasCode k) : u.hasCode k := by
    rw [State.hasCode, State.codeAt, hcode]
    exact hk
  rw [← runBits_congr hcode] at hpayload
  exact ⟨t, u, pad, hrun, by rw [hdone.frame]; exact herr, hlt, hpayload, hu, hready, huerr, hout,
    fun b hb => hhas _ (hbytes b hb), hhas 256 hend⟩

end

/-- Settles O46: the payload is the bits of the run and pad bits, which come after the end. -/
theorem decodeOfEncodeIsTheInput : Obligations.DecodeOfEncodeIsTheInput := by
  intro s bytes hinv herr htree hcodes hbytes hend
  obtain ⟨t, u, pad, hrun, hterr, -, hpayload, hu, hready, huerr, hout, hbytes', hend'⟩ :=
    exists_payload hinv herr htree hcodes hbytes hend
  obtain ⟨j, hfed⟩ := hready.feedBits_runBits hbytes' hend' (List.replicate pad false)
  rw [← hpayload] at hfed
  obtain ⟨rsp, hdecode⟩ := exists_runCommands_decode hu huerr hready.run hfed
  have hbytesOut : u.decOut ++ bytes = bytes := by rw [hout, List.nil_append]
  exact ⟨t, _, hrun, hterr, hdecode _ ((decEodEndsOrTruncates _ (by exact huerr)).1 rfl), huerr, rfl, hbytesOut⟩

/-- Fewer than eight pad bits: the payload without its last byte is the run without its last bit, or less. -/
theorem bitsOf_dropLast_prefix {out : List Byte} {p : List Bool} {pad : Nat} (hlt : pad < 8) (hne : out ≠ [])
    (h : bitsOf out = p ++ List.replicate pad false) : bitsOf out.dropLast <+: p.dropLast := by
  have hsplit : bitsOf out.dropLast ++ byteBits (out.getLast hne) = p ++ List.replicate pad false := by
    rw [← h, ← bitsOf_singleton, ← bitsOf_append, List.dropLast_append_getLast]
  have hlen := congrArg List.length hsplit
  rw [List.length_append, List.length_append, byteBits_length, List.length_replicate] at hlen
  have hpre : p.dropLast <+: bitsOf out.dropLast ++ byteBits (out.getLast hne) :=
    hsplit ▸ (List.dropLast_prefix p).trans (List.prefix_append _ _)
  refine List.prefix_of_prefix_length_le (List.prefix_append _ _) hpre ?_
  rw [List.length_dropLast]
  omega

/-- Settles O47: the shortened payload is a part of the run without its last bit, which leaves the decoder in RUN. -/
theorem truncatedPayloadIsReported : Obligations.TruncatedPayloadIsReported := by
  intro s bytes hinv herr htree hcodes hbytes hend
  obtain ⟨t, u, pad, hrun, -, hlt, hpayload, hu, hready, huerr, hout, hbytes', hend'⟩ :=
    exists_payload hinv herr htree hcodes hbytes hend
  have hne : t.encOut ≠ [] := fun hnil => by
    rw [hnil, bitsOf_nil, runBits] at hpayload
    exact pathOf_ne_nil hend' (List.append_eq_nil_iff.1 (List.append_eq_nil_iff.1 hpayload.symm).1).2
  obtain ⟨m, hfull⟩ := hready.feedBits_dropLast_runBits hbytes' hend'
  obtain ⟨v, hfed, hvrun, hvout⟩ :=
    feedBits_of_prefix (bitsOf_dropLast_prefix hlt hne hpayload) hfull hready.run
  have hverr : v.err = .noFault := by rw [(feedBits_frame _ u).1 v hfed]; exact huerr
  obtain ⟨rsp, hdecode⟩ := exists_runCommands_decode hu huerr hready.run hfed
  have hprefix : v.decOut <+: bytes := by
    change v.decOut <+: u.decOut ++ bytes at hvout
    rwa [hout, List.nil_append] at hvout
  exact ⟨t, _, hrun, hne, hdecode _ ((decEodEndsOrTruncates _ (by exact hverr)).2.1 hvrun), rfl, hvrun, hprefix⟩

end Sys2Proof.Machine
end

section
/-! What each command may write (spec/10_state.md R24 to R47): the state after a command, by the command. -/

namespace Sys2Proof.Machine

/-- `t` is `s` with only those elements written that command `i` may write; `u` gives the new values. -/
inductive WrittenBy (s : State) : Instr → State → Prop
  /-- A refusal, a failed check, a fault that changes nothing else, or a read. -/
  | faultRegisters {i : Instr} (u : State) :
    WrittenBy s i { s with err := u.err, errInfo := u.errInfo, rsp := u.rsp }
  | freqPut {a : Idx} {d : Count} (u : State) : WrittenBy s (.freqPut a d) { s with freq := u.freq, rsp := u.rsp }
  | build (u : State) : WrittenBy s .build { s with
      node := u.node, nnodes := u.nnodes, root := u.root, treeValid := u.treeValid, pq := [], codesValid := false
      encState := .idle, decState := .idle, decPtr := 0x3FF, err := u.err, errInfo := u.errInfo, rsp := u.rsp }
  | release (u : State) : WrittenBy s .release { releaseTree s with rsp := u.rsp }
  | gencodes (u : State) : WrittenBy s .gencodes { s with
      code := u.code, codesValid := true, encState := .idle, walkStack := [], walkPath := [], rsp := u.rsp }
  | encStart {dry : Bool} (u : State) : WrittenBy s (.encStart dry) { s with
      encState := .run, encDry := dry, encAcc := 0, encNbits := 0, encBitcnt := 0, encOut := [], encTrace := []
      rsp := u.rsp }
  | encSym {b : Byte} (u : State) (hport : s.encPort <+: u.encPort) : WrittenBy s (.encSym b) { s with
      encTrace := u.encTrace, encBitcnt := u.encBitcnt, encAcc := u.encAcc, encNbits := u.encNbits
      encOut := u.encOut, encPort := u.encPort, rsp := u.rsp }
  | encEnd (u : State) (hport : s.encPort <+: u.encPort) : WrittenBy s .encEnd { s with
      encState := .done, encTrace := u.encTrace, encBitcnt := u.encBitcnt, encAcc := u.encAcc, encNbits := u.encNbits
      encOut := u.encOut, encPort := u.encPort, rsp := u.rsp }
  | decStart (u : State) : WrittenBy s .decStart { s with
      decState := .run, decPtr := s.root, decOut := [], rsp := u.rsp }
  | decBits {i : Instr} (hi : (∃ b, i = .decBit b) ∨ ∃ v, i = .decByte v) (u : State)
      (hport : s.decPort <+: u.decPort) : WrittenBy s i { s with
      decState := u.decState, decPtr := u.decPtr, decOut := u.decOut, decPort := u.decPort, err := u.err
      errInfo := u.errInfo, rsp := u.rsp }

/-- Bits delivered, then a response, with or without a fault. -/
theorem writtenBy_decBits {s u : State} {i : Instr} (hi : (∃ b, i = .decBit b) ∨ ∃ v, i = .decByte v)
    (hport : s.decPort <+: u.decPort) (hframe : u = { s with
      decPtr := u.decPtr, decState := u.decState, decOut := u.decOut, decPort := u.decPort })
    (e : ErrCode) (info : BitVec 32) (r : Response) :
    WrittenBy s i (sendResponse r { u with err := e, errInfo := info }) := by
  rw [hframe]
  exact .decBits hi (sendResponse r { u with err := e, errInfo := info, rsp := s.rsp }) hport

theorem needsCode_writtenBy {s t u : State} {i : Instr} {k : Nat} {body : State → Result}
    (hbody : body s = respond 0 u) (hu : WrittenBy s i (sendResponse ⟨false, 0⟩ u))
    (ht : needsCode k body s = .next t) : WrittenBy s i t := by
  unfold needsCode at ht
  split at ht
  · cases ht
    exact .faultRegisters (sendResponse ⟨true, 6⟩ { s with err := .noCode, errInfo := BitVec.ofNat 32 k })
  · rw [hbody] at ht
    cases ht
    exact hu

theorem afterChecks_writtenBy {i : Instr} {s t : State} (hclear : i ≠ .clear)
    (herr : s.err = .noFault ∨ i = .clear ∨ i = .getStatus) (ht : afterChecks i s = .next t) : WrittenBy s i t := by
  cases i with
  | clear => exact absurd rfl hclear
  | getStatus | freqGet | nodeGet | codeLen | codeBits | getBitcnt =>
    cases ht
    exact .faultRegisters (sendResponse _ s)
  | freqPut a d =>
    cases ht
    exact .freqPut (sendResponse ⟨false, 0⟩ (s.setFreq a.toNat d))
  | build =>
    have herr : s.err = .noFault := by simpa using herr
    obtain ⟨hframe, -⟩ := buildChangesOnlyTheTreeAndItsDependants s t herr ((exec_eq_afterChecks herr rfl rfl).trans ht)
    rw [hframe]
    exact .build t
  | release =>
    cases ht
    exact .release (sendResponse ⟨false, 0⟩ s)
  | gencodes =>
    cases ht
    rw [generateCodes_frame]
    exact .gencodes (sendResponse ⟨false, 0⟩ { s with code := (generateCodes s).code })
  | encStart dry =>
    cases ht
    exact .encStart (sendResponse ⟨false, 0⟩ s)
  | encSym b =>
    obtain ⟨new, -, -, -, hport, -⟩ := emitCode_spec b.toNat s
    refine needsCode_writtenBy (body := fun s => respond 0 (emitCode b.toNat s)) rfl ?_ ht
    rw [emitCode_frame]
    exact .encSym (sendResponse ⟨false, 0⟩ { emitCode b.toNat s with rsp := s.rsp }) ⟨new, hport.symm⟩
  | encEnd =>
    obtain ⟨new, -, hport, -⟩ := flush_emitCode_output 256 s
    refine needsCode_writtenBy (body := fun s => respond 0 (endRun s)) rfl ?_ ht
    rw [endRun_frame]
    exact .encEnd (sendResponse ⟨false, 0⟩
      { emitCode 256 s with encOut := (flush (emitCode 256 s)).encOut, encPort := (flush (emitCode 256 s)).encPort
                            encAcc := 0, encNbits := 0, rsp := s.rsp }) ⟨new, hport.symm⟩
  | decStart =>
    cases ht
    exact .decStart (sendResponse ⟨false, 0⟩ s)
  | decBit b =>
    rw [afterChecks] at ht
    cases hd : deliver b s with
    | none =>
      rw [hd] at ht
      cases ht
      exact .faultRegisters (sendResponse ⟨true, 8⟩
        { s with err := .badPath, errInfo := (BitVec.ofBool b).zeroExtend 32 })
    | some u =>
      rw [hd] at ht
      cases ht
      exact writtenBy_decBits (.inl ⟨b, rfl⟩) (deliver_output hd).2 (deliver_frame hd) u.err u.errInfo _
  | decByte v =>
    have hi : (∃ b, Instr.decByte v = .decBit b) ∨ ∃ w, Instr.decByte v = .decByte w := .inr ⟨v, rfl⟩
    have hport := (feedBits_output (byteBits v) s).2
    rw [afterChecks] at ht
    cases hf : feedBits (byteBits v) s with
    | absent b u =>
      rw [hf] at ht hport
      cases ht
      exact writtenBy_decBits hi hport ((feedBits_frame _ s).2 b u hf) _ _ _
    | fed u =>
      rw [hf] at ht hport
      cases ht
      exact writtenBy_decBits hi hport ((feedBits_frame _ s).1 u hf) u.err u.errInfo _
  | decEod =>
    rw [afterChecks] at ht
    split at ht
    · cases ht
      exact .faultRegisters (sendResponse ⟨true, 7⟩ { s with err := .trunc, errInfo := s.decPtr.zeroExtend 32 })
    · cases ht
      exact .faultRegisters (sendResponse ⟨false, 0⟩ s)

theorem exec_writtenBy {i : Instr} {s t : State} (hclear : i ≠ .clear) (ht : exec i s = .next t) :
    WrittenBy s i t := by
  rcases exec_next_cases ht with ⟨e, info, r, -, rfl⟩ | ⟨-, herr, hafter⟩
  · exact .faultRegisters (sendResponse r { s with err := e, errInfo := info })
  · exact afterChecks_writtenBy hclear herr hafter

/-- Settles O50: for each kind of command, its written elements are among those that the clauses name it for. -/
theorem onlyTheNamedCommandsWrite : Obligations.OnlyTheNamedCommandsWrite := by
  intro i s t ht hclear
  cases exec_writtenBy hclear ht with
  | decBits hi u hport => rcases hi with ⟨b, rfl⟩ | ⟨v, rfl⟩ <;> simp [hport]
  | encSym u hport | encEnd u hport => simp [hport]
  | faultRegisters | freqPut | build | release | gencodes | encStart | decStart => simp [releaseTree]

end Sys2Proof.Machine
end

section
/-! A tree without an end-of-stream leaf (spec/44_decoder.md R196). -/

namespace Sys2Proof.Machine

/-- No node of the tree holds the end-of-stream symbol. -/
def NoEndLeaf (s : State) : Prop := ∀ j < s.nnodes.toNat, (readNode s.node j).sym ≠ 256

theorem Inv.deliver_decState_ne_done {s t : State} (h : Inv s) (hleaf : NoEndLeaf s) (hs : s.decState ≠ .done)
    {b : Bool} (ht : Machine.deliver b s = some t) : t.decState ≠ .done := by
  rcases deliver_cases b s with ⟨-, hd⟩ | ⟨-, -, hd⟩ | ⟨hrun, hchild, hd⟩ <;> cases hd.symm.trans ht
  · exact hs
  · have hliteral : (s.nodeAt (childOf (s.nodeAt s.decPtr) b)).sym ≠ Config.eofSym :=
      hleaf _ (h.child_lt hrun hchild)
    by_cases hinner : (s.nodeAt (childOf (s.nodeAt s.decPtr) b)).sym = Config.internalSym
    · rw [arriveAt_of_internal hinner]
      exact hs
    · rw [arriveAt_of_literal hinner hliteral]
      exact hs

theorem Inv.feedBits_decState_ne_done {s : State} (h : Inv s) (hleaf : NoEndLeaf s) (hs : s.decState ≠ .done)
    (p : List Bool) : (Machine.feedBits p s).state.decState ≠ .done := by
  induction p generalizing s with
  | nil => exact hs
  | cons b p ih =>
    rw [Machine.feedBits]
    cases hd : Machine.deliver b s with
    | none => exact hs
    | some t =>
      have hframe := deliver_frame hd
      refine ih (h.deliver hd) ?_ (h.deliver_decState_ne_done hleaf hs hd)
      rw [hframe]
      exact hleaf

/-- DEC_BIT and DEC_BYTE deliver bits, and their responses do not change the decoder's state. -/
theorem Inv.afterChecks_decState_ne_done {s t : State} (h : Inv s) (hleaf : NoEndLeaf s) (hs : s.decState ≠ .done)
    {i : Instr} (hi : (∃ b, i = .decBit b) ∨ ∃ v, i = .decByte v) (ht : Machine.afterChecks i s = .next t) :
    t.decState ≠ .done := by
  rcases hi with ⟨b, rfl⟩ | ⟨v, rfl⟩ <;> rw [Machine.afterChecks] at ht
  · cases hd : Machine.deliver b s with
    | none => rw [hd] at ht; cases ht; exact hs
    | some u =>
      have hu : u.decState ≠ .done := h.deliver_decState_ne_done hleaf hs hd
      rw [hd] at ht
      cases ht
      exact hu
  · have hfed := h.feedBits_decState_ne_done hleaf hs (byteBits v)
    cases hf : Machine.feedBits (byteBits v) s with
    | absent b u => rw [hf] at ht hfed; cases ht; exact hfed
    | fed u => rw [hf] at ht hfed; cases ht; exact hfed

/-- Settles O48: only DEC_BIT and DEC_BYTE could reach DONE, and only at an end-of-stream leaf. -/
theorem noEndLeafNeverDone : Obligations.NoEndLeafNeverDone := by
  intro s t i h hs hleaf ht
  by_cases hclear : i = .clear
  · subst hclear
    cases ht
    exact nofun
  cases exec_writtenBy hclear ht with
  | decBits hi u hport =>
    rcases exec_next_cases ht with ⟨e, info, r, -, heq⟩ | ⟨-, -, hafter⟩
    · rw [heq]
      exact hs
    · exact h.afterChecks_decState_ne_done hleaf hs hi hafter
  | faultRegisters | freqPut | gencodes | encStart | encSym | encEnd => exact hs
  | build | release | decStart => exact nofun

end Sys2Proof.Machine
end

section
/-! The six commands that only read (spec/20_memory.md R65). -/

namespace Sys2Proof.Machine

/-! ### Responses make no difference to the checks and the results -/

theorem requiresHolds_sendResponse (i : Instr) (r : Response) (s : State) :
    requiresHolds i (sendResponse r s) = requiresHolds i s := by cases i <;> rfl

theorem indexInRange_sendResponse (i : Instr) (r : Response) (s : State) :
    indexInRange i (sendResponse r s) = indexInRange i s := by cases i <;> rfl

theorem resultData_sendResponse (i : Instr) (r : Response) (s : State) :
    resultData i (sendResponse r s) = resultData i s := by
  cases i with
  | nodeGet a f => cases f <;> rfl
  | clear | getStatus | freqPut | freqGet | build | release | gencodes | codeLen | codeBits | encStart | encSym | encEnd
  | getBitcnt | decStart | decBit | decByte | decEod => rfl

/-- Past its checks a read answers its result. -/
theorem afterChecks_of_isRead {i : Instr} (hi : isRead i = true) (s : State) :
    afterChecks i s = respond (resultData i s) s := by
  cases i with
  | nodeGet a f => rw [← selectField_eq_resultData]; rfl
  | getStatus | freqGet | codeLen | codeBits | getBitcnt => rfl
  | clear | freqPut | build | release | gencodes | encStart | encSym | encEnd | decStart | decBit | decByte | decEod =>
    cases hi

/-- A read is answered in `s`: it is GET_STATUS, or there is no fault and its checks hold. -/
def Readable (i : Instr) (s : State) : Prop :=
  i = .getStatus ∨ s.err = .noFault ∧ requiresHolds i s = true ∧ indexInRange i s = true

theorem Readable.exec_eq {i : Instr} {s : State} (h : Readable i s) (hi : isRead i = true) :
    exec i s = respond (resultData i s) s := by
  rcases h with rfl | ⟨herr, hreq, hidx⟩
  · rfl
  · rw [exec_eq_afterChecks herr hreq hidx, afterChecks_of_isRead hi]

theorem Readable.sendResponse {i : Instr} {s : State} (h : Readable i s) (r : Response) :
    Readable i (sendResponse r s) := by
  rw [Readable, requiresHolds_sendResponse, indexInRange_sendResponse]
  exact h

theorem readable_of_success {i : Instr} {s t : State} (herr : i = .getStatus ∨ s.err = .noFault)
    (ht : exec i s = .next t) (hok : t.err = s.err) : Readable i s := by
  refine herr.imp_right fun herr => ⟨herr, ?_⟩
  rw [herr] at hok
  cases hreq : requiresHolds i s
  · rw [exec_of_not_requiresHolds herr hreq] at ht
    cases ht
    cases hok
  cases hidx : indexInRange i s
  · rw [exec_of_not_indexInRange herr hreq hidx] at ht
    cases ht
    cases hok
  exact ⟨rfl, rfl⟩

/-- Settles O49: what a read answers, and whether it answers, does not depend on the responses sent before. -/
theorem readsAreIdempotent : Obligations.ReadsAreIdempotent := by
  intro i s t hi ht hok herr
  have hread := readable_of_success herr ht hok
  rw [hread.exec_eq hi] at ht
  cases ht
  refine ⟨⟨false, resultData i s⟩, rfl, rfl, ?_⟩
  rw [(hread.sendResponse _).exec_eq hi, resultData_sendResponse, respond_eq, sendResponse_rsp, List.append_assoc]
  rfl

end Sys2Proof.Machine
end

section
/-! Encoder commands and decoder commands commute (spec/70_reset_and_hazards.md R261): each leaves the other's registers
alone and does not read them. -/

namespace Sys2Proof.Machine

/-- `s` with the encoder's registers and output of `e`. -/
def withEncoder (e s : State) : State :=
  { s with encState := e.encState, encDry := e.encDry, encAcc := e.encAcc, encNbits := e.encNbits
           encBitcnt := e.encBitcnt, encOut := e.encOut, encTrace := e.encTrace, encPort := e.encPort }

/-- `s` with the decoder's registers and output of `d`. -/
def withDecoder (d s : State) : State :=
  { s with decState := d.decState, decPtr := d.decPtr, decOut := d.decOut, decPort := d.decPort }

/-! ### The encoder and the decoder's registers -/

/-- The part of the state that no encoder command reads, written anew. -/
def afterDecoder (d : State) (q : Response) (s : State) : State := sendResponse q (withDecoder d s)

section
variable (d : State) (q : Response)

theorem putBit_afterDecoder (s : State) (b : Bool) :
    putBit (afterDecoder d q s) b = afterDecoder d q (putBit s b) := by
  cases hd : s.encDry with
  | true => rw [putBit_dry hd, putBit_dry (s := afterDecoder d q s) hd]; rfl
  | false =>
    by_cases hfull : s.encNbits = 7
    · rw [putBit_full hd hfull, putBit_full (s := afterDecoder d q s) hd hfull]; rfl
    · rw [putBit_room hd hfull, putBit_room (s := afterDecoder d q s) hd hfull]; rfl

theorem emitCode_afterDecoder (k : Nat) (s : State) :
    emitCode k (afterDecoder d q s) = afterDecoder d q (emitCode k s) := by
  have hputs (p : List Bool) (s : State) :
      p.foldl putBit (afterDecoder d q s) = afterDecoder d q (p.foldl putBit s) := by
    induction p generalizing s with
    | nil => rfl
    | cons b p ih => rw [List.foldl_cons, List.foldl_cons, putBit_afterDecoder, ih]
  exact hputs _ s

theorem flush_afterDecoder (s : State) : flush (afterDecoder d q s) = afterDecoder d q (flush s) := by
  by_cases hpending : s.encDry = false ∧ s.encNbits ≠ 0
  · have hpending' : (afterDecoder d q s).encDry = false ∧ (afterDecoder d q s).encNbits ≠ 0 := hpending
    rw [flush, flush, if_pos hpending, if_pos hpending']
    rfl
  · have hpending' : ¬ ((afterDecoder d q s).encDry = false ∧ (afterDecoder d q s).encNbits ≠ 0) := hpending
    rw [flush, flush, if_neg hpending, if_neg hpending']
    rfl

theorem endRun_afterDecoder (s : State) : endRun (afterDecoder d q s) = afterDecoder d q (endRun s) := by
  rw [endRun, endRun, emitCode_afterDecoder, flush_afterDecoder]
  rfl

end

/-- A command that succeeds has passed its checks. -/
theorem afterChecks_of_success {i : Instr} {s t : State} (ht : exec i s = .next t) (hok : t.err = .noFault) :
    requiresHolds i s = true ∧ afterChecks i s = .next t := by
  rcases exec_next_cases ht with ⟨e, info, r, he, rfl⟩ | ⟨hreq, -, hafter⟩
  · exact absurd hok he
  · exact ⟨hreq, hafter⟩

theorem hasCode_of_needsCode {k : Nat} {body : State → Result} {s t : State} (ht : needsCode k body s = .next t)
    (hok : t.err = .noFault) : s.hasCode k ∧ body s = .next t := by
  unfold needsCode at ht
  split at ht
  · cases ht
    cases hok
  · next hcode => exact ⟨hcode, ht⟩

theorem needsCode_of_hasCode {k : Nat} {body : State → Result} {s : State} (h : s.hasCode k) :
    needsCode k body s = body s := if_neg h

/-- What an encoder command that succeeds does, whatever the decoder's registers hold. -/
theorem afterChecks_encoder {i : Instr} (hi : isEncoder i = true) {s t : State} (ht : afterChecks i s = .next t)
    (hok : t.err = .noFault) : ∃ (e : State) (r : Response), t = sendResponse r (withEncoder e s) ∧
      ∀ d q, afterChecks i (afterDecoder d q s) = .next (sendResponse r (withEncoder e (afterDecoder d q s))) := by
  cases i with
  | encStart dry =>
    cases ht
    exact ⟨{ s with encState := .run, encDry := dry, encAcc := 0, encNbits := 0, encBitcnt := 0, encOut := []
                    encTrace := [] }, ⟨false, 0⟩, rfl, fun _ _ => rfl⟩
  | encSym b =>
    rw [afterChecks] at ht
    obtain ⟨hcode, hbody⟩ := hasCode_of_needsCode ht hok
    cases hbody
    have hframe : emitCode b.toNat s = withEncoder (emitCode b.toNat s) s := by rw [emitCode_frame]; rfl
    refine ⟨emitCode b.toNat s, ⟨false, 0⟩, by rw [← hframe], fun d q => ?_⟩
    rw [afterChecks, needsCode_of_hasCode (s := afterDecoder d q s) hcode, emitCode_afterDecoder, hframe]
    rfl
  | encEnd =>
    rw [afterChecks] at ht
    obtain ⟨hcode, hbody⟩ := hasCode_of_needsCode ht hok
    cases hbody
    have hframe : endRun s = withEncoder (endRun s) s := by rw [endRun_frame]; rfl
    refine ⟨endRun s, ⟨false, 0⟩, by rw [← hframe], fun d q => ?_⟩
    rw [afterChecks, needsCode_of_hasCode (s := afterDecoder d q s) hcode, endRun_afterDecoder, hframe]
    rfl
  | getBitcnt =>
    cases ht
    exact ⟨s, ⟨false, s.encBitcnt⟩, rfl, fun _ _ => rfl⟩
  | clear | getStatus | freqPut | freqGet | build | nodeGet | release | gencodes | codeLen | codeBits | decStart
  | decBit | decByte | decEod => cases hi

/-! ### The decoder and the encoder's registers -/

/-- The part of the state that no decoder command reads, written anew. -/
def afterEncoder (e : State) (r : Response) (s : State) : State := sendResponse r (withEncoder e s)

section
variable (e : State) (r : Response)

theorem arriveAt_withEncoder (nxt : Idx) (s : State) :
    arriveAt nxt (withEncoder e s) = withEncoder e (arriveAt nxt s) := by
  by_cases hinner : (s.nodeAt nxt).sym = Config.internalSym
  · rw [arriveAt_of_internal hinner, arriveAt_of_internal (s := withEncoder e s) hinner]; rfl
  · by_cases heof : (s.nodeAt nxt).sym = Config.eofSym
    · rw [arriveAt_of_eof heof, arriveAt_of_eof (s := withEncoder e s) heof]; rfl
    · rw [arriveAt_of_literal hinner heof, arriveAt_of_literal (s := withEncoder e s) hinner heof]; rfl

theorem deliver_afterEncoder (b : Bool) (s : State) :
    deliver b (afterEncoder e r s) = (deliver b s).map (afterEncoder e r) := by
  rw [afterEncoder, deliver_sendResponse]
  have hregs : deliver b (withEncoder e s) = (deliver b s).map (withEncoder e) := by
    rcases deliver_cases b s with ⟨hrun, hd⟩ | ⟨hrun, hchild, hd⟩ | ⟨hrun, hchild, hd⟩
    · rw [hd]; exact if_neg hrun
    · rw [hd]; exact (if_pos hrun).trans (if_pos hchild)
    · rw [hd, Option.map_some, ← arriveAt_withEncoder]; exact (if_pos hrun).trans (if_neg hchild)
  rw [hregs, Option.map_map]
  rfl

theorem feedBits_afterEncoder (p : List Bool) (s : State) :
    feedBits p (afterEncoder e r s) = (feedBits p s).map (afterEncoder e r) := by
  induction p generalizing s with
  | nil => rfl
  | cons b p ih =>
    simp only [feedBits, deliver_afterEncoder]
    cases deliver b s with
    | none => rfl
    | some t => exact ih t

/-- What a decoder command that succeeds does, whatever the encoder's registers hold. -/
theorem afterChecks_decoder {j : Instr} (hj : isDecoder j = true) {s u : State}
    (hu : afterChecks j (afterEncoder e r s) = .next u) (hok : u.err = .noFault) : ∃ (d : State) (q : Response),
      u = afterDecoder d q (afterEncoder e r s) ∧ afterChecks j s = .next (afterDecoder d q s) := by
  cases j with
  | decStart =>
    cases hu
    exact ⟨{ s with decState := .run, decPtr := s.root, decOut := [] }, ⟨false, 0⟩, rfl, rfl⟩
  | decBit b =>
    rw [afterChecks, deliver_afterEncoder] at hu
    cases hd : deliver b s with
    | none => rw [hd] at hu; cases hu; cases hok
    | some d =>
      have hframe : d = withDecoder d s := deliver_frame hd
      rw [hd] at hu
      cases hu
      exact ⟨d, ⟨false, 0⟩, by rw [hframe]; rfl, by rw [afterChecks, hd, afterDecoder, ← hframe]; rfl⟩
  | decByte v =>
    rw [afterChecks, feedBits_afterEncoder] at hu
    cases hf : feedBits (byteBits v) s with
    | absent b d => rw [hf] at hu; cases hu; cases hok
    | fed d =>
      have hframe : d = withDecoder d s := (feedBits_frame _ s).1 d hf
      rw [hf] at hu
      cases hu
      exact ⟨d, ⟨false, 0⟩, by rw [hframe]; rfl, by rw [afterChecks, hf, afterDecoder, ← hframe]; rfl⟩
  | decEod =>
    rw [afterChecks] at hu
    split at hu
    · cases hu
      cases hok
    · next hrun =>
      cases hu
      exact ⟨s, ⟨false, 0⟩, rfl, if_neg hrun⟩
  | clear | getStatus | freqPut | freqGet | build | nodeGet | release | gencodes | codeLen | codeBits | encStart
  | encSym | encEnd | getBitcnt => cases hj

end

theorem indexInRange_of_unindexed {i : Instr} (hi : isEncoder i = true ∨ isDecoder i = true) (s : State) :
    indexInRange i s = true := by
  cases i with
  | freqPut | freqGet | nodeGet | codeLen | codeBits => simp [isEncoder, isDecoder] at hi
  | clear | getStatus | build | release | gencodes | encStart | encSym | encEnd | getBitcnt | decStart | decBit
  | decByte | decEod => rfl

theorem requiresHolds_afterDecoder {i : Instr} (hi : isEncoder i = true) (d : State) (q : Response) (s : State) :
    requiresHolds i (afterDecoder d q s) = requiresHolds i s := by
  cases i with
  | decBit | decByte | decEod => cases hi
  | clear | getStatus | freqPut | freqGet | build | nodeGet | release | gencodes | codeLen | codeBits | encStart
  | encSym | encEnd | getBitcnt | decStart => rfl

theorem requiresHolds_afterEncoder {j : Instr} (hj : isDecoder j = true) (e : State) (r : Response) (s : State) :
    requiresHolds j (afterEncoder e r s) = requiresHolds j s := by
  cases j with
  | encSym | encEnd => cases hj
  | clear | getStatus | freqPut | freqGet | build | nodeGet | release | gencodes | codeLen | codeBits | encStart
  | getBitcnt | decStart | decBit | decByte | decEod => rfl

/-- Settles O51: the decoder command does from `s` what it did after the encoder command, and then the encoder command
does what it did from `s`. -/
theorem encoderAndDecoderInterleave : Obligations.EncoderAndDecoderInterleave := by
  intro i j s t u hi hj herr ht htok hu huok
  obtain ⟨hreqi, hafteri⟩ := afterChecks_of_success ht htok
  obtain ⟨hreqj, hafterj⟩ := afterChecks_of_success hu huok
  obtain ⟨e, r, rfl, henc⟩ := afterChecks_encoder hi hafteri htok
  obtain ⟨d, q, rfl, hdec⟩ := afterChecks_decoder e r hj hafterj huok
  have hidxi := indexInRange_of_unindexed (.inl hi) (afterDecoder d q s)
  have hidxj := indexInRange_of_unindexed (.inr hj) s
  have hreqi' := (requiresHolds_afterDecoder hi d q s).trans hreqi
  have hreqj' := (requiresHolds_afterEncoder hj e r s).symm.trans hreqj
  refine ⟨afterDecoder d q s, _, r, q, (exec_eq_afterChecks herr hreqj' hidxj).trans hdec,
    (exec_eq_afterChecks (s := afterDecoder d q s) herr hreqi' hidxi).trans (henc d q), ?_, ?_, rfl⟩
  · exact List.append_assoc _ _ _
  · exact List.append_assoc _ _ _

end Sys2Proof.Machine
end
